-- ==== Sys2Proof/Word.lean ====
section
/-! DEFINITION. The word types of the block (00_scope.md R7): u8, u16 and u32. Byte order, signs and the other
conversions between them stand in Machine/Operands.lean. -/

namespace Sys2Proof

/-- u8 of R7: one byte of a frame or a buffer. -/
abbrev Byte := BitVec 8

/-- u16 of R7: a 16-bit wire field or record register. -/
abbrev Word := BitVec 16

/-- u32 of R7 in milliseconds: the clock and everything compared with it (R35). -/
abbrev Millis := BitVec 32

end Sys2Proof
end

