-- ==== Sys2Proof/Machine/Operands.lean ====
section
/-! DEFINITION. Assembly of operands and fields: bytes of a word, byte orders, signs and modular arithmetic
(00_scope.md R7; 20_memory.md R53; 30_encoding.md R92; 41_wirecodec.md R120 to R123). Each operand form of the
block is a typed value (R82); what has to be computed of one stands here. -/

namespace Sys2Proof.Machine

/-- hi8(v) = v[15:8] (R7). -/
def hi8 (v : Word) : Byte := v.extractLsb' 8 8

/-- lo8(v) = v[7:0] (R7). -/
def lo8 (v : Word) : Byte := v.extractLsb' 0 8

/-- BE16(a, b) = a * 256 + b: the first byte is the high one (R7, R53). -/
def be16 (a b : Byte) : Word := a ++ b

/-- LE16(a, b) = b * 256 + a: the first byte is the low one (R7, R194). -/
def le16 (a b : Byte) : Word := b ++ a

/-- SWAP16 (R120): the two bytes of a word exchanged. -/
def swap16 (v : Word) : Word := ((v <<< 8) &&& 0xFF00) ||| (v >>> 8)

/-- signed16 (R7): the two's-complement reading of a u16. -/
def signed16 (v : Word) : Int := if v.toNat < 32768 then (v.toNat : Int) else (v.toNat : Int) - 65536

/-- neg16(v) = (65536 - v) mod 65536 (R7), of a sum below 65536. -/
def neg16 (v : Nat) : Word := BitVec.ofNat 16 ((65536 - v) % 65536)

/-- sub32(a, b) = (a - b) mod 4294967296 (R7): the wraparound-safe clock subtraction of R164. -/
def sub32 (a b : Millis) : Millis := a - b

/-- The value of a run of bytes read with the first byte the most significant (R53). -/
def beValue (bs : List Byte) : Nat := bs.foldl (fun acc b => acc * 256 + b.toNat) 0

/-- The value of a run of bytes read with the first byte the least significant (R194). -/
def leValue (bs : List Byte) : Nat := beValue bs.reverse

/-- sum(s) of R8: the mathematical sum of the elements. -/
def byteSum (bs : List Byte) : Nat := (bs.map BitVec.toNat).sum

/-- The four bytes of a 32-bit operand, most significant first. -/
def bytes32 (v : Millis) : List Byte :=
  [v.extractLsb' 24 8, v.extractLsb' 16 8, v.extractLsb' 8 8, v.extractLsb' 0 8]

/-- A 32-bit operand from its four bytes, most significant first. -/
def be32 (a b c d : Byte) : Millis := a ++ b ++ c ++ d

/-- zext_8 of a 2-bit value (R7, R92 b). -/
def zext8 (m : BitVec 2) : Byte := m.setWidth 8

end Sys2Proof.Machine
end

