-- ==== Sys2Proof/Config.lean ====
section
/-! DEFINITION. What the source fixes (00_scope.md R5), the parameters an implementation chooses (R6), and the free
values: constants with no body, so that nothing can be proved of the values the spec leaves unspecified. -/

namespace Sys2Proof.Config

/-! The constants of R5. -/

/-- START, first byte of every frame. -/
def START : Byte := 0xDD
/-- STOP, last byte of every frame. -/
def STOP : Byte := 0x77
/-- DIR_READ, request direction code READ. -/
def DIR_READ : Byte := 0xA5
/-- DIR_WRITE, request direction code WRITE. -/
def DIR_WRITE : Byte := 0x5A
/-- CMD_STATUS. -/
def CMD_STATUS : Byte := 0x03
/-- CMD_CELLS. -/
def CMD_CELLS : Byte := 0x04
/-- CMD_HARDWARE. -/
def CMD_HARDWARE : Byte := 0x05
/-- CMD_MOSFET. -/
def CMD_MOSFET : Byte := 0xE1
/-- RC_OK, the return code of an accepted command. -/
def RC_OK : Byte := 0x00
/-- RC_ERR, the one non-zero return code the source names. -/
def RC_ERR : Byte := 0x80
/-- LEN_MAX, the largest declared response length accepted. -/
def LEN_MAX : Nat := 64
/-- CHK_LIMIT: the checksum engine rejects this length and every larger one. -/
def CHK_LIMIT : Nat := 31
/-- CELLS_MAX, slots of the cell-voltage array. -/
def CELLS_MAX : Nat := 32
/-- TEMP_OFFSET, decikelvin value of 0 degrees Celsius (R126: exactly 2731). -/
def TEMP_OFFSET : Nat := 2731
/-- REQ_OVERHEAD, request bytes that are not payload. -/
def REQ_OVERHEAD : Nat := 7
/-- RSP_HDR, bytes of the response header. -/
def RSP_HDR : Nat := 4
/-- RSP_TRL, response bytes after the payload. -/
def RSP_TRL : Nat := 3
/-- Size of TXBUF (R50): REQ_OVERHEAD plus the largest computable payload. -/
def TXBUF_SIZE : Nat := 37
/-- Largest request payload an operand can carry (R162: length 0..255). -/
def PAYLOAD_MAX : Nat := 255

/-- NTC_SWAP (R6, R194): whether the temperature words stay unswapped or are assembled like every other field. -/
inductive NtcSwap where
  | omitted
  | uniform
  deriving DecidableEq, Repr

/-- MOSFET_ENC (R6, R202): the 2-bit number of each mosfet-mask state. -/
structure MosfetEnc where
  none : BitVec 2
  charge : BitVec 2
  discharge : BitVec 2
  both : BitVec 2
  deriving DecidableEq, Repr

/-- FAULT_BIT (R6, R203): which bit of the fault mask each of the thirteen conditions is. -/
structure FaultBits where
  cellOvervoltage : Nat
  cellUndervoltage : Nat
  packOvervoltage : Nat
  packUndervoltage : Nat
  chargeOvertemp : Nat
  chargeUndertemp : Nat
  dischargeOvertemp : Nat
  dischargeUndertemp : Nat
  chargeOvercurrent : Nat
  dischargeOvercurrent : Nat
  shortCircuit : Nat
  icError : Nat
  softwareLock : Nat
  deriving DecidableEq, Repr

/-- Where a Status field lies in the response payload: its byte offset and its width in bytes (R193). -/
structure FieldAt where
  offset : Nat
  width : Nat
  deriving DecidableEq, Repr

/-- STATUS_LAYOUT (R6, R193): one place per Status register, and that of the first temperature
entry. -/
structure StatusLayout where
  voltage : FieldAt
  current : FieldAt
  remaining : FieldAt
  nominal : FieldAt
  cycles : FieldAt
  date : FieldAt
  balanceLo : FieldAt
  balanceHi : FieldAt
  fault : FieldAt
  version : FieldAt
  soc : FieldAt
  mosfet : FieldAt
  cells : FieldAt
  ntcs : FieldAt
  /-- ST_TEMP[0]; entry i lies i widths further (R193, last row) -/
  temps : FieldAt
  deriving DecidableEq, Repr

/-- OPSEL (R6, R94): the selector of each host operation, a label (D2). -/
structure OpSel where
  openDriver : Byte
  execute : Byte
  getStatus : Byte
  getCells : Byte
  getHardware : Byte
  setMosfet : Byte
  checksum : Byte
  toHostOrder : Byte
  toWireOrder : Byte
  decodeDate : Byte
  decodeTemperature : Byte
  encodeRequest : Byte
  decodeResponse : Byte
  isCellOvervoltage : Byte
  isCellUndervoltage : Byte
  isPackOvervoltage : Byte
  isPackUndervoltage : Byte
  isChargeOvertemp : Byte
  isChargeUndertemp : Byte
  isDischargeOvertemp : Byte
  isDischargeUndertemp : Byte
  isChargeOvercurrent : Byte
  isDischargeOvercurrent : Byte
  isShortCircuit : Byte
  isIcError : Byte
  isSoftwareLock : Byte
  deriving DecidableEq, Repr

/-- The selectors of a table, in R94's order: the assigned OPSEL values. -/
def OpSel.values (t : OpSel) : List Byte :=
  [t.openDriver, t.execute, t.getStatus, t.getCells, t.getHardware, t.setMosfet, t.checksum,
   t.toHostOrder, t.toWireOrder, t.decodeDate, t.decodeTemperature, t.encodeRequest, t.decodeResponse] ++
  [t.isCellOvervoltage, t.isCellUndervoltage, t.isPackOvervoltage, t.isPackUndervoltage, t.isChargeOvertemp,
   t.isChargeUndertemp, t.isDischargeOvertemp, t.isDischargeUndertemp, t.isChargeOvercurrent,
   t.isDischargeOvercurrent, t.isShortCircuit, t.isIcError, t.isSoftwareLock]

/-- A legal selector table: a selector names one operation (notes/assumptions/8.md). -/
abbrev OpSel.wf (t : OpSel) : Prop := t.values.Nodup

/-- ERR_CODE (R6, R231): the numeric code of each error reason, a label (D3). -/
structure ErrCodes where
  ok : Byte
  ioShortWrite : Byte
  ioShortReadHeader : Byte
  ioShortReadPayload : Byte
  ioShortReadTrailer : Byte
  ioBufferTooSmall : Byte
  protoBadStart : Byte
  protoOversize : Byte
  protoShortRead : Byte
  protoChecksum : Byte
  protoBadStop : Byte
  deviceError : Byte
  encPayloadTooLong : Byte
  deriving DecidableEq, Repr

/-- The codes of a table, in R231's order. -/
def ErrCodes.values (t : ErrCodes) : List Byte :=
  [t.ok, t.ioShortWrite, t.ioShortReadHeader, t.ioShortReadPayload, t.ioShortReadTrailer, t.ioBufferTooSmall,
   t.protoBadStart, t.protoOversize, t.protoShortRead, t.protoChecksum, t.protoBadStop, t.deviceError, t.encPayloadTooLong]

/-- A legal code table: a code names one reason (notes/assumptions/8.md). -/
abbrev ErrCodes.wf (t : ErrCodes) : Prop := t.values.Nodup

/-- The parameters of R6, fixed for the life of a machine (93 section 2: a field of the model's configuration).
CFG_CMD_DELAY_MS and CFG_DIR_PRESENT are operands of OPEN and stand among the configuration registers. -/
structure Params where
  /-- DIR_TX_LEVEL: the level of the direction line that means transmit. -/
  dirTxLevel : Bool
  /-- RXBUF_SIZE: bytes of the receive payload buffer. -/
  rxbufSize : Nat
  /-- CAP_STATUS. -/
  capStatus : Nat
  /-- CAP_CELLS. -/
  capCells : Nat
  /-- CAP_HARDWARE. -/
  capHardware : Nat
  /-- CAP_MOSFET. -/
  capMosfet : Nat
  /-- NTC_MAX: slots of the temperature array. -/
  ntcMax : Nat
  /-- NTC_SWAP. -/
  ntcSwap : NtcSwap
  /-- MOSFET_ENC. -/
  mosfetEnc : MosfetEnc
  /-- FAULT_BIT. -/
  faultBit : FaultBits
  /-- STATUS_LAYOUT. -/
  statusLayout : StatusLayout
  /-- ERR_CODE. -/
  errCode : ErrCodes
  /-- OPSEL. -/
  opSel : OpSel
  /-- UART_CFG: opaque, no rule reads it. -/
  uartCfg : Nat
  /-- STREAM_TIMEOUT: whether a read that cannot be satisfied returns short. -/
  streamTimeout : Bool
  deriving DecidableEq, Repr

/-- MOSFET_ENC's default (R202). -/
def defaultMosfetEnc : MosfetEnc := { none := 0, charge := 1, discharge := 2, both := 3 }

/-- FAULT_BIT's default (R203): bits 0 to 12 in the source's listing order. -/
def defaultFaultBits : FaultBits where
  cellOvervoltage := 0
  cellUndervoltage := 1
  packOvervoltage := 2
  packUndervoltage := 3
  chargeOvertemp := 4
  chargeUndertemp := 5
  dischargeOvertemp := 6
  dischargeUndertemp := 7
  chargeOvercurrent := 8
  dischargeOvercurrent := 9
  shortCircuit := 10
  icError := 11
  softwareLock := 12

/-- STATUS_LAYOUT's default: the table of R193. -/
def defaultStatusLayout : StatusLayout where
  voltage := ⟨0, 2⟩
  current := ⟨2, 2⟩
  remaining := ⟨4, 2⟩
  nominal := ⟨6, 2⟩
  cycles := ⟨8, 2⟩
  date := ⟨10, 2⟩
  balanceLo := ⟨12, 2⟩
  balanceHi := ⟨14, 2⟩
  fault := ⟨16, 2⟩
  version := ⟨18, 1⟩
  soc := ⟨19, 1⟩
  mosfet := ⟨20, 1⟩
  cells := ⟨21, 1⟩
  ntcs := ⟨22, 1⟩
  temps := ⟨23, 2⟩

/-- ERR_CODE's default: the table of R231. -/
def defaultErrCodes : ErrCodes where
  ok := 0x00
  ioShortWrite := 0x11
  ioShortReadHeader := 0x12
  ioShortReadPayload := 0x13
  ioShortReadTrailer := 0x14
  ioBufferTooSmall := 0x15
  protoBadStart := 0x21
  protoOversize := 0x22
  protoShortRead := 0x23
  protoChecksum := 0x24
  protoBadStop := 0x25
  deviceError := 0x30
  encPayloadTooLong := 0x40

/-- OPSEL's default: the table of R94. -/
def defaultOpSel : OpSel where
  openDriver := 0x01
  execute := 0x02
  getStatus := 0x10
  getCells := 0x11
  getHardware := 0x12
  setMosfet := 0x13
  checksum := 0x20
  toHostOrder := 0x21
  toWireOrder := 0x22
  decodeDate := 0x23
  decodeTemperature := 0x24
  encodeRequest := 0x25
  decodeResponse := 0x26
  isCellOvervoltage := 0x30
  isCellUndervoltage := 0x31
  isPackOvervoltage := 0x32
  isPackUndervoltage := 0x33
  isChargeOvertemp := 0x34
  isChargeUndertemp := 0x35
  isDischargeOvertemp := 0x36
  isDischargeUndertemp := 0x37
  isChargeOvercurrent := 0x38
  isDischargeOvercurrent := 0x39
  isShortCircuit := 0x3A
  isIcError := 0x3B
  isSoftwareLock := 0x3C

/-- The defaults of R6. The two parameters R6 leaves OPEN have no default there: STREAM_TIMEOUT is true and
UART_CFG is 0 here (DESIGN CHOICE, notes/assumptions/7.md, unsafe for a run from reset). -/
def defaultParams : Params where
  dirTxLevel := true
  rxbufSize := 64
  capStatus := 64
  capCells := 64
  capHardware := 64
  capMosfet := 0
  ntcMax := 20
  ntcSwap := .omitted
  mosfetEnc := defaultMosfetEnc
  faultBit := defaultFaultBits
  statusLayout := defaultStatusLayout
  errCode := defaultErrCodes
  opSel := defaultOpSel
  uartCfg := 0
  streamTimeout := true

/-- The legal parameter values (R6, D10): every capacity fits the receive buffer, which never exceeds the
transport ceiling, SET_MOSFET's capacity is 0, NTC_MAX lies within 0..64, and a label names one thing
(notes/assumptions/8.md). Every FAULT_BIT and every MOSFET_ENC is legal: R6 gives neither a bound nor distinctness
(DESIGN CHOICE, notes/assumptions/32.md, safe). So is every STATUS_LAYOUT: R6 and R193 bound no offset and no width and
do not say that the fields stand apart or in an order (DESIGN CHOICE, notes/assumptions/33.md, safe). -/
abbrev Params.wf (p : Params) : Prop :=
  p.rxbufSize ≤ LEN_MAX ∧ p.capStatus ≤ p.rxbufSize ∧ p.capCells ≤ p.rxbufSize ∧
    p.capHardware ≤ p.rxbufSize ∧ p.capMosfet = 0 ∧ p.ntcMax ≤ LEN_MAX ∧ p.errCode.wf ∧ p.opSel.wf

/-! The free values: opaque, applied to a counter of the state. -/

/-- The n-th unspecified 16-bit value (93 U4, U7, U8; notes/assumptions/16.md, safe). -/
opaque freeWord : Nat → Word

/-- The n-th unspecified byte (93 U7, U9; notes/assumptions/16.md, safe). -/
opaque freeByte : Nat → Byte

end Sys2Proof.Config
end

