-- ==== Sys2Proof/Syntax.lean ====
section
/-! DEFINITION. The operations of the block as syntax: one constructor for each row of spec/opcode_table.json
(30_encoding.md R82: "a model should use an inductive type with one constructor per row of rule R94"). -/

namespace Sys2Proof

/-- MosfetMask (44_commands.md R202): the operand of SET_MOSFET, exactly four states. Their numbers are the
parameter MOSFET_ENC. -/
inductive MosfetMask where
  | none
  | charge
  | discharge
  | both
  deriving DecidableEq, Repr

/-- The 26 operations of R94 with the operands of the table's source_fields. Operand values outside an operation's
type (a direction code other than A5 and 5A, a capacity above 64, a data region of another length than declared) can
be written here and are refused by the meaning (R12, R244). -/
inductive Instr where
  /-- OPEN (R160): `open` is a word of Lean, hence the name. -/
  | openDriver (dirPresent : Bool) (delayMs : Millis)
  /-- EXECUTE (R162). -/
  | execute (dir cmd : Byte) (payload : List Byte) (cap : Byte)
  /-- GET_STATUS (R191). -/
  | getStatus
  /-- GET_CELLS (R196). -/
  | getCells
  /-- GET_HARDWARE (R199). -/
  | getHardware
  /-- SET_MOSFET (R201). -/
  | setMosfet (mask : MosfetMask)
  /-- CHECKSUM (R110); `none` is absent data. -/
  | checksum (byte length : Byte) (data : Option (List Byte))
  /-- TO_HOST_ORDER (R120). -/
  | toHostOrder (v : Word)
  /-- TO_WIRE_ORDER (R121). -/
  | toWireOrder (v : Word)
  /-- DECODE_DATE (R124). -/
  | decodeDate (v : Word)
  /-- DECODE_TEMPERATURE (R125). -/
  | decodeTemperature (raw : Word)
  /-- ENCODE_REQUEST (R140). -/
  | encodeRequest (dir cmd : Byte) (payload : List Byte)
  /-- DECODE_RESPONSE (R142). -/
  | decodeResponse (s : List Byte)
  /-- IS_CELL_OVERVOLTAGE (R204). -/
  | isCellOvervoltage (f : Word)
  /-- IS_CELL_UNDERVOLTAGE (R205). -/
  | isCellUndervoltage (f : Word)
  /-- IS_PACK_OVERVOLTAGE (R206). -/
  | isPackOvervoltage (f : Word)
  /-- IS_PACK_UNDERVOLTAGE (R207). -/
  | isPackUndervoltage (f : Word)
  /-- IS_CHARGE_OVERTEMP (R208). -/
  | isChargeOvertemp (f : Word)
  /-- IS_CHARGE_UNDERTEMP (R209). -/
  | isChargeUndertemp (f : Word)
  /-- IS_DISCHARGE_OVERTEMP (R210). -/
  | isDischargeOvertemp (f : Word)
  /-- IS_DISCHARGE_UNDERTEMP (R211). -/
  | isDischargeUndertemp (f : Word)
  /-- IS_CHARGE_OVERCURRENT (R212). -/
  | isChargeOvercurrent (f : Word)
  /-- IS_DISCHARGE_OVERCURRENT (R213). -/
  | isDischargeOvercurrent (f : Word)
  /-- IS_SHORT_CIRCUIT (R214). -/
  | isShortCircuit (f : Word)
  /-- IS_IC_ERROR (R215). -/
  | isIcError (f : Word)
  /-- IS_SOFTWARE_LOCK (R216). -/
  | isSoftwareLock (f : Word)
  deriving DecidableEq, Repr

end Sys2Proof
end

