-- ==== Sys2Proof/WellFormed.lean ====
section
/-! DEFINITION. The operand types of the operations (00_scope.md R12: "an operand outside its type" is refused).
Widths are in the Lean types; what stands here is what a width cannot say. -/

namespace Sys2Proof

/-- The two direction codes of R84; R162 and R140 admit no other. -/
abbrev legalDirection (dir : Byte) : Prop := dir = Config.DIR_READ ∨ dir = Config.DIR_WRITE

/-- A payload operand has 0 to 255 bytes (R140, R162). -/
abbrev legalPayload (payload : List Byte) : Prop := payload.length ≤ Config.PAYLOAD_MAX

/-- A result capacity is 0 to 64 (R162). -/
abbrev legalCapacity (cap : Byte) : Prop := cap.toNat ≤ Config.LEN_MAX

/-- CHECKSUM's data, when present, has the declared length (R110, D30). -/
abbrev legalData (length : Byte) (data : Option (List Byte)) : Prop := ∀ d ∈ data, d.length = length.toNat

/-- Every operand is inside its type. -/
def Instr.wellFormed : Instr → Bool
  | .execute dir _ payload cap => decide (legalDirection dir ∧ legalPayload payload ∧ legalCapacity cap)
  | .checksum _ length data => decide (legalData length data)
  | .encodeRequest dir _ payload => decide (legalDirection dir ∧ legalPayload payload)
  | .openDriver _ _ => true
  | .getStatus => true
  | .getCells => true
  | .getHardware => true
  | .setMosfet _ => true
  | .toHostOrder _ => true
  | .toWireOrder _ => true
  | .decodeDate _ => true
  | .decodeTemperature _ => true
  | .decodeResponse _ => true
  | .isCellOvervoltage _ => true
  | .isCellUndervoltage _ => true
  | .isPackOvervoltage _ => true
  | .isPackUndervoltage _ => true
  | .isChargeOvertemp _ => true
  | .isChargeUndertemp _ => true
  | .isDischargeOvertemp _ => true
  | .isDischargeUndertemp _ => true
  | .isChargeOvercurrent _ => true
  | .isDischargeOvercurrent _ => true
  | .isShortCircuit _ => true
  | .isIcError _ => true
  | .isSoftwareLock _ => true

end Sys2Proof
end

