-- ==== Sys2Proof/Decode.lean ====
section
/-! DEFINITION. The HOST format (30_encoding.md R82, R94): the selector byte, whose values are the parameter OPSEL,
names the operation. The spec gives the
operands as typed values and no bits; their bytes after the selector are the model's (DESIGN CHOICE,
notes/assumptions/1.md, safe). One request is one list of bytes: the selector, the operands of fixed width (words most
significant byte first), then the variable-length operand up to the end of the request. The decoder, the encoder, and
the bus monitor's reading of a request frame (R95). -/

namespace Sys2Proof

open Machine (hi8 lo8 be16 be32 bytes32)
open Config (OpSel defaultOpSel)

/-- Why a request is no operation (R94: "Every other OPSEL value is unassigned; issuing it is refused"). -/
inductive DecodeError where
  /-- a request of no bytes -/
  | emptyRequest
  /-- the selector is not in R94's table (93 U12) -/
  | unassignedSelector (sel : Byte)
  /-- the operand bytes are not those of the selector's operation -/
  | malformedOperands (sel : Byte)
  deriving DecidableEq, Repr

/-- OPSEL of an operation: the first column of R94, from the parameter OPSEL. -/
def Instr.selector (t : OpSel) : Instr → Byte
  | .openDriver _ _ => t.openDriver
  | .execute _ _ _ _ => t.execute
  | .getStatus => t.getStatus
  | .getCells => t.getCells
  | .getHardware => t.getHardware
  | .setMosfet _ => t.setMosfet
  | .checksum _ _ _ => t.checksum
  | .toHostOrder _ => t.toHostOrder
  | .toWireOrder _ => t.toWireOrder
  | .decodeDate _ => t.decodeDate
  | .decodeTemperature _ => t.decodeTemperature
  | .encodeRequest _ _ _ => t.encodeRequest
  | .decodeResponse _ => t.decodeResponse
  | .isCellOvervoltage _ => t.isCellOvervoltage
  | .isCellUndervoltage _ => t.isCellUndervoltage
  | .isPackOvervoltage _ => t.isPackOvervoltage
  | .isPackUndervoltage _ => t.isPackUndervoltage
  | .isChargeOvertemp _ => t.isChargeOvertemp
  | .isChargeUndertemp _ => t.isChargeUndertemp
  | .isDischargeOvertemp _ => t.isDischargeOvertemp
  | .isDischargeUndertemp _ => t.isDischargeUndertemp
  | .isChargeOvercurrent _ => t.isChargeOvercurrent
  | .isDischargeOvercurrent _ => t.isDischargeOvercurrent
  | .isShortCircuit _ => t.isShortCircuit
  | .isIcError _ => t.isIcError
  | .isSoftwareLock _ => t.isSoftwareLock

/-- An operation without operands. -/
def noOperands (i : Instr) : List Byte → Option Instr
  | [] => some i
  | _ :: _ => none

/-- One u16 operand. -/
def wordOperand (make : Word → Instr) : List Byte → Option Instr
  | [hi, lo] => some (make (be16 hi lo))
  | _ => none

/-- A bool operand is one byte, 0 or 1. -/
def boolOfByte (b : Byte) : Option Bool :=
  if b = 0 then some false else if b = 1 then some true else none

/-- SET_MOSFET's operand is one byte, 0 to 3, naming the states in R202's order (a name, not MOSFET_ENC's number). -/
def maskOfByte (b : Byte) : Option MosfetMask :=
  if b = 0 then some .none else if b = 1 then some .charge else if b = 2 then some .discharge
  else if b = 3 then some .both else none

/-- The byte that names a mask state. -/
def byteOfMask : MosfetMask → Byte
  | .none => 0
  | .charge => 1
  | .discharge => 2
  | .both => 3

/-- OPEN's operands: dir_present, then delay_ms. -/
def openOperands : List Byte → Option Instr
  | [p, a, b, c, d] => (boolOfByte p).map fun present => .openDriver present (be32 a b c d)
  | _ => none

/-- EXECUTE's operands: dir, cmd, cap, then the payload. -/
def executeOperands : List Byte → Option Instr
  | dir :: cmd :: cap :: payload => some (.execute dir cmd payload cap)
  | _ => none

/-- SET_MOSFET's operand. -/
def maskOperand : List Byte → Option Instr
  | [m] => (maskOfByte m).map .setMosfet
  | _ => none

/-- CHECKSUM's operands: byte, length, whether data is present, then the data. -/
def checksumOperands : List Byte → Option Instr
  | byte :: length :: present :: data =>
    if present = 0 then (if data = [] then some (.checksum byte length none) else none)
    else if present = 1 then some (.checksum byte length (some data)) else none
  | _ => none

/-- ENCODE_REQUEST's operands: dir, cmd, then the payload. -/
def encodeRequestOperands : List Byte → Option Instr
  | dir :: cmd :: payload => some (.encodeRequest dir cmd payload)
  | _ => none

/-- A row of the operation table: the selector, how many operand bytes have a fixed place, and how the operand bytes
are read. -/
structure OpRow where
  selector : Byte
  fixedBytes : Nat
  operands : List Byte → Option Instr

/-- The operation table in R94's order, with the parameter OPSEL's selectors. -/
def opTable (t : OpSel) : List OpRow :=
  [⟨t.openDriver, 5, openOperands⟩,
   ⟨t.execute, 3, executeOperands⟩,
   ⟨t.getStatus, 0, noOperands .getStatus⟩,
   ⟨t.getCells, 0, noOperands .getCells⟩,
   ⟨t.getHardware, 0, noOperands .getHardware⟩,
   ⟨t.setMosfet, 1, maskOperand⟩,
   ⟨t.checksum, 3, checksumOperands⟩,
   ⟨t.toHostOrder, 2, wordOperand .toHostOrder⟩,
   ⟨t.toWireOrder, 2, wordOperand .toWireOrder⟩,
   ⟨t.decodeDate, 2, wordOperand .decodeDate⟩,
   ⟨t.decodeTemperature, 2, wordOperand .decodeTemperature⟩,
   ⟨t.encodeRequest, 2, encodeRequestOperands⟩,
   ⟨t.decodeResponse, 0, fun s => some (.decodeResponse s)⟩] ++
  [⟨t.isCellOvervoltage, 2, wordOperand .isCellOvervoltage⟩,
   ⟨t.isCellUndervoltage, 2, wordOperand .isCellUndervoltage⟩,
   ⟨t.isPackOvervoltage, 2, wordOperand .isPackOvervoltage⟩,
   ⟨t.isPackUndervoltage, 2, wordOperand .isPackUndervoltage⟩,
   ⟨t.isChargeOvertemp, 2, wordOperand .isChargeOvertemp⟩,
   ⟨t.isChargeUndertemp, 2, wordOperand .isChargeUndertemp⟩,
   ⟨t.isDischargeOvertemp, 2, wordOperand .isDischargeOvertemp⟩,
   ⟨t.isDischargeUndertemp, 2, wordOperand .isDischargeUndertemp⟩,
   ⟨t.isChargeOvercurrent, 2, wordOperand .isChargeOvercurrent⟩,
   ⟨t.isDischargeOvercurrent, 2, wordOperand .isDischargeOvercurrent⟩,
   ⟨t.isShortCircuit, 2, wordOperand .isShortCircuit⟩,
   ⟨t.isIcError, 2, wordOperand .isIcError⟩,
   ⟨t.isSoftwareLock, 2, wordOperand .isSoftwareLock⟩]

/-- The table's row for a selector. -/
def rowOf (t : OpSel) (sel : Byte) : Option OpRow := (opTable t).find? fun r => r.selector == sel

/-- The operation a request names, or why it names none. -/
def decode (t : OpSel) : List Byte → Except DecodeError Instr
  | [] => .error .emptyRequest
  | sel :: ops =>
    match rowOf t sel with
    | none => .error (.unassignedSelector sel)
    | some row =>
      match row.operands ops with
      | none => .error (.malformedOperands sel)
      | some i => .ok i

/-- The operand bytes of an operation. -/
def Instr.operandBytes : Instr → List Byte
  | .openDriver present delay => (if present then 1 else 0) :: bytes32 delay
  | .execute dir cmd payload cap => dir :: cmd :: cap :: payload
  | .getStatus => []
  | .getCells => []
  | .getHardware => []
  | .setMosfet mask => [byteOfMask mask]
  | .checksum byte length none => [byte, length, 0]
  | .checksum byte length (some data) => byte :: length :: 1 :: data
  | .toHostOrder v => [hi8 v, lo8 v]
  | .toWireOrder v => [hi8 v, lo8 v]
  | .decodeDate v => [hi8 v, lo8 v]
  | .decodeTemperature v => [hi8 v, lo8 v]
  | .encodeRequest dir cmd payload => dir :: cmd :: payload
  | .decodeResponse s => s
  | .isCellOvervoltage f => [hi8 f, lo8 f]
  | .isCellUndervoltage f => [hi8 f, lo8 f]
  | .isPackOvervoltage f => [hi8 f, lo8 f]
  | .isPackUndervoltage f => [hi8 f, lo8 f]
  | .isChargeOvertemp f => [hi8 f, lo8 f]
  | .isChargeUndertemp f => [hi8 f, lo8 f]
  | .isDischargeOvertemp f => [hi8 f, lo8 f]
  | .isDischargeUndertemp f => [hi8 f, lo8 f]
  | .isChargeOvercurrent f => [hi8 f, lo8 f]
  | .isDischargeOvercurrent f => [hi8 f, lo8 f]
  | .isShortCircuit f => [hi8 f, lo8 f]
  | .isIcError f => [hi8 f, lo8 f]
  | .isSoftwareLock f => [hi8 f, lo8 f]

/-- The bytes of an operation's request. -/
def encode (t : OpSel) (i : Instr) : List Byte := i.selector t :: i.operandBytes

/-- The bytes of a table word: byte k is bits 8k+7..8k of w (the table numbers bit 0 as the least significant bit of
the first byte). -/
def tableBytes (nbits w : Nat) : List Byte :=
  (List.range (nbits / 8)).map fun k => BitVec.ofNat 8 (w >>> (8 * k))

/-- The request a table word stands for: its bytes, and zeros for the operand bytes of fixed place that the table
gives no bits (the variable-length operand is empty). The table's selectors are OPSEL's default. -/
def tableRequest (nbits w : Nat) : List Byte :=
  match tableBytes nbits w with
  | [] => []
  | sel :: ops =>
    sel :: ops ++ List.replicate (((rowOf defaultOpSel sel).map OpRow.fixedBytes).getD 0 - ops.length) 0

/-- The operation the decoder reads from a table word. -/
def decodeTableWord (nbits w : Nat) : Option Instr := (decode defaultOpSel (tableRequest nbits w)).toOption

/-- What a bus monitor reads from the bytes of a request frame (R95). -/
inductive BusRequest where
  /-- byte 0 is not DD -/
  | notAFrame
  | getStatus
  | getCells
  | getHardware
  /-- the mask is payload[1] -/
  | setMosfet (mask : Byte)
  /-- any other request: dir, cmd, len -/
  | generic (dir cmd len : Byte)
  /-- R95 gives it no reading (notes/assumptions/30.md): fewer than four bytes, byte 1 no direction code, or the
  SET_MOSFET header without the payload 00, mask -/
  | unassigned
  deriving DecidableEq, Repr

/-- R95: the four fixed patterns first, then the generic request. W is start<<24 | dir<<16 | cmd<<8 | len (R80), and
`payload` the bytes after it. -/
def busRequest (w : BitVec 32) (payload : List Byte) : BusRequest :=
  if w &&& 0xFF000000 ≠ 0xDD000000 then .notAFrame
  else if w = 0xDDA50300 then .getStatus
  else if w = 0xDDA50400 then .getCells
  else if w = 0xDDA50500 then .getHardware
  else if w = 0xDD5AE102 then
    match payload with
    | zero :: mask :: _ => if zero = 0 then .setMosfet mask else .unassigned
    | _ => .unassigned
  else if legalDirection (w.extractLsb' 16 8) then
    .generic (w.extractLsb' 16 8) (w.extractLsb' 8 8) (w.extractLsb' 0 8)
  else .unassigned

/-- What a bus monitor reads from a run of bytes on the bus (R95): its first four bytes are W. -/
def readBus : List Byte → BusRequest
  | start :: dir :: cmd :: len :: payload => busRequest (be32 start dir cmd len) payload
  | _ => .unassigned

end Sys2Proof
end

