-- ==== Sys2Proof/Machine/State.lean ====
section
/-! DEFINITION. The state of the block as plain data: every register, buffer and flag of 10_state.md R22 to R33 and
20_memory.md R50, the environment state of R35 and R36, the event history of R37, and the model's own fields, each
named as such. INVENTORY.md lists every one with its rule and its reset value. -/

namespace Sys2Proof.Machine

open Sys2Proof.Config (Params defaultParams)

/-! Names. -/

/-- PHASE (R24): the block's program counter, twelve values. -/
inductive Phase where
  | idle
  | encoding
  | wait
  | txEnable
  | transmitting
  | flush
  | directionSwitch
  | receivingHeader
  | receivingPayload
  | receivingTrailer
  | validating
  | stamp
  deriving DecidableEq, Repr

/-- The error reasons of R231, OK included: the values of R_ERR. Their codes and classes are in Machine/Flags.lean. -/
inductive ErrorReason where
  | ok
  | ioShortWrite
  | ioShortReadHeader
  | ioShortReadPayload
  | ioShortReadTrailer
  | ioBufferTooSmall
  | protoBadStart
  | protoOversize
  | protoShortRead
  | protoChecksum
  | protoBadStop
  | deviceError
  | encPayloadTooLong
  deriving DecidableEq, Repr

/-- The four buffers of R50. -/
inductive Space where
  | txbuf
  | rxhdr
  | rxbuf
  | rxtrl
  deriving DecidableEq, Repr

/-- The operation in progress: which record decoder runs when EXECUTE has ended (R190; notes/assumptions/14.md). -/
inductive Command where
  | execute
  | getStatus
  | getCells
  | getHardware
  | setMosfet
  deriving DecidableEq, Repr

/-- The observable events of R37. `dir` carries the level driven. -/
inductive Event where
  | dir (level : Bool)
  | tx (frame : List Byte) (accepted : Nat)
  | flush
  | rx (bytes : List Byte)
  | stamp (t : Millis)
  deriving DecidableEq, Repr

/-! Memory. -/

/-- The contents of one buffer: the bytes that differ from `Memory.unlisted`, addresses strictly rising. -/
abbrev Memory := List Host.Cell

/-- What an address that is not listed reads as (DESIGN CHOICE, notes/assumptions/11.md, unsafe): the spec gives the
buffers no contents before the command that writes them (R34, U5). -/
def Memory.unlisted : Byte := 0

/-- The addresses rise strictly from `lo` on and no listed byte is the unlisted one. -/
def Memory.risesFrom (lo : Nat) : Memory → Bool
  | [] => true
  | (a, b) :: m => decide (lo ≤ a) && decide (b ≠ Memory.unlisted) && Memory.risesFrom (a + 1) m

/-- The canonical form: equal contents are equal lists. -/
def Memory.wf (m : Memory) : Bool := Memory.risesFrom 0 m

/-! The parts of the state. -/

/-- Configuration registers, written by OPEN (R26, R27, R30). -/
structure ConfigRegs where
  /-- OPENED -/
  opened : Bool
  /-- CFG_DIR_PRESENT -/
  dirPresent : Bool
  /-- CFG_CMD_DELAY_MS -/
  cmdDelayMs : Millis
  deriving DecidableEq, Repr

/-- Operand registers, latched at issue (R22). -/
structure OperandRegs where
  /-- OP_DIR -/
  dir : Byte
  /-- OP_CMD -/
  cmd : Byte
  /-- OP_PLEN -/
  plen : Byte
  /-- OP_PAYLOAD -/
  payload : List Byte
  /-- OP_CAP -/
  cap : Nat
  deriving DecidableEq, Repr

/-- Result registers (R23, R25). -/
structure ResultRegs where
  /-- R_ECHO -/
  echo : Byte
  /-- R_CODE -/
  code : Byte
  /-- R_LEN -/
  len : Byte
  /-- R_ERR -/
  err : ErrorReason
  deriving DecidableEq, Repr

/-- The buffers TXBUF, RXHDR, RXBUF and RXTRL (R50 to R52). -/
structure Buffers where
  txbuf : Memory
  rxhdr : Memory
  rxbuf : Memory
  rxtrl : Memory
  deriving DecidableEq, Repr

/-- What the sequencer remembers inside a command: TXLEN (R51) and the values R162 keeps from one phase to a later
one (notes/assumptions/14.md). -/
structure SequencerRegs where
  /-- TXLEN -/
  txLen : Nat
  /-- n of R166: the count the stream accepted -/
  txCount : Nat
  /-- t0 of R164 while WAIT is held -/
  waitStart : Option Millis
  /-- the operation in progress -/
  pending : Command
  deriving DecidableEq, Repr

/-- Status record registers ST_* (R31). `current` holds the two's-complement bit pattern of a signed value. -/
structure Status where
  voltage : Word
  current : Word
  remaining : Word
  nominal : Word
  cycles : Word
  date : Word
  balanceLo : Word
  balanceHi : Word
  fault : Word
  version : Byte
  soc : Byte
  mosfet : Byte
  cells : Byte
  ntcs : Byte
  temps : List Word
  deriving DecidableEq, Repr

/-- Decoded-record registers (R31 to R33): ST_*, CELL[], HWID[] and HWID_LEN. -/
structure Records where
  status : Status
  cells : List Word
  hwid : List Byte
  hwidLen : Nat
  deriving DecidableEq, Repr

/-- The environment as the block's primitives meet it: the clock (R35), the stream's two queues (R36), and the bytes
that have left on the bus (R56; the model's own record, notes/assumptions/24.md). -/
structure Line where
  clock : Millis
  txq : List Byte
  rxq : List Byte
  wire : List Byte
  deriving DecidableEq, Repr

/-- One move of the environment (R21 c and d, R36, R56 to R58): milliseconds that pass, bytes that arrive, how many
queued bytes leave on the wire, the stream's answer to a write if there is one, and whether the stream's read timeout
expires. The spec leaves every one of these to the environment (93 U17 to U19); notes/assumptions/4.md. No move takes
bytes out of the receive queue: a host that drains it between commands (R270) is not modelled (DESIGN CHOICE,
notes/assumptions/19.md, unsafe). -/
structure EnvMove where
  elapse : Nat
  arrive : List Byte
  drain : Nat
  accept : Option Nat
  timeout : Bool
  deriving DecidableEq, Repr

/-- What an operation returns to the host: the result column of R94, and for the commands DONE with its value or
FAILED(reason) (R24). `none`: nothing has been returned since reset, or an operation is in progress. -/
inductive OpResult where
  | none
  | opened
  | executed (code : Byte) (payload : List Byte)
  | status (record : Status)
  | cells (values : List Word)
  | hardware (id : List Byte)
  | mosfetSet
  | failed (reason : ErrorReason)
  | checksum (ok : Bool) (value : Word)
  | word (v : Word)
  | date (year month day : Nat)
  | temperature (decicelsius : Int)
  | frame (bytes : List Byte)
  | response (echo code : Byte) (payload : List Byte)
  | protocolError (reason : ErrorReason)
  | deviceError (code : Byte)
  | flag (b : Bool)
  deriving DecidableEq, Repr

/-- The host's side: the requests it is going to issue, one after the other (R97; the model's own field,
notes/assumptions/2.md), and what the last operation returned (notes/assumptions/22.md). -/
structure HostPort where
  requests : List (List Byte)
  result : OpResult
  deriving DecidableEq, Repr

/-- The whole machine. -/
structure State where
  /-- the parameters of R6, written by nothing (notes/assumptions/7.md) -/
  params : Params
  /-- OPENED, CFG_DIR_PRESENT, CFG_CMD_DELAY_MS -/
  cfg : ConfigRegs
  /-- PHASE -/
  phase : Phase
  /-- LAST_DONE (R28) -/
  lastDone : Millis
  /-- DIR_LEVEL (R29) -/
  dirLevel : Bool
  /-- OP_* -/
  op : OperandRegs
  /-- R_* -/
  res : ResultRegs
  /-- CHK_OK (R25) -/
  chkOk : Bool
  /-- TXBUF, RXHDR, RXBUF, RXTRL -/
  buf : Buffers
  /-- TXLEN and what else the sequencer remembers -/
  seq : SequencerRegs
  /-- ST_*, CELL[], HWID[], HWID_LEN -/
  records : Records
  /-- clock and stream -/
  line : Line
  /-- the environment's coming moves (notes/assumptions/4.md) -/
  script : List EnvMove
  /-- the host's requests and the last result -/
  host : HostPort
  /-- the event history (R37), oldest first -/
  history : List Event
  /-- how many free values have been drawn (notes/assumptions/17.md) -/
  draws : Nat
  deriving DecidableEq, Repr

/-! The ways a step can stop. -/

/-- The one fault of the model. -/
inductive Fault where
  /-- Raised by a buffer access outside its buffer (`State.memRead`, `State.memWrite`): R66 says no rule makes one.
  Safe: the machine stops where the spec gives no meaning (notes/assumptions/18.md). -/
  | outsideBuffer (sp : Space)
  deriving DecidableEq, Repr

/-- The requests the block gives no meaning to (R12, R244, D25): no state changes, no reason code, no time stamp.
Each is safe: the machine takes no step. -/
inductive Refusal where
  /-- Raised by exec's arm of an instruction without a meaning; safe. No arm is left so. -/
  | notModelled (mnemonic : String)
  /-- Raised by every operation issued while PHASE is not IDLE (R39, R244); safe. -/
  | busy
  /-- Raised by every operation but OPEN issued while OPENED = 0 (R30, R162, R244, 93 U14); safe. -/
  | notOpen
  /-- Raised by EXECUTE and ENCODE_REQUEST for a direction code other than A5 and 5A (R244, R140); safe. -/
  | directionCode
  /-- Raised by EXECUTE and ENCODE_REQUEST for a payload of more than 255 bytes (R140, R162); safe. -/
  | payloadLength
  /-- Raised by EXECUTE for a capacity above 64 or above the receive buffer (R162, R52); safe. -/
  | capacity
  /-- Raised by CHECKSUM for data of another length than declared (R110, 93 U13); safe. -/
  | dataLength
  /-- Raised by the step for a request whose selector R94 does not list (93 U12); safe. -/
  | unassignedSelector (sel : Byte)
  /-- Raised by the step for a request whose operand bytes are not those of its operation (R12); safe. -/
  | malformedRequest
  deriving DecidableEq, Repr

/-! Reset. -/

/-- Status registers before any GET_STATUS: unspecified by R34, zero here (DESIGN CHOICE, notes/assumptions/12.md,
unsafe). -/
def Status.zero (ntcMax : Nat) : Status where
  voltage := 0
  current := 0
  remaining := 0
  nominal := 0
  cycles := 0
  date := 0
  balanceLo := 0
  balanceHi := 0
  fault := 0
  version := 0
  soc := 0
  mosfet := 0
  cells := 0
  ntcs := 0
  temps := List.replicate ntcMax 0

/-- The machine at power-on (R34 column a): OPENED = 0 and PHASE = IDLE are the spec's; every other value is
unspecified there and named in notes/assumptions/7.md and 9.md to 13.md (DESIGN CHOICE, unsafe). -/
def State.reset : State where
  params := defaultParams
  cfg := { opened := false, dirPresent := false, cmdDelayMs := 0 }
  phase := .idle
  lastDone := 0
  dirLevel := false
  op := { dir := 0, cmd := 0, plen := 0, payload := [], cap := 0 }
  res := { echo := 0, code := 0, len := 0, err := .ok }
  chkOk := false
  buf := { txbuf := [], rxhdr := [], rxbuf := [], rxtrl := [] }
  seq := { txLen := 0, txCount := 0, waitStart := none, pending := .execute }
  records :=
    { status := Status.zero defaultParams.ntcMax
      cells := List.replicate Config.CELLS_MAX 0
      hwid := List.replicate defaultParams.capHardware 0
      hwidLen := 0 }
  line := { clock := 0, txq := [], rxq := [], wire := [] }
  script := []
  host := { requests := [], result := .none }
  history := []
  draws := 0

end Sys2Proof.Machine
end

