-- ==== Sys2Proof/Machine/Flags.lean ====
section
/-! DEFINITION. The two flags of the block (10_state.md R25) and what computes them: the checksum engine whose
success output is CHK_OK (40_checksum.md R110), and the error reasons R_ERR holds, with their codes and classes
(60_exceptions.md R230, R231). -/

namespace Sys2Proof.Machine

/-! CHK_OK. -/

/-- The sum of R110: byte + length + the data bytes, mod 65536. -/
def checksumSum (byte : Byte) (length : Nat) (data : List Byte) : Nat :=
  (byte.toNat + length + byteSum (data.take length)) % 65536

/-- CHECKSUM of R110: the value, or `none` where the engine rejects (`length >= 31`, or data absent for a non-zero
length), so that no comparison against a rejected checksum can succeed (D4). -/
def checksum (byte : Byte) (length : Nat) (data : Option (List Byte)) : Option Word :=
  if Config.CHK_LIMIT ≤ length then none
  else if 0 < length ∧ data = none then none
  else some (neg16 (checksumSum byte length (data.getD [])))

/-! R_ERR. -/

/-- The class of an error reason (R230); OK has none. -/
inductive ErrorClass where
  | ioError
  | protocolError
  | deviceError
  | encodingError
  deriving DecidableEq, Repr

/-- R231's column "class". -/
def ErrorReason.errorClass : ErrorReason → Option ErrorClass
  | .ok => none
  | .ioShortWrite => some .ioError
  | .ioShortReadHeader => some .ioError
  | .ioShortReadPayload => some .ioError
  | .ioShortReadTrailer => some .ioError
  | .ioBufferTooSmall => some .ioError
  | .protoBadStart => some .protocolError
  | .protoOversize => some .protocolError
  | .protoShortRead => some .protocolError
  | .protoChecksum => some .protocolError
  | .protoBadStop => some .protocolError
  | .deviceError => some .deviceError
  | .encPayloadTooLong => some .encodingError

/-- ERR_CODE of a reason (R231, column "code"): a label, from the parameter ERR_CODE. -/
def ErrorReason.code (t : Config.ErrCodes) : ErrorReason → Byte
  | .ok => t.ok
  | .ioShortWrite => t.ioShortWrite
  | .ioShortReadHeader => t.ioShortReadHeader
  | .ioShortReadPayload => t.ioShortReadPayload
  | .ioShortReadTrailer => t.ioShortReadTrailer
  | .ioBufferTooSmall => t.ioBufferTooSmall
  | .protoBadStart => t.protoBadStart
  | .protoOversize => t.protoOversize
  | .protoShortRead => t.protoShortRead
  | .protoChecksum => t.protoChecksum
  | .protoBadStop => t.protoBadStop
  | .deviceError => t.deviceError
  | .encPayloadTooLong => t.encPayloadTooLong

/-- R_ERR as the number the host reads (R23, R231). -/
def State.errCode (s : State) : Byte := s.res.err.code s.params.errCode

end Sys2Proof.Machine
end

