-- ==== Sys2Proof/Machine/Ops.lean ====
section
/-! DEFINITION. The named operations every meaning is written with: the buffers (20_memory.md R50 to R52), the
environment primitives (00_scope.md R10: Now, DirDrive, StreamWrite, StreamFlush, StreamRead), taking an error and
returning from one (60_exceptions.md R236, R238), and issuing a command (10_state.md R22, R39). -/

namespace Sys2Proof.Machine

/-- What an operation answers. -/
abbrev StepResult := Host.Outcome State Fault Refusal

/-! Buffers. -/

/-- The byte at an address. -/
def Memory.read : Memory → Nat → Byte
  | [], _ => Memory.unlisted
  | (a, b) :: m, x => if a = x then b else Memory.read m x

/-- The contents with one byte stored, in canonical form. -/
def Memory.write : Memory → Nat → Byte → Memory
  | [], x, v => if v = Memory.unlisted then [] else [(x, v)]
  | (a, b) :: m, x, v =>
    if x < a then (if v = Memory.unlisted then (a, b) :: m else (x, v) :: (a, b) :: m)
    else if x = a then (if v = Memory.unlisted then m else (x, v) :: m)
    else (a, b) :: Memory.write m x v

/-- n bytes from an address on, in index order (MemRead of R9). -/
def Memory.readRange (m : Memory) (addr : Nat) : Nat → List Byte
  | 0 => []
  | n + 1 => m.read addr :: Memory.readRange m (addr + 1) n

/-- A sequence stored from an address on (MemWrite of R9): the bytes named and no other. -/
def Memory.writeRange (m : Memory) (addr : Nat) : List Byte → Memory
  | [] => m
  | b :: bs => Memory.writeRange (m.write addr b) (addr + 1) bs

/-- Sizes of the buffers (R50). -/
def Space.size (p : Config.Params) : Space → Nat
  | .txbuf => Config.TXBUF_SIZE
  | .rxhdr => Config.RSP_HDR
  | .rxbuf => p.rxbufSize
  | .rxtrl => Config.RSP_TRL

/-- The contents of a buffer. -/
def Buffers.get (b : Buffers) : Space → Memory
  | .txbuf => b.txbuf
  | .rxhdr => b.rxhdr
  | .rxbuf => b.rxbuf
  | .rxtrl => b.rxtrl

/-- The buffers with one of them replaced. -/
def Buffers.set (b : Buffers) (m : Memory) : Space → Buffers
  | .txbuf => { b with txbuf := m }
  | .rxhdr => { b with rxhdr := m }
  | .rxbuf => { b with rxbuf := m }
  | .rxtrl => { b with rxtrl := m }

/-- MemRead(space, addr, n) of R9; `none` outside the buffer. -/
def State.memRead (s : State) (sp : Space) (addr n : Nat) : Option (List Byte) :=
  if addr + n ≤ sp.size s.params then some ((s.buf.get sp).readRange addr n) else none

/-- MemWrite(space, addr, n, s) of R9; `none` outside the buffer. -/
def State.memWrite (s : State) (sp : Space) (addr : Nat) (bs : List Byte) : Option State :=
  if addr + bs.length ≤ sp.size s.params then
    some { s with buf := s.buf.set ((s.buf.get sp).writeRange addr bs) sp }
  else none

/-! Small updates. -/

/-- `PHASE <- p` (R9). -/
def State.goto (s : State) (p : Phase) : State := { s with phase := p }

/-- One more event of R37. -/
def State.emit (s : State) (e : Event) : State := { s with history := s.history ++ [e] }

/-- What the operation returns to the host (R94, R11, R24). -/
def State.answer (s : State) (r : OpResult) : State := { s with host := { s.host with result := r } }

/-! The environment's moves. -/

/-- The line after one move (R35, R36, R57): time passes modulo 2^32, queued bytes leave in order, bytes arrive in
order. -/
def Line.move (l : Line) (m : EnvMove) : Line where
  clock := l.clock + BitVec.ofNat 32 m.elapse
  txq := l.txq.drop m.drain
  rxq := l.rxq ++ m.arrive
  wire := l.wire ++ l.txq.take m.drain

/-- The move that does nothing. -/
def EnvMove.quiet : EnvMove := { elapse := 0, arrive := [], drain := 0, accept := none, timeout := false }

/-- How a hold ended: lifted, with the move that lifted it, or still held with no move left. -/
inductive Awaited where
  | lifted (m : EnvMove) (l : Line) (script : List EnvMove)
  | held (l : Line)
  deriving DecidableEq, Repr

/-- A hold (R12, R179): the environment moves until `ready` holds just after a move; `m` is the move just made. -/
def awaitLine (ready : EnvMove → Line → Bool) (m : EnvMove) (l : Line) : List EnvMove → Awaited
  | [] => if ready m l then .lifted m l [] else .held l
  | m' :: ms => if ready m l then .lifted m l (m' :: ms) else awaitLine ready m' (l.move m') ms

/-- A primitive that may hold: still held, or done with a value. -/
inductive Waited (α : Type) where
  | held (s : State)
  | done (a : α) (s : State)
  deriving DecidableEq, Repr

/-- Hold until `ready`; then take the value and the line `finish` gives. -/
def State.hold {α : Type} (s : State) (ready : EnvMove → Line → Bool) (finish : EnvMove → Line → α × Line) :
    Waited α :=
  match awaitLine ready EnvMove.quiet s.line s.script with
  | .held l => .held { s with line := l, script := [] }
  | .lifted m l script => .done (finish m l).1 { s with line := (finish m l).2, script := script }

/-- One environment move, if there is one. -/
def State.envMove (s : State) : State :=
  match s.script with
  | [] => s
  | m :: ms => { s with line := s.line.move m, script := ms }

/-! The primitives of R10. -/

/-- Now() (R35): the environment moves once, then the clock is read. The value is `(s.now).line.clock`. -/
def State.now (s : State) : State := s.envMove

/-- Held until the clock has advanced by at least `remaining` from `t0` (R164). -/
def State.waitClock (s : State) (t0 remaining : Millis) : Waited Unit :=
  s.hold (fun _ l => decide (remaining ≤ sub32 l.clock t0)) (fun _ l => ((), l))

/-- DirDrive(level) (R55): nothing without a direction line. -/
def State.dirDrive (s : State) (level : Bool) : State :=
  if s.cfg.dirPresent then { s with dirLevel := level }.emit (.dir level) else s

/-- StreamWrite(frame) (R56): held until the stream answers; the count it accepted, at most the whole frame, whose
bytes join the transmit queue. -/
def State.streamWrite (s : State) (frame : List Byte) : Waited Nat :=
  s.hold (fun m _ => m.accept.isSome) fun m l =>
    let n := min (m.accept.getD 0) frame.length
    (n, { l with txq := l.txq ++ frame.take n })

/-- StreamFlush() (R57): held until every accepted byte has left. -/
def State.streamFlush (s : State) : Waited Unit :=
  s.hold (fun _ l => l.txq.isEmpty) (fun _ l => ((), l))

/-- StreamRead(n) (R58): held until n bytes are there, or, on a stream that times out, its timeout expires; takes the
first n bytes, or all there are. -/
def State.streamRead (s : State) (n : Nat) : Waited (List Byte) :=
  s.hold (fun m l => decide (n ≤ l.rxq.length) || (s.params.streamTimeout && m.timeout)) fun _ l =>
    (l.rxq.take n, { l with rxq := l.rxq.drop n })

/-! Taking an error, and returning. -/

/-- Taking an error (R236, R11): R_ERR takes the reason and the sequencer continues at STAMP. -/
def State.raise (s : State) (reason : ErrorReason) : State :=
  { s with res := { s.res with err := reason } }.goto .stamp

/-- The return (R174, R238): LAST_DONE takes the time just read, whatever the outcome, and the block is in IDLE. -/
def State.stampAndReturn (s : State) : State :=
  { s.now with lastDone := s.now.line.clock }.emit (.stamp s.now.line.clock) |>.goto .idle

/-! Issuing. -/

/-- An operation is issued in IDLE only (R24, R39, R244). -/
def whenIdle (s : State) (k : StepResult) : StepResult :=
  if s.phase = .idle then k else .refused .busy

/-- Every operation but OPEN needs an OPEN before it (R30, R161, R162, R244, 93 U14). -/
def whenOpen (s : State) (k : StepResult) : StepResult :=
  if s.cfg.opened then k else .refused .notOpen

/-- The issue check of every operation but OPEN: in IDLE, and after OPEN. -/
def whenReady (s : State) (k : StepResult) : StepResult := whenIdle s <| whenOpen s k

/-- Issue of a command (R22, R161 first row): the operands are latched and the sequencer enters ENCODING. Nothing is
returned to the host until the command ends (R24). -/
def State.issue (s : State) (c : Command) (dir cmd : Byte) (payload : List Byte) (cap : Nat) : State :=
  ({ s with
      op := { dir := dir, cmd := cmd, plen := BitVec.ofNat 8 payload.length, payload := payload, cap := cap }
      seq := { s.seq with waitStart := none, pending := c } }.answer .none).goto .encoding

end Sys2Proof.Machine
end

