-- ==== Sys2Proof/Machine/ChecksumEngine.lean ====
section
/-! DEFINITION. The meaning of CHECKSUM (40_checksum.md R110). -/

namespace Sys2Proof.Machine

/-- CHECKSUM (R110): data of another length than declared is refused; CHK_OK takes the success output; a rejected
checksum's 16-bit output is a free value (D4, 93 U4; notes/assumptions/17.md). -/
def execChecksum (byte length : Byte) (data : Option (List Byte)) (s : State) : StepResult :=
  whenReady s <|
    if ¬ legalData length data then .refused .dataLength
    else
      match checksum byte length.toNat data with
      | some value => .next ({ s with chkOk := true }.answer (.checksum true value))
      | none =>
        .next ({ s with chkOk := false, draws := s.draws + 1 }.answer
          (.checksum false (Config.freeWord s.draws)))

end Sys2Proof.Machine
end

