-- ==== Sys2Proof/Machine/Codec.lean ====
section
/-! DEFINITION. The two frame formats as functions on byte sequences (30_encoding.md R80, R81; 42_framecodec.md R140
to R153): the encoder and the parser that ENCODE_REQUEST and DECODE_RESPONSE offer to the host and that ENCODING and
VALIDATING run inside a command. -/

namespace Sys2Proof.Machine

/-- ENCODE_REQUEST of R140: the request frame, or `none` for ENC_PAYLOAD_TOO_LONG (R141). -/
def encodeFrame (dir cmd : Byte) (payload : List Byte) : Option (List Byte) :=
  match checksum cmd payload.length (some payload) with
  | none => none
  | some c =>
    some ([Config.START, dir, cmd, BitVec.ofNat 8 payload.length] ++ payload ++ [hi8 c, lo8 c, Config.STOP])

/-- What DECODE_RESPONSE returns (R142). -/
inductive DecodeResult where
  /-- ok (echo, return code, payload) -/
  | ok (echo code : Byte) (payload : List Byte)
  /-- one of the ProtocolError reasons -/
  | protocol (reason : ErrorReason)
  /-- DEVICE_ERROR with the code the device sent (R148) -/
  | device (code : Byte)
  deriving DecidableEq, Repr

/-- The reason VALIDATING puts into R_ERR (R172). -/
def DecodeResult.reason : DecodeResult → ErrorReason
  | .ok _ _ _ => .ok
  | .protocol r => r
  | .device _ => .deviceError

/-- A parse: its result, and CHK_OK's new value if the parser reached its CHECKSUM evaluation. -/
structure Parse where
  result : DecodeResult
  chk : Option Bool
  deriving DecidableEq, Repr

/-- Checks (d) and (e) and the return code (R145, R146, R148), for a frame whose trailer is hi, lo, stop. -/
def checkTrailer (echo code : Byte) (payload : List Byte) (hi lo stop : Byte) : Parse :=
  match checksum code payload.length (some payload) with
  | none => ⟨.protocol .protoChecksum, some false⟩
  | some c =>
    ⟨if be16 hi lo ≠ c then .protocol .protoChecksum
      else if stop ≠ Config.STOP then .protocol .protoBadStop
      else if code ≠ Config.RC_OK then .device code
      else .ok echo code payload, some true⟩

/-- Checks (b) and (c) and the completion D9 (R142 to R144), for the bytes after the header. -/
def checkBody (echo code len : Byte) (rest : List Byte) : Parse :=
  if Config.LEN_MAX < len.toNat then ⟨.protocol .protoOversize, none⟩
  else if 0 < len.toNat ∧ rest.length < len.toNat then ⟨.protocol .protoShortRead, none⟩
  else
    match rest.drop len.toNat with
    | hi :: lo :: stop :: _ => checkTrailer echo code (rest.take len.toNat) hi lo stop
    | _ => ⟨.protocol .protoShortRead, none⟩

/-- DECODE_RESPONSE of R142: total, the first failing check decides (R143). -/
def parseResponse : List Byte → Parse
  | [] => ⟨.protocol .protoShortRead, none⟩
  | start :: rest =>
    if start ≠ Config.START then ⟨.protocol .protoBadStart, none⟩
    else
      match rest with
      | echo :: code :: len :: body => checkBody echo code len body
      | _ => ⟨.protocol .protoShortRead, none⟩

end Sys2Proof.Machine
end

