-- ==== Sys2Proof/Machine/RecordDecode.lean ====
section
/-! DEFINITION. The record decoders of the three read commands (44_commands.md R192 to R200) as functions of the
validated payload. A register the spec leaves unspecified after an OK command takes a free value, drawn from `draws`
on (notes/assumptions/16.md). -/

namespace Sys2Proof.Machine

open Sys2Proof.Config (Params FieldAt NtcSwap freeWord freeByte)

/-- The bytes of a Status field, if all of them are in the payload (R195). -/
def fieldBytes (payload : List Byte) (f : FieldAt) : Option (List Byte) :=
  if f.offset + f.width ≤ payload.length then some ((payload.drop f.offset).take f.width) else none

/-- A 16-bit Status register: the field's bytes big-endian (R192 f16), or the free value. STATUS_LAYOUT may give the
field another width than 2 (R6), and the spec does not say what the register then holds: the low 16 bits of the bytes'
number, zero-extended if there are fewer, ST_CURRENT included (DESIGN CHOICE, notes/assumptions/31.md, unsafe). -/
def statusWord (payload : List Byte) (f : FieldAt) (free : Word) : Word :=
  match fieldBytes payload f with
  | some bs => BitVec.ofNat 16 (beValue bs)
  | none => free

/-- An 8-bit Status register: the field's byte, or the free value. With another width than 1 it is the low 8 bits of
the big-endian number (DESIGN CHOICE, notes/assumptions/31.md, unsafe). -/
def statusByte (payload : List Byte) (f : FieldAt) (free : Byte) : Byte :=
  match fieldBytes payload f with
  | some bs => BitVec.ofNat 8 (beValue bs)
  | none => free

/-- Where STATUS_LAYOUT puts entry i of the temperature array (R193, last row: 23 + 2i, 2 bytes). That the entries
follow each other without gaps under another width is DEDUCED (D21; notes/assumptions/31.md). -/
def tempField (p : Params) (i : Nat) : FieldAt :=
  ⟨p.statusLayout.temps.offset + p.statusLayout.temps.width * i, p.statusLayout.temps.width⟩

/-- NtcValid(L, n) of R195: how many temperature entries are written. For another offset than 23 and another width
than 2 see notes/assumptions/31.md. R195's "n = ST_NTCS when L >= 23 and 0 otherwise" needs no case here: n is ST_NTCS,
and under R193's offsets the count is 0 for L < 23 whatever n is. For a layout that puts the NTC count elsewhere the
spec does not say what takes the place of "L >= 23" (DESIGN CHOICE, notes/assumptions/33.md, unsafe where the count is
in the payload and another fixed field is not, otherwise safe). -/
def ntcValid (p : Params) (len n : Nat) : Nat :=
  min n (min p.ntcMax ((len - p.statusLayout.temps.offset) / p.statusLayout.temps.width))

/-- Entry i of the temperature array (R192, R194): unswapped, the first byte the low one, under OMIT, big-endian under
UNIFORM. With another width than 2 the low 16 bits of that number (DESIGN CHOICE, notes/assumptions/31.md, unsafe). -/
def tempWord (p : Params) (payload : List Byte) (i : Nat) (free : Word) : Word :=
  match fieldBytes payload (tempField p i) with
  | some bs => BitVec.ofNat 16 (if p.ntcSwap = .omitted then leValue bs else beValue bs)
  | none => free

/-- ST_TEMP[0..NTC_MAX). -/
def statusTemps (p : Params) (payload : List Byte) (n draws : Nat) : List Word :=
  (List.range p.ntcMax).map fun i =>
    if i < ntcValid p payload.length n then tempWord p payload i (freeWord (draws + i))
    else freeWord (draws + i)

/-- DecodeStatus of R192, under any STATUS_LAYOUT. The n of R195 is the ST_NTCS written here: where the layout puts the
NTC count outside the payload it is the free value, and that many of the temperature entries inside the payload are
written (DESIGN CHOICE, notes/assumptions/33.md, safe). -/
def decodeStatus (p : Params) (payload : List Byte) (draws : Nat) : Status where
  voltage := statusWord payload p.statusLayout.voltage (freeWord draws)
  current := statusWord payload p.statusLayout.current (freeWord (draws + 1))
  remaining := statusWord payload p.statusLayout.remaining (freeWord (draws + 2))
  nominal := statusWord payload p.statusLayout.nominal (freeWord (draws + 3))
  cycles := statusWord payload p.statusLayout.cycles (freeWord (draws + 4))
  date := statusWord payload p.statusLayout.date (freeWord (draws + 5))
  balanceLo := statusWord payload p.statusLayout.balanceLo (freeWord (draws + 6))
  balanceHi := statusWord payload p.statusLayout.balanceHi (freeWord (draws + 7))
  fault := statusWord payload p.statusLayout.fault (freeWord (draws + 8))
  version := statusByte payload p.statusLayout.version (freeByte (draws + 9))
  soc := statusByte payload p.statusLayout.soc (freeByte (draws + 10))
  mosfet := statusByte payload p.statusLayout.mosfet (freeByte (draws + 11))
  cells := statusByte payload p.statusLayout.cells (freeByte (draws + 12))
  ntcs := statusByte payload p.statusLayout.ntcs (freeByte (draws + 13))
  temps :=
    statusTemps p payload (statusByte payload p.statusLayout.ntcs (freeByte (draws + 13))).toNat (draws + 14)

/-- How many free values DecodeStatus may draw. -/
def statusDraws (p : Params) : Nat := 14 + p.ntcMax

/-- CellValid(L) of R197. -/
def cellValid (len : Nat) : Nat := min Config.CELLS_MAX (len / 2)

/-- DecodeCells of R197: slots that have their two bytes are written big-endian, the others are unspecified. -/
def decodeCells (payload : List Byte) (draws : Nat) : List Word :=
  (List.range Config.CELLS_MAX).map fun i =>
    match payload.drop (2 * i) with
    | a :: b :: _ => be16 a b
    | _ => freeWord (draws + i)

/-- The hardware-id decode of R200: the bytes verbatim, the rest of HWID unspecified. -/
def decodeHardware (p : Params) (payload : List Byte) (draws : Nat) : List Byte :=
  (List.range p.capHardware).map fun i => (payload[i]?).getD (freeByte (draws + i))

/-- GET_STATUS's delivery (R191): the ST_* registers are decoded and returned. -/
def State.deliverStatus (s : State) (payload : List Byte) : State :=
  let record := decodeStatus s.params payload s.draws
  { s with records := { s.records with status := record }, draws := s.draws + statusDraws s.params }.answer
    (.status record)

/-- GET_CELLS's delivery (R196): CELL[] is decoded and CELL[0..CellValid(R_LEN)) returned. -/
def State.deliverCells (s : State) (payload : List Byte) : State :=
  let values := decodeCells payload s.draws
  { s with records := { s.records with cells := values }, draws := s.draws + Config.CELLS_MAX }.answer
    (.cells (values.take (cellValid payload.length)))

/-- GET_HARDWARE's delivery (R199): HWID and HWID_LEN are written and HWID[0..HWID_LEN) returned. -/
def State.deliverHardware (s : State) (payload : List Byte) : State :=
  let id := decodeHardware s.params payload s.draws
  { s with
    records := { s.records with hwid := id, hwidLen := payload.length }
    draws := s.draws + s.params.capHardware }.answer (.hardware (id.take payload.length))

/-- What a command that ended OK returns and writes (R190): each runs its own decoder, EXECUTE returns the code and
the payload (R173), SET_MOSFET returns ok (R201). -/
def State.deliver (s : State) (payload : List Byte) : State :=
  match s.seq.pending with
  | .execute => s.answer (.executed s.res.code payload)
  | .getStatus => s.deliverStatus payload
  | .getCells => s.deliverCells payload
  | .getHardware => s.deliverHardware payload
  | .setMosfet => s.answer .mosfetSet

end Sys2Proof.Machine
end

