-- ==== Sys2Proof/Machine/Sequencer.lean ====
section
/-! DEFINITION. The sequencer (43_transport.md R161 to R174): one definition per phase, `advance` for one row of
R161's table, and `runPhases`, which lets the sequencer go on until the command has ended or a hold is not lifted. -/

namespace Sys2Proof.Machine

/-- One transition: made, held in its phase (R12, R179), or stopped by a buffer index outside its buffer. -/
inductive Progress where
  | moved (s : State)
  | held (s : State)
  | stopped (f : Fault)
  deriving DecidableEq, Repr

/-- Store into a buffer and go on. -/
def State.storing (s : State) (sp : Space) (bs : List Byte) (k : State → State) : Progress :=
  match s.memWrite sp 0 bs with
  | none => .stopped (.outsideBuffer sp)
  | some s' => .moved (k s')

/-- ENCODING (R163). -/
def phaseEncoding (s : State) : Progress :=
  match encodeFrame s.op.dir s.op.cmd s.op.payload with
  | none => .moved ({ s with chkOk := false }.raise .encPayloadTooLong)
  | some frame =>
    { s with chkOk := true }.storing .txbuf frame fun s' =>
      { s' with seq := { s'.seq with txLen := frame.length } }.goto .wait

/-- The rest of WAIT once t0 is sampled (R164). -/
def waitRemaining (s : State) (t0 : Millis) : Progress :=
  match s.waitClock t0 (s.cfg.cmdDelayMs - sub32 t0 s.lastDone) with
  | .held s' => .held { s' with seq := { s'.seq with waitStart := some t0 } }
  | .done _ s' => .moved ({ s' with seq := { s'.seq with waitStart := none } }.goto .txEnable)

/-- WAIT (R164): t0 is sampled on entering; no hold if the spacing has elapsed. -/
def phaseWait (s : State) : Progress :=
  match s.seq.waitStart with
  | some t0 => waitRemaining s t0
  | none =>
    if sub32 s.now.line.clock s.lastDone < s.cfg.cmdDelayMs then waitRemaining s.now s.now.line.clock
    else .moved (s.now.goto .txEnable)

/-- TX_ENABLE (R165). -/
def phaseTxEnable (s : State) : Progress :=
  .moved ((s.dirDrive s.params.dirTxLevel).goto .transmitting)

/-- TRANSMITTING (R166): one write of TXBUF[0..TXLEN); the accepted count is kept. -/
def phaseTransmitting (s : State) : Progress :=
  match s.memRead .txbuf 0 s.seq.txLen with
  | none => .stopped (.outsideBuffer .txbuf)
  | some frame =>
    match s.streamWrite frame with
    | .held s' => .held s'
    | .done n s' => .moved (({ s' with seq := { s'.seq with txCount := n } }.emit (.tx frame n)).goto .flush)

/-- FLUSH (R167). -/
def phaseFlush (s : State) : Progress :=
  match s.streamFlush with
  | .held s' => .held s'
  | .done _ s' => .moved ((s'.emit .flush).goto .directionSwitch)

/-- DIRECTION_SWITCH (R168): back to the receive level, then the short-write abort. -/
def phaseDirectionSwitch (s : State) : Progress :=
  let s' := s.dirDrive (!s.params.dirTxLevel)
  if s.seq.txCount ≠ s.seq.txLen then .moved (s'.raise .ioShortWrite) else .moved (s'.goto .receivingHeader)

/-- R_ECHO, R_CODE and R_LEN from a header that was read in full (R169). -/
def State.latchHeader (s : State) (echo code len : Byte) : State :=
  { s with res := { s.res with echo := echo, code := code, len := len } }

/-- Where a full header leads (R169): the capacity check comes before the payload is read. -/
def State.afterHeader (s : State) (len : Byte) : State :=
  if len = 0 then s.goto .receivingTrailer
  else if s.op.cap < len.toNat then s.raise .ioBufferTooSmall
  else s.goto .receivingPayload

/-- RECEIVING_HEADER (R169). -/
def phaseReceivingHeader (s : State) : Progress :=
  match s.streamRead Config.RSP_HDR with
  | .held s' => .held s'
  | .done h s' =>
    (s'.emit (.rx h)).storing .rxhdr h fun s'' =>
      match h with
      | [_, echo, code, len] => (s''.latchHeader echo code len).afterHeader len
      | _ => s''.raise .ioShortReadHeader

/-- RECEIVING_PAYLOAD (R170). -/
def phaseReceivingPayload (s : State) : Progress :=
  match s.streamRead s.res.len.toNat with
  | .held s' => .held s'
  | .done p s' =>
    (s'.emit (.rx p)).storing .rxbuf p fun s'' =>
      if p.length ≠ s.res.len.toNat then s''.raise .ioShortReadPayload else s''.goto .receivingTrailer

/-- RECEIVING_TRAILER (R171). -/
def phaseReceivingTrailer (s : State) : Progress :=
  match s.streamRead Config.RSP_TRL with
  | .held s' => .held s'
  | .done t s' =>
    (s'.emit (.rx t)).storing .rxtrl t fun s'' =>
      if t.length ≠ Config.RSP_TRL then s''.raise .ioShortReadTrailer else s''.goto .validating

/-- The response handed to the parser (R172): RXHDR[0..4) ++ RXBUF[0..R_LEN) ++ RXTRL[0..3). -/
def State.response (s : State) : Option (List Byte) :=
  match s.memRead .rxhdr 0 Config.RSP_HDR, s.memRead .rxbuf 0 s.res.len.toNat,
      s.memRead .rxtrl 0 Config.RSP_TRL with
  | some h, some p, some t => some (h ++ p ++ t)
  | _, _, _ => none

/-- VALIDATING (R172): R_ERR becomes OK or the parser's reason, CHK_OK the flag of check (d) if it was reached. -/
def phaseValidating (s : State) : Progress :=
  match s.response with
  | none => .stopped (.outsideBuffer .rxbuf)
  | some bytes =>
    let parse := parseResponse bytes
    .moved ({ s with chkOk := parse.chk.getD s.chkOk }.raise parse.result.reason)

/-- STAMP (R174) and the outcome: FAILED(R_ERR), or DONE with what the command returns (R190). -/
def phaseStamp (s : State) : Progress :=
  let s' := s.stampAndReturn
  if s.res.err = .ok then
    match s'.memRead .rxbuf 0 s.res.len.toNat with
    | none => .stopped (.outsideBuffer .rxbuf)
    | some payload => .moved (s'.deliver payload)
  else .moved (s'.answer (.failed s.res.err))

/-- One row of R161's table: what the sequencer does in its phase. In IDLE it does nothing. -/
def advance (s : State) : Progress :=
  match s.phase with
  | .idle => .held s
  | .encoding => phaseEncoding s
  | .wait => phaseWait s
  | .txEnable => phaseTxEnable s
  | .transmitting => phaseTransmitting s
  | .flush => phaseFlush s
  | .directionSwitch => phaseDirectionSwitch s
  | .receivingHeader => phaseReceivingHeader s
  | .receivingPayload => phaseReceivingPayload s
  | .receivingTrailer => phaseReceivingTrailer s
  | .validating => phaseValidating s
  | .stamp => phaseStamp s

/-- At most `n` transitions, ending in IDLE or at a hold that is not lifted. -/
def runPhases : Nat → State → StepResult
  | 0, s => .next s
  | n + 1, s =>
    match advance s with
    | .stopped f => .fault f
    | .held s' => .next s'
    | .moved s' => if s'.phase = .idle then .next s' else runPhases n s'

/-- A command makes at most one pass through the phases after IDLE: eleven of them (R278). -/
def phaseCount : Nat := 11

/-- The command in progress goes on until it ends or is held (R12, R179; notes/assumptions/3.md). -/
def State.proceed (s : State) : StepResult := runPhases phaseCount s

/-- EXECUTE and the four commands (R162, R190): issue, then the phases. -/
def runCommand (c : Command) (dir cmd : Byte) (payload : List Byte) (cap : Nat) (s : State) : StepResult :=
  (s.issue c dir cmd payload cap).proceed

end Sys2Proof.Machine
end

