-- ==== Sys2Proof/Machine/Commands.lean ====
section
/-! DEFINITION. The meanings of the four commands (44_commands.md R190 to R202): EXECUTE with the fixed operands of
30_encoding.md R98, then the command's own decoder. -/

namespace Sys2Proof.Machine

/-- The number of a mask state (R202, MOSFET_ENC). -/
def maskBits (e : Config.MosfetEnc) : MosfetMask → BitVec 2
  | .none => e.none
  | .charge => e.charge
  | .discharge => e.discharge
  | .both => e.both

/-- GET_STATUS (R191). -/
def execGetStatus (s : State) : StepResult :=
  whenReady s <|
    runCommand .getStatus Config.DIR_READ Config.CMD_STATUS [] s.params.capStatus s

/-- GET_CELLS (R196). -/
def execGetCells (s : State) : StepResult :=
  whenReady s <|
    runCommand .getCells Config.DIR_READ Config.CMD_CELLS [] s.params.capCells s

/-- GET_HARDWARE (R199). -/
def execGetHardware (s : State) : StepResult :=
  whenReady s <|
    runCommand .getHardware Config.DIR_READ Config.CMD_HARDWARE [] s.params.capHardware s

/-- SET_MOSFET (R201): the payload is 00 and the mask zero-extended to 8 bits. -/
def execSetMosfet (mask : MosfetMask) (s : State) : StepResult :=
  whenReady s <|
    runCommand .setMosfet Config.DIR_WRITE Config.CMD_MOSFET [0x00, zext8 (maskBits s.params.mosfetEnc mask)]
      s.params.capMosfet s

end Sys2Proof.Machine
end

