-- ==== Sys2Proof/Machine/FaultAccessors.lean ====
section
/-! DEFINITION. The meanings of the thirteen fault accessors (44_commands.md R203 to R216): each reads its own bit of
the mask, at the position the parameter FAULT_BIT gives it, and changes nothing but the value returned. -/

namespace Sys2Proof.Machine

/-- `f[b] = 1` (R203). -/
def testFault (f : Word) (bit : Nat) (s : State) : StepResult :=
  whenReady s <| .next (s.answer (.flag (f.getLsbD bit)))

/-- IS_CELL_OVERVOLTAGE (R204). -/
def execIsCellOvervoltage (f : Word) (s : State) : StepResult :=
  testFault f s.params.faultBit.cellOvervoltage s

/-- IS_CELL_UNDERVOLTAGE (R205). -/
def execIsCellUndervoltage (f : Word) (s : State) : StepResult :=
  testFault f s.params.faultBit.cellUndervoltage s

/-- IS_PACK_OVERVOLTAGE (R206). -/
def execIsPackOvervoltage (f : Word) (s : State) : StepResult :=
  testFault f s.params.faultBit.packOvervoltage s

/-- IS_PACK_UNDERVOLTAGE (R207). -/
def execIsPackUndervoltage (f : Word) (s : State) : StepResult :=
  testFault f s.params.faultBit.packUndervoltage s

/-- IS_CHARGE_OVERTEMP (R208). -/
def execIsChargeOvertemp (f : Word) (s : State) : StepResult :=
  testFault f s.params.faultBit.chargeOvertemp s

/-- IS_CHARGE_UNDERTEMP (R209). -/
def execIsChargeUndertemp (f : Word) (s : State) : StepResult :=
  testFault f s.params.faultBit.chargeUndertemp s

/-- IS_DISCHARGE_OVERTEMP (R210). -/
def execIsDischargeOvertemp (f : Word) (s : State) : StepResult :=
  testFault f s.params.faultBit.dischargeOvertemp s

/-- IS_DISCHARGE_UNDERTEMP (R211). -/
def execIsDischargeUndertemp (f : Word) (s : State) : StepResult :=
  testFault f s.params.faultBit.dischargeUndertemp s

/-- IS_CHARGE_OVERCURRENT (R212). -/
def execIsChargeOvercurrent (f : Word) (s : State) : StepResult :=
  testFault f s.params.faultBit.chargeOvercurrent s

/-- IS_DISCHARGE_OVERCURRENT (R213). -/
def execIsDischargeOvercurrent (f : Word) (s : State) : StepResult :=
  testFault f s.params.faultBit.dischargeOvercurrent s

/-- IS_SHORT_CIRCUIT (R214). -/
def execIsShortCircuit (f : Word) (s : State) : StepResult :=
  testFault f s.params.faultBit.shortCircuit s

/-- IS_IC_ERROR (R215). -/
def execIsIcError (f : Word) (s : State) : StepResult :=
  testFault f s.params.faultBit.icError s

/-- IS_SOFTWARE_LOCK (R216). -/
def execIsSoftwareLock (f : Word) (s : State) : StepResult :=
  testFault f s.params.faultBit.softwareLock s

end Sys2Proof.Machine
end

