-- ==== Sys2Proof/Machine/FrameCodec.lean ====
section
/-! DEFINITION. The meanings of ENCODE_REQUEST and DECODE_RESPONSE (42_framecodec.md R140, R142): no stream, no clock,
no R_ register (R243); CHK_OK is written by the CHECKSUM evaluation inside (notes/assumptions/23.md). -/

namespace Sys2Proof.Machine

/-- ENCODE_REQUEST (R140, R141). -/
def execEncodeRequest (dir cmd : Byte) (payload : List Byte) (s : State) : StepResult :=
  whenReady s <|
    if ¬ legalDirection dir then .refused .directionCode
    else if ¬ legalPayload payload then .refused .payloadLength
    else
      match encodeFrame dir cmd payload with
      | some frame => .next ({ s with chkOk := true }.answer (.frame frame))
      | none => .next ({ s with chkOk := false }.answer (.failed .encPayloadTooLong))

/-- The value DECODE_RESPONSE returns to the host (R142). -/
def responseResult : DecodeResult → OpResult
  | .ok echo code payload => .response echo code payload
  | .protocol reason => .protocolError reason
  | .device code => .deviceError code

/-- DECODE_RESPONSE (R142). -/
def execDecodeResponse (bytes : List Byte) (s : State) : StepResult :=
  whenReady s <|
    .next ({ s with chkOk := (parseResponse bytes).chk.getD s.chkOk }.answer
      (responseResult (parseResponse bytes).result))

end Sys2Proof.Machine
end

