-- ==== Sys2Proof/Machine/Transport.lean ====
section
/-! DEFINITION. The meanings of OPEN and EXECUTE (43_transport.md R160, R162). -/

namespace Sys2Proof.Machine

/-- OPEN (R160): the configuration is latched, the line goes to the receive level, OPENED is set. LAST_DONE, the
stream and the clock are not touched. -/
def execOpen (dirPresent : Bool) (delayMs : Millis) (s : State) : StepResult :=
  whenIdle s <|
    let latched := { s with cfg := { s.cfg with dirPresent := dirPresent, cmdDelayMs := delayMs } }
    let driven := latched.dirDrive (!s.params.dirTxLevel)
    .next ({ driven with cfg := { driven.cfg with opened := true } }.answer .opened)

/-- EXECUTE (R162): operands outside their types are refused (R244, D29, D10), then the command runs. -/
def execExecute (dir cmd : Byte) (payload : List Byte) (cap : Byte) (s : State) : StepResult :=
  whenReady s <|
    if ¬ legalDirection dir then .refused .directionCode
    else if ¬ legalPayload payload then .refused .payloadLength
    else if ¬ (legalCapacity cap ∧ cap.toNat ≤ s.params.rxbufSize) then .refused .capacity
    else runCommand .execute dir cmd payload cap.toNat s

end Sys2Proof.Machine
end

