-- ==== Sys2Proof/Machine/WireCodec.lean ====
section
/-! DEFINITION. The meanings of the wire codec's operations (41_wirecodec.md R120 to R126): pure functions of their
operand, whose only effect is the value returned. -/

namespace Sys2Proof.Machine

/-- TO_HOST_ORDER (R120). -/
def execToHostOrder (v : Word) (s : State) : StepResult :=
  whenReady s <| .next (s.answer (.word (swap16 v)))

/-- TO_WIRE_ORDER (R121): the same function. -/
def execToWireOrder (v : Word) (s : State) : StepResult :=
  whenReady s <| .next (s.answer (.word (swap16 v)))

/-- The year of a packed date (R124): 2000 + v[15:9]. -/
def dateYear (v : Word) : Nat := 2000 + (v.extractLsb' 9 7).toNat

/-- The month of a packed date (R124): v[8:5]. -/
def dateMonth (v : Word) : Nat := (v.extractLsb' 5 4).toNat

/-- The day of a packed date (R124): v[4:0]. -/
def dateDay (v : Word) : Nat := (v.extractLsb' 0 5).toNat

/-- DECODE_DATE (R124): nothing is validated (D24). -/
def execDecodeDate (v : Word) (s : State) : StepResult :=
  whenReady s <| .next (s.answer (.date (dateYear v) (dateMonth v) (dateDay v)))

/-- raw - 2731 on the integers (R125). -/
def decicelsius (raw : Word) : Int := (raw.toNat : Int) - (Config.TEMP_OFFSET : Int)

/-- DECODE_TEMPERATURE (R125). -/
def execDecodeTemperature (raw : Word) (s : State) : StepResult :=
  whenReady s <| .next (s.answer (.temperature (decicelsius raw)))

end Sys2Proof.Machine
end

