-- ==== Sys2Proof/Machine/Dispatch.lean ====
section
/-! DEFINITION. exec: one arm per operation of R94. -/

namespace Sys2Proof.Machine

def exec (i : Instr) (s : State) : Host.Outcome State Fault Refusal :=
  match i with
  | .openDriver dirPresent delayMs => Sys2Proof.Machine.execOpen dirPresent delayMs s
  | .execute dir cmd payload cap => Sys2Proof.Machine.execExecute dir cmd payload cap s
  | .getStatus => Sys2Proof.Machine.execGetStatus s
  | .getCells => Sys2Proof.Machine.execGetCells s
  | .getHardware => Sys2Proof.Machine.execGetHardware s
  | .setMosfet mask => Sys2Proof.Machine.execSetMosfet mask s
  | .checksum byte length data => Sys2Proof.Machine.execChecksum byte length data s
  | .toHostOrder v => Sys2Proof.Machine.execToHostOrder v s
  | .toWireOrder v => Sys2Proof.Machine.execToWireOrder v s
  | .decodeDate v => Sys2Proof.Machine.execDecodeDate v s
  | .decodeTemperature raw => Sys2Proof.Machine.execDecodeTemperature raw s
  | .encodeRequest dir cmd payload => Sys2Proof.Machine.execEncodeRequest dir cmd payload s
  | .decodeResponse bytes => Sys2Proof.Machine.execDecodeResponse bytes s
  | .isCellOvervoltage f => Sys2Proof.Machine.execIsCellOvervoltage f s
  | .isCellUndervoltage f => Sys2Proof.Machine.execIsCellUndervoltage f s
  | .isPackOvervoltage f => Sys2Proof.Machine.execIsPackOvervoltage f s
  | .isPackUndervoltage f => Sys2Proof.Machine.execIsPackUndervoltage f s
  | .isChargeOvertemp f => Sys2Proof.Machine.execIsChargeOvertemp f s
  | .isChargeUndertemp f => Sys2Proof.Machine.execIsChargeUndertemp f s
  | .isDischargeOvertemp f => Sys2Proof.Machine.execIsDischargeOvertemp f s
  | .isDischargeUndertemp f => Sys2Proof.Machine.execIsDischargeUndertemp f s
  | .isChargeOvercurrent f => Sys2Proof.Machine.execIsChargeOvercurrent f s
  | .isDischargeOvercurrent f => Sys2Proof.Machine.execIsDischargeOvercurrent f s
  | .isShortCircuit f => Sys2Proof.Machine.execIsShortCircuit f s
  | .isIcError f => Sys2Proof.Machine.execIsIcError f s
  | .isSoftwareLock f => Sys2Proof.Machine.execIsSoftwareLock f s

end Sys2Proof.Machine
end

