-- ==== Sys2Proof/Machine/Step.lean ====
section
/-! DEFINITION. The step: in IDLE the host issues its next request, which is fetched, decoded and run; in any other
phase the command in progress goes on (10_state.md R21, R24, R39). How a program comes to run is
notes/assumptions/2.md. -/

namespace Sys2Proof.Machine

/-- The refusal of a request that names no operation (R94, R12). -/
def refusalOf : DecodeError → Refusal
  | .emptyRequest => .malformedRequest
  | .unassignedSelector sel => .unassignedSelector sel
  | .malformedOperands _ => .malformedRequest

/-- The machine after the host's next request has been taken from its list. -/
def State.withRequests (s : State) (requests : List (List Byte)) : State :=
  { s with host := { s.host with requests := requests } }

/-- One step. In IDLE with no request the block does nothing (R24, R260) and the environment moves once: bytes that
arrive are only queued (R242). A request that names no operation is refused as such whether or not the block is opened:
of the two grounds for refusing it before OPEN, which is named is DESIGN CHOICE (notes/assumptions/21.md, safe). -/
def step (s : State) : Host.Outcome State Fault Refusal :=
  if s.phase = .idle then
    match s.host.requests with
    | [] => .next s.envMove
    | request :: later =>
      match decode s.params.opSel request with
      | .error e => .refused (refusalOf e)
      | .ok i => exec i (s.withRequests later)
  else s.proceed

/-- The table word's request as the host's next one, in IDLE, where the step fetches it, and OPENED set, without which
every operation but OPEN is turned away at its issue (93 U14; notes/assumptions/2.md). -/
def State.withFetchWord (s : State) (nbits w : Nat) : State :=
  { s.withRequests (tableRequest nbits w :: s.host.requests) with
    phase := .idle
    cfg := { s.cfg with opened := true } }

end Sys2Proof.Machine
end

