-- ==== Sys2Proof/Safety.lean ====
section
/-! DEFINITION. What counts as a sane machine, and the words the claims are stated in: the invariant of every
reachable state, the table of phase transitions (43_transport.md R161), the events of a command (10_state.md R37), the
environment that lets a command complete, and the parser of 42_framecodec.md R142 written with indices as the spec
writes it. -/

namespace Sys2Proof.Safety

open Sys2Proof.Machine

/-! The invariant. -/

/-- The phases in which the line is at the transmit level (R29, R267). -/
def transmitPhase : Phase → Bool
  | .transmitting => true
  | .flush => true
  | .directionSwitch => true
  | _ => false

/-- Every listed address of a buffer lies inside it (R66). -/
abbrev InBounds (m : Memory) (size : Nat) : Prop := ∀ c ∈ m, c.1 < size

/-- A sane state: what every state reachable from reset satisfies. -/
structure Sane (s : State) : Prop where
  /-- the parameters are legal (R6, D10) -/
  params : s.params.wf
  /-- the buffers are in canonical form -/
  canonical : ∀ sp, (s.buf.get sp).wf = true
  /-- no buffer holds a byte outside its bounds (R50, R66) -/
  inBounds : ∀ sp, InBounds (s.buf.get sp) (sp.size s.params)
  /-- a command is in progress only after OPEN (R161) -/
  opened : s.phase ≠ .idle → s.cfg.opened = true
  /-- the line is at the receive level outside the transmit phases (R267) -/
  lineAtRest : s.cfg.opened = true → s.cfg.dirPresent = true → transmitPhase s.phase = false →
    s.dirLevel = !s.params.dirTxLevel
  /-- and at the transmit level inside them -/
  lineDriven : s.cfg.dirPresent = true → transmitPhase s.phase = true → s.dirLevel = s.params.dirTxLevel
  /-- outside FLUSH every accepted byte has left the transmitter (R57, R266) -/
  drained : s.phase ≠ .flush → s.line.txq = []
  /-- OP_PLEN is the length of the latched payload (R22) -/
  plen : s.op.payload.length = s.op.plen.toNat
  /-- OP_CAP fits the receive buffer (R52) -/
  cap : s.op.cap ≤ s.params.rxbufSize
  /-- TXLEN fits TXBUF (R51) -/
  txLen : s.seq.txLen ≤ Config.TXBUF_SIZE
  /-- the payload is read only when it is not empty and fits (R169) -/
  payloadFits : s.phase = .receivingPayload → 0 < s.res.len.toNat ∧ s.res.len.toNat ≤ s.op.cap
  /-- after the header every declared length that goes on fits (R169) -/
  lengthFits : s.phase = .receivingTrailer ∨ s.phase = .validating ∨ (s.phase = .stamp ∧ s.res.err = .ok) →
    s.res.len.toNat ≤ s.op.cap
  /-- t0 is remembered only while WAIT is held, and only when the spacing had not elapsed (R164) -/
  waiting : ∀ t0, s.seq.waitStart = some t0 → s.phase = .wait ∧ sub32 t0 s.lastDone < s.cfg.cmdDelayMs
  /-- GET_HARDWARE runs with the capacity CAP_HARDWARE (R199) -/
  hardwareCap : s.phase ≠ .idle → s.seq.pending = .getHardware → s.op.cap = s.params.capHardware
  /-- ST_TEMP has NTC_MAX slots (R31) -/
  temps : s.records.status.temps.length = s.params.ntcMax
  /-- CELL has 32 slots (R32) -/
  cells : s.records.cells.length = Config.CELLS_MAX
  /-- HWID has CAP_HARDWARE slots (R33) -/
  hwid : s.records.hwid.length = s.params.capHardware
  /-- HWID_LEN counts slots of HWID (R200) -/
  hwidLen : s.records.hwidLen ≤ s.params.capHardware

/-- The phases in which a command can be held (R179), and IDLE. -/
def restingPhase : Phase → Bool
  | .idle => true
  | .wait => true
  | .transmitting => true
  | .flush => true
  | .receivingHeader => true
  | .receivingPayload => true
  | .receivingTrailer => true
  | _ => false

/-- The block can take a command: in IDLE and opened (R161 first row). -/
abbrev Ready (s : State) : Prop := s.phase = .idle ∧ s.cfg.opened = true

/-! Events (R37). -/

/-- The DIR event of a drive, if there is a direction line (R55). -/
def dirEvents (s : State) (level : Bool) : List Event := if s.cfg.dirPresent then [.dir level] else []

/-- The events up to and including DIRECTION_SWITCH: DIR(tx), TX(frame, n), FLUSH, DIR(rx). -/
def sendEvents (s : State) (frame : List Byte) (n : Nat) : List Event :=
  dirEvents s s.params.dirTxLevel ++ [.tx frame n, .flush] ++ dirEvents s (!s.params.dirTxLevel)

/-- The RX events of a response that was read in full: header, payload if there is one, trailer. -/
def receiveEvents (header payload trailer : List Byte) : List Event :=
  [.rx header] ++ (if payload = [] then [] else [.rx payload]) ++ [.rx trailer]

/-- The bytes of the RX events, in order. -/
def rxBytes : List Event → List Byte
  | [] => []
  | .rx bs :: es => bs ++ rxBytes es
  | _ :: es => rxBytes es

/-- The bytes the stream accepted, in order. -/
def txBytes : List Event → List Byte
  | [] => []
  | .tx frame n :: es => frame.take n ++ txBytes es
  | _ :: es => txBytes es

/-- Whether an event is a STAMP. -/
def isStamp : Event → Bool
  | .stamp _ => true
  | _ => false

/-- Whether an event is an RX. -/
def isRx : Event → Bool
  | .rx _ => true
  | _ => false

/-- The level of the last DIR event, if there is one. -/
def lastDir : List Event → Option Bool
  | [] => none
  | .dir level :: es => some ((lastDir es).getD level)
  | _ :: es => lastDir es

/-! Frames. -/

/-- The request frame of R80: the checksum bytes are those of the two's-complement sum (R110). -/
def requestFrame (dir cmd : Byte) (payload : List Byte) : List Byte :=
  [Config.START, dir, cmd, BitVec.ofNat 8 payload.length] ++ payload ++
    [hi8 (neg16 (checksumSum cmd payload.length payload)), lo8 (neg16 (checksumSum cmd payload.length payload)),
      Config.STOP]

/-- The trailer of a response with the matching checksum (R81). -/
def responseTrailer (code : Byte) (payload : List Byte) : List Byte :=
  [hi8 (neg16 (checksumSum code payload.length payload)), lo8 (neg16 (checksumSum code payload.length payload)),
    Config.STOP]

/-- The header of a response (R81). -/
def responseHeader (echo code : Byte) (payload : List Byte) : List Byte :=
  [Config.START, echo, code, BitVec.ofNat 8 payload.length]

/-- A response frame with a matching checksum (R81, R149). -/
def responseFrame (echo code : Byte) (payload : List Byte) : List Byte :=
  responseHeader echo code payload ++ payload ++ responseTrailer code payload

/-- DECODE_RESPONSE as R142 writes it, byte s[i] by index, line by line, with CHK_OK's new value if CHECKSUM is
reached. -/
def decodeByIndex (s : List Byte) : DecodeResult × Option Bool :=
  let at_ := fun i => s.getD i 0
  let len := (at_ 3).toNat
  if s.length = 0 then (.protocol .protoShortRead, none)
  else if at_ 0 ≠ 0xDD then (.protocol .protoBadStart, none)
  else if s.length < 4 then (.protocol .protoShortRead, none)
  else if 64 < len then (.protocol .protoOversize, none)
  else if 0 < len ∧ s.length < 4 + len then (.protocol .protoShortRead, none)
  else if s.length < 7 + len then (.protocol .protoShortRead, none)
  else
    match checksum (at_ 2) len (some ((s.drop 4).take len)) with
    | none => (.protocol .protoChecksum, some false)
    | some c =>
      if be16 (at_ (4 + len)) (at_ (5 + len)) ≠ c then (.protocol .protoChecksum, some true)
      else if at_ (6 + len) ≠ 0x77 then (.protocol .protoBadStop, some true)
      else if at_ 2 ≠ 0x00 then (.device (at_ 2), some true)
      else (.ok (at_ 1) (at_ 2) ((s.drop 4).take len), some true)

/-! The environment of a command. -/

/-- The spacing has elapsed when WAIT reads the clock (R164), so that WAIT does not hold. -/
abbrev SpacingElapsed (s : State) : Prop := s.cfg.cmdDelayMs ≤ sub32 s.now.line.clock s.lastDone

/-- An environment that lets a command of a `sent`-byte request pass: the first move falls to WAIT's clock reading,
the second answers the write with `accepted` bytes, the third empties the transmit queue, and by then the receive
queue begins with `arrived`. That the environment makes a move at these moments is the model's form of it
(notes/assumptions/4.md). -/
structure Serves (s : State) (sent accepted : Nat) (arrived : List Byte) (m₀ m₁ m₂ : EnvMove)
    (later : List EnvMove) : Prop where
  script : s.script = m₀ :: m₁ :: m₂ :: later
  spacing : SpacingElapsed s
  accepts : m₁.accept = some accepted
  drains : s.line.txq.length + sent ≤ m₂.drain
  arrives : arrived <+: s.line.rxq ++ m₀.arrive ++ m₁.arrive ++ m₂.arrive

/-- A command that ended with the response (echo, code, payload) read in full and its stop and checksum good: the
registers, the line, the history and the buffers, and what it left alone. That the bytes of TXBUF and RXBUF beyond what
was written keep what they held is the model's reading (notes/assumptions/15.md). The record registers, the free-value counter
and the value returned are stated beside it. -/
structure Answered (s t : State) (dir cmd : Byte) (request : List Byte) (cap : Nat) (echo code : Byte)
    (payload : List Byte) (reason : ErrorReason) : Prop where
  phase : t.phase = .idle
  results : t.res = { echo := echo, code := code, len := BitVec.ofNat 8 payload.length, err := reason }
  chkOk : t.chkOk = true
  operands : t.op =
    { dir := dir, cmd := cmd, plen := BitVec.ofNat 8 request.length, payload := request, cap := cap }
  txLen : t.seq.txLen = 7 + request.length
  txCount : t.seq.txCount = 7 + request.length
  params : t.params = s.params
  cfg : t.cfg = s.cfg
  stamped : t.lastDone = t.line.clock
  dirLevel : t.dirLevel = if s.cfg.dirPresent then !s.params.dirTxLevel else s.dirLevel
  history : t.history = s.history ++ sendEvents s (requestFrame dir cmd request) (7 + request.length) ++
    receiveEvents (responseHeader echo code payload) payload (responseTrailer code payload) ++ [.stamp t.lastDone]
  txbuf : t.memRead .txbuf 0 (7 + request.length) = some (requestFrame dir cmd request)
  txbufRest : ∀ a, 7 + request.length ≤ a → t.buf.txbuf.read a = s.buf.txbuf.read a
  rxhdr : t.memRead .rxhdr 0 4 = some (responseHeader echo code payload)
  rxbuf : t.memRead .rxbuf 0 payload.length = some payload
  rxbufRest : ∀ a, payload.length ≤ a → t.buf.rxbuf.read a = s.buf.rxbuf.read a
  rxtrl : t.memRead .rxtrl 0 3 = some (responseTrailer code payload)
  requests : t.host.requests = s.host.requests

/-! Commands and pure operations. -/

/-- What a command latches at issue: its record decoder and the operands of EXECUTE. -/
structure Issue where
  command : Command
  dir : Byte
  cmd : Byte
  payload : List Byte
  cap : Nat
  deriving DecidableEq, Repr

/-- The commands and their expansions to EXECUTE (R98), operands inside their types (R162, R52). `none`: no command,
or an operand outside its type. -/
def commandIssue (s : State) : Instr → Option Issue
  | .execute dir cmd payload cap =>
    if (dir = 0xA5 ∨ dir = 0x5A) ∧ payload.length ≤ 255 ∧ cap.toNat ≤ 64 ∧ cap.toNat ≤ s.params.rxbufSize then
      some ⟨.execute, dir, cmd, payload, cap.toNat⟩
    else none
  | .getStatus => some ⟨.getStatus, 0xA5, 0x03, [], s.params.capStatus⟩
  | .getCells => some ⟨.getCells, 0xA5, 0x04, [], s.params.capCells⟩
  | .getHardware => some ⟨.getHardware, 0xA5, 0x05, [], s.params.capHardware⟩
  | .setMosfet mask => some ⟨.setMosfet, 0x5A, 0xE1, [0x00, zext8 (maskBits s.params.mosfetEnc mask)], s.params.capMosfet⟩
  | _ => none

/-- The operations that touch neither the stream nor the configuration (R243). -/
def isPure : Instr → Bool
  | .openDriver _ _ => false
  | .execute _ _ _ _ => false
  | .getStatus => false
  | .getCells => false
  | .getHardware => false
  | .setMosfet _ => false
  | _ => true

/-- The pure operations with a CHECKSUM evaluation inside (R110, R140, R142). -/
def usesChecksum : Instr → Bool
  | .checksum _ _ _ => true
  | .encodeRequest _ _ _ => true
  | .decodeResponse _ => true
  | _ => false

/-- OPSEL's assigned values by default (R94, first column). -/
def assignedSelectors : List Byte :=
  [0x01, 0x02, 0x10, 0x11, 0x12, 0x13, 0x20, 0x21, 0x22, 0x23, 0x24, 0x25, 0x26] ++
    [0x30, 0x31, 0x32, 0x33, 0x34, 0x35, 0x36, 0x37, 0x38, 0x39, 0x3A, 0x3B, 0x3C]

/-- The state an operation leaves that returns `r` and changes nothing else. -/
def returning (s : State) (r : OpResult) : State := { s with host := { s.host with result := r } }

/-- A move of an environment in which every command completes (R278): the clock advances, the write is answered, the
queue drains, and the stream's timeout expires. -/
abbrev Helpful (m : EnvMove) : Prop :=
  m.elapse = 1 ∧ m.accept.isSome = true ∧ Config.TXBUF_SIZE ≤ m.drain ∧ m.timeout = true

/-- The same configuration, time stamp and environment before a command: all R38 lets it depend on (and the
parameters, and the model's counter of free values). -/
structure SameStart (s s' : State) : Prop where
  phase : s'.phase = s.phase
  params : s'.params = s.params
  cfg : s'.cfg = s.cfg
  lastDone : s'.lastDone = s.lastDone
  line : s'.line = s.line
  script : s'.script = s.script
  draws : s'.draws = s.draws
  canonical : ∀ sp, (s.buf.get sp).wf = true
  canonical' : ∀ sp, (s'.buf.get sp).wf = true

/-- The same outcome of a command for the host, the bus and the next command. -/
structure SameOutcome (s s' t t' : State) : Prop where
  phase : t'.phase = t.phase
  lastDone : t'.lastDone = t.lastDone
  line : t'.line = t.line
  script : t'.script = t.script
  op : t'.op = t.op
  chkOk : t'.chkOk = t.chkOk
  draws : t'.draws = t.draws
  result : t'.host.result = t.host.result
  reason : t.phase = .idle → t'.res.err = t.res.err
  results : t.phase = .idle → t.res.err = .ok →
    t'.res = t.res ∧ t'.buf.rxbuf.readRange 0 t.res.len.toNat = t.buf.rxbuf.readRange 0 t.res.len.toNat
  events : ∃ es, t.history = s.history ++ es ∧ t'.history = s'.history ++ es

/-! The end of a command and of its wait (R164, R190). -/

/-- The spacing has elapsed in `t`, WAIT entered or taken up again in `s` (R164): from t0, the clock sampled on
entering, it has advanced by at least what was missing. -/
def spacingMet (s t : State) (t0 : Millis) : Prop :=
  (s.seq.waitStart = some t0 ∨ (s.seq.waitStart = none ∧ t0 = s.now.line.clock)) ∧
    (sub32 t0 s.lastDone < s.cfg.cmdDelayMs →
      s.cfg.cmdDelayMs - sub32 t0 s.lastDone ≤ sub32 t.line.clock t0)

/-- What a command that ended DONE returns (R173, R191, R196, R199, R201), from the return code and the validated
payload. -/
def doneResult (s : State) (c : Command) (code : Byte) (payload : List Byte) : OpResult :=
  match c with
  | .execute => .executed code payload
  | .getStatus => .status (decodeStatus s.params payload s.draws)
  | .getCells => .cells ((decodeCells payload s.draws).take (min 32 (payload.length / 2)))
  | .getHardware => .hardware payload
  | .setMosfet => .mosfetSet

/-- The record registers after a command that ended DONE (R190 to R200): its own are the decode of the payload. -/
def recordsAfter (s : State) (c : Command) (payload : List Byte) : Records :=
  match c with
  | .execute => s.records
  | .getStatus => { s.records with status := decodeStatus s.params payload s.draws }
  | .getCells => { s.records with cells := decodeCells payload s.draws }
  | .getHardware =>
    { s.records with hwid := decodeHardware s.params payload s.draws, hwidLen := payload.length }
  | .setMosfet => s.records

/-! The transition table (R161). -/

/-- R161's rows below the first: from, to, condition, events, writes, and in the last row the outcome. `t` is the state
after the transition; the operand, configuration and parameter registers never change in one. -/
def tableRow (s t : State) : Prop :=
  match s.phase, t.phase with
  | .encoding, .wait => ∃ frame, encodeFrame s.op.dir s.op.cmd s.op.payload = some frame ∧
      t.memRead .txbuf 0 frame.length = some frame ∧ t.seq.txLen = frame.length ∧ t.history = s.history
  | .encoding, .stamp => encodeFrame s.op.dir s.op.cmd s.op.payload = none ∧
      t.res = { s.res with err := .encPayloadTooLong } ∧ t.history = s.history
  | .wait, .txEnable => (∃ t0, spacingMet s t t0) ∧ t.history = s.history
  | .txEnable, .transmitting => t.history = s.history ++ dirEvents s s.params.dirTxLevel
  | .transmitting, .flush => ∃ frame, s.memRead .txbuf 0 s.seq.txLen = some frame ∧
      t.seq.txCount ≤ frame.length ∧ t.history = s.history ++ [.tx frame t.seq.txCount]
  | .flush, .directionSwitch => t.line.txq = [] ∧ t.history = s.history ++ [.flush]
  | .directionSwitch, .receivingHeader => s.seq.txCount = s.seq.txLen ∧
      t.history = s.history ++ dirEvents s (!s.params.dirTxLevel)
  | .directionSwitch, .stamp => s.seq.txCount ≠ s.seq.txLen ∧
      t.res = { s.res with err := .ioShortWrite } ∧
      t.history = s.history ++ dirEvents s (!s.params.dirTxLevel)
  | .receivingHeader, .receivingPayload => ∃ start, 0 < t.res.len.toNat ∧ t.res.len.toNat ≤ s.op.cap ∧
      t.history = s.history ++ [.rx [start, t.res.echo, t.res.code, t.res.len]]
  | .receivingHeader, .receivingTrailer => ∃ start, t.res.len = 0 ∧
      t.history = s.history ++ [.rx [start, t.res.echo, t.res.code, t.res.len]]
  | .receivingHeader, .stamp =>
      (t.res = { s.res with err := .ioShortReadHeader } ∧
        ∃ h, h.length < 4 ∧ t.history = s.history ++ [.rx h]) ∨
      (t.res.err = .ioBufferTooSmall ∧ s.op.cap < t.res.len.toNat ∧
        ∃ start, t.history = s.history ++ [.rx [start, t.res.echo, t.res.code, t.res.len]])
  | .receivingPayload, .receivingTrailer => ∃ p, p.length = s.res.len.toNat ∧
      t.history = s.history ++ [.rx p] ∧ t.memRead .rxbuf 0 p.length = some p
  | .receivingPayload, .stamp => t.res = { s.res with err := .ioShortReadPayload } ∧
      ∃ p, p.length < s.res.len.toNat ∧ t.history = s.history ++ [.rx p]
  | .receivingTrailer, .validating => ∃ tr, tr.length = 3 ∧ t.history = s.history ++ [.rx tr] ∧
      t.memRead .rxtrl 0 3 = some tr
  | .receivingTrailer, .stamp => t.res = { s.res with err := .ioShortReadTrailer } ∧
      ∃ tr, tr.length < 3 ∧ t.history = s.history ++ [.rx tr]
  | .validating, .stamp => t.history = s.history ∧
      ∃ bytes, s.response = some bytes ∧ t.res = { s.res with err := (parseResponse bytes).result.reason }
  | .stamp, .idle => t.history = s.history ++ [.stamp t.lastDone] ∧ t.lastDone = t.line.clock ∧
      t.res = s.res ∧
      if s.res.err = .ok then
        t.host.result = doneResult s s.seq.pending s.res.code (s.buf.rxbuf.readRange 0 s.res.len.toNat) ∧
        t.records = recordsAfter s s.seq.pending (s.buf.rxbuf.readRange 0 s.res.len.toNat)
      else t.host.result = .failed s.res.err ∧ t.records = s.records
  | _, _ => False

end Sys2Proof.Safety
end

