-- ==== Sys2Proof/Certificates/Slice0/Obligations.lean ====
section
/-! DEFINITION. The statements for the provers. Each docstring names the rules of spec/ it rests on, and the log entry
of anything in it that is the model's own choice. -/

section

open Sys2Proof Sys2Proof.Machine Sys2Proof.Safety

/-! Requests and selectors (30_encoding.md). -/

/-- Every operation is read back from its request with every operand at every value, whatever legal selectors the
parameter OPSEL gives (R6, R94; the operand bytes are the model's, notes/assumptions/1.md, and what a legal table of
selectors is, 8.md). -/
def Obligations.RequestRoundTrip : Prop :=
  ∀ (t : Config.OpSel) (i : Instr), t.wf → decode t (encode t i) = .ok i

/-- A request has one meaning: only the encoding of an operation decodes to it, whatever the selectors are
(notes/assumptions/1.md). -/
def Obligations.RequestMeaningIsUnique : Prop :=
  ∀ (t : Config.OpSel) (bytes : List Byte) (i : Instr), decode t bytes = .ok i → encode t i = bytes

/-- Requests written out from R94's selectors, OPSEL's default, name the operations they should. -/
def Obligations.SelectorsNameTheirOperations : Prop :=
  let std := Config.defaultOpSel
  decode std [0x01, 1, 0, 0, 0x01, 0xF4] = .ok (.openDriver true 500) ∧
  decode std [0x02, 0x5A, 0xE1, 0, 0x00, 0x03] = .ok (.execute 0x5A 0xE1 [0, 3] 0) ∧
  decode std [0x10] = .ok .getStatus ∧
  decode std [0x13, 2] = .ok (.setMosfet .discharge) ∧
  decode std [0x20, 0x10, 3, 1, 1, 2, 3] = .ok (.checksum 0x10 3 (some [1, 2, 3])) ∧
  decode std [0x22, 0xFF, 0xFD] = .ok (.toWireOrder 0xFFFD) ∧
  decode std [0x26, 0xDD, 0x03] = .ok (.decodeResponse [0xDD, 0x03]) ∧
  decode std [0x3C, 0x10, 0x00] = .ok (.isSoftwareLock 0x1000)

/-- "Every other OPSEL value is unassigned; issuing it is refused" (R94, R96, R12), whatever OPSEL is; by default the
assigned values are R94's. That this refusal is the one named before OPEN too is the model's choice
(notes/assumptions/21.md). -/
def Obligations.UnassignedSelectorIsRefused : Prop :=
  (∀ (s : State) (sel : Byte) (operands : List Byte) (later : List (List Byte)),
    s.phase = .idle → s.host.requests = (sel :: operands) :: later → sel ∉ s.params.opSel.values →
    step s = .refused (.unassignedSelector sel)) ∧
  Config.defaultOpSel.values = assignedSelectors

/-- A step in IDLE runs the operation its next request names; the request leaves the host's list
(notes/assumptions/2.md). -/
def Obligations.StepRunsTheDecodedOperation : Prop :=
  ∀ (s : State) (request : List Byte) (later : List (List Byte)) (i : Instr),
    s.phase = .idle → s.host.requests = request :: later → decode s.params.opSel request = .ok i →
    step s = exec i { s with host := { s.host with requests := later } }

/-- A step after withFetchWord runs the operation that word stands for, in IDLE and after OPEN
(notes/assumptions/2.md). -/
def Obligations.FetchedWordRunsNext : Prop :=
  ∀ (s : State) (nbits w : Nat) (i : Instr), s.params.opSel = Config.defaultOpSel →
    decodeTableWord nbits w = some i →
    step (s.withFetchWord nbits w) = exec i { s with phase := .idle, cfg := { s.cfg with opened := true } }

/-- R95: how a bus monitor reads a request frame. W is the word of the first four bytes (R80). -/
def Obligations.BusMonitorReadsRequests : Prop :=
  (∀ (start dir cmd len : Byte) (payload : List Byte) (w : BitVec 32),
    w.toNat = start.toNat * 2 ^ 24 + dir.toNat * 2 ^ 16 + cmd.toNat * 2 ^ 8 + len.toNat →
    readBus (start :: dir :: cmd :: len :: payload) = busRequest w payload ∧
    (start ≠ 0xDD → busRequest w payload = .notAFrame)) ∧
  (∀ payload : List Byte, busRequest 0xDDA50300 payload = .getStatus ∧ busRequest 0xDDA50400 payload = .getCells ∧
    busRequest 0xDDA50500 payload = .getHardware) ∧
  (∀ (mask : Byte) (rest : List Byte), busRequest 0xDD5AE102 (0x00 :: mask :: rest) = .setMosfet mask) ∧
  ∀ (dir cmd len : Byte) (payload : List Byte), dir = 0xA5 ∨ dir = 0x5A →
    ¬ (dir = 0xA5 ∧ (cmd = 0x03 ∨ cmd = 0x04 ∨ cmd = 0x05) ∧ len = 0) →
    ¬ (dir = 0x5A ∧ cmd = 0xE1 ∧ len = 2) →
    readBus (0xDD :: dir :: cmd :: len :: payload) = .generic dir cmd len

/-! The checksum engine (40_checksum.md). -/

/-- R110: CHECKSUM's two outputs and CHK_OK, for every operand inside its type, and the refusal of data of another
length. The value is the number (R111, C9; its wire form is hi8, lo8). That a rejection clears CHK_OK and leaves the
value open is the spec's decision D4, the refusal its decision D30; the counter of free values is the model's
(notes/assumptions/17.md). -/
def Obligations.ChecksumReturnsNegatedSum : Prop :=
  ∀ (s : State) (byte length : Byte) (data : Option (List Byte)), Ready s →
    ((∀ d ∈ data, d.length = length.toNat) →
      if 31 ≤ length.toNat ∨ (0 < length.toNat ∧ data = none) then
        ∃ value draws, exec (.checksum byte length data) s =
          .next (returning { s with chkOk := false, draws := draws } (.checksum false value))
      else exec (.checksum byte length data) s =
        .next (returning { s with chkOk := true } (.checksum true
          (BitVec.ofNat 16
            ((65536 - (byte.toNat + length.toNat + byteSum (data.getD [])) % 65536) % 65536))))) ∧
    ((∃ d ∈ data, d.length ≠ length.toNat) → exec (.checksum byte length data) s = .refused .dataLength)

/-- R112: the sum stays at or below 7935, a frame with its checksum sums to zero, the range of the value, and the order
of the data does not matter. -/
def Obligations.ChecksumCancelsTheSum : Prop :=
  ∀ (byte : Byte) (data : List Byte) (v : Word), checksum byte data.length (some data) = some v →
    byte.toNat + data.length + byteSum data ≤ 7935 ∧
    (byte.toNat + data.length + byteSum data + v.toNat) % 65536 = 0 ∧
    (v = 0 ↔ byte.toNat + data.length + byteSum data = 0) ∧ (v ≠ 0 → 57601 ≤ v.toNat) ∧
    ∀ data' : List Byte, data'.Perm data → checksum byte data'.length (some data') = some v

/-- R115: one changed byte under the checksum changes it: the seed, a data byte, or the length as a summand. -/
def Obligations.ChecksumDetectsOneChangedByte : Prop :=
  (∀ (byte x y : Byte) (before after : List Byte), before.length + after.length < 30 → x ≠ y →
    checksum byte (before ++ x :: after).length (some (before ++ x :: after)) ≠
      checksum byte (before ++ y :: after).length (some (before ++ y :: after))) ∧
  (∀ (byte byte' : Byte) (data : List Byte), data.length ≤ 30 → byte ≠ byte' →
    checksum byte data.length (some data) ≠ checksum byte' data.length (some data)) ∧
  (∀ (byte : Byte) (data : List Byte) (n m : Nat), data.length ≤ n → n < m → m ≤ 255 →
    neg16 (checksumSum byte n data) ≠ neg16 (checksumSum byte m data))

/-! The wire codec (41_wirecodec.md). -/

/-- R120 and R121: both operations return the word with its two bytes exchanged and change nothing else. -/
def Obligations.SwapExchangesTheBytes : Prop :=
  ∀ (s : State) (v : Word), Ready s →
    exec (.toHostOrder v) s = .next (returning s (.word (be16 (lo8 v) (hi8 v)))) ∧
    exec (.toWireOrder v) s = .next (returning s (.word (be16 (lo8 v) (hi8 v))))

/-- R124: year, month and day, for every word, and nothing else changed. That nothing is validated is the spec's
decision D24; the type of the result is the model's (notes/assumptions/26.md). -/
def Obligations.DecodeDateCutsTheFields : Prop :=
  ∀ (s : State) (v : Word), Ready s →
    exec (.decodeDate v) s =
      .next (returning s (.date (2000 + v.toNat / 512) (v.toNat / 32 % 16) (v.toNat % 32)))

/-- R125: the subtraction is exact for every word: no input wraps. That the result is wide enough is the spec's
decision D24, the integer result the model's (notes/assumptions/26.md). -/
def Obligations.DecodeTemperatureIsExact : Prop :=
  ∀ (s : State) (raw : Word), Ready s →
    exec (.decodeTemperature raw) s = .next (returning s (.temperature ((raw.toNat : Int) - 2731)))

/-! The frame codec (42_framecodec.md). -/

/-- R140 and R141: the frame for up to 30 payload bytes, the error from 31 on, CHK_OK in both cases. -/
def Obligations.EncodeRequestBuildsTheFrame : Prop :=
  ∀ (s : State) (dir cmd : Byte) (payload : List Byte), Ready s → dir = 0xA5 ∨ dir = 0x5A →
    payload.length ≤ 255 →
    exec (.encodeRequest dir cmd payload) s =
      if payload.length ≤ 30 then .next (returning { s with chkOk := true } (.frame (requestFrame dir cmd payload)))
      else .next (returning { s with chkOk := false } (.failed .encPayloadTooLong))

/-- R142: DECODE_RESPONSE is the function R142 writes line by line, for every byte sequence; three of its lines are the
spec's own completion of the source's checks (its mark D9). -/
def Obligations.DecodeResponseFollowsTheChecks : Prop :=
  ∀ (s : State) (bytes : List Byte), Ready s →
    exec (.decodeResponse bytes) s =
      .next (returning { s with chkOk := (decodeByIndex bytes).2.getD s.chkOk }
        (responseResult (decodeByIndex bytes).1))

/-- R149, in the form R149 derives from R142: a response framed with a matching checksum is read back. CHK_OK is R142's
(notes/assumptions/23.md). -/
def Obligations.ResponseRoundTrips : Prop :=
  ∀ (s : State) (echo : Byte) (payload : List Byte), Ready s → payload.length ≤ 30 →
    exec (.decodeResponse (responseFrame echo 0x00 payload)) s =
      .next (returning { s with chkOk := true } (.response echo 0x00 payload))

/-- R150: what one flipped bit of a valid response does, by the byte it is in. The row of a length made smaller is not
here: it depends on the payload. -/
def Obligations.OneFlippedBitIsReported : Prop :=
  ∀ (echo : Byte) (payload : List Byte) (i k : Nat), payload.length ≤ 30 → i < 7 + payload.length → k < 8 →
    let frame := responseFrame echo 0x00 payload
    let flipped := (frame.getD i 0) ^^^ ((1 : Byte) <<< k)
    let result := (parseResponse (frame.set i flipped)).result
    (i = 0 → result = .protocol .protoBadStart) ∧
    (i = 1 → result = .ok flipped 0x00 payload) ∧
    (i = 2 → result = .protocol .protoChecksum) ∧
    (i = 3 → payload.length < flipped.toNat →
      result = if 64 < flipped.toNat then .protocol .protoOversize else .protocol .protoShortRead) ∧
    (4 ≤ i → i < 6 + payload.length → result = .protocol .protoChecksum) ∧
    (i = 6 + payload.length → result = .protocol .protoBadStop)

/-- R151: a request frame read as a response is a device error with the command as its code (bus echo, R271). -/
def Obligations.RequestParsesAsDeviceError : Prop :=
  ∀ (s : State) (dir cmd : Byte) (payload : List Byte), Ready s → payload.length ≤ 30 → cmd ≠ 0 →
    exec (.decodeResponse (requestFrame dir cmd payload)) s =
      .next (returning { s with chkOk := true } (.deviceError cmd))

/-- R145, R143 and R268: a complete frame of declared length 31 to 64 is never accepted, and a longer one is oversized,
whatever its other bytes are. -/
def Obligations.LongResponsesNeverPass : Prop :=
  ∀ (echo code len : Byte) (rest : List Byte),
    (31 ≤ len.toNat → len.toNat ≤ 64 → len.toNat + 3 ≤ rest.length →
      (parseResponse (0xDD :: echo :: code :: len :: rest)).result = .protocol .protoChecksum) ∧
    (65 ≤ len.toNat → (parseResponse (0xDD :: echo :: code :: len :: rest)).result = .protocol .protoOversize)

/-! OPEN, refusals, reset (43_transport.md, 60_exceptions.md, 70_reset_and_hazards.md). -/

/-- R160: OPEN latches its two arguments, drives the line to receive if there is one, and sets OPENED (all but the
latching is the spec's decision D11). -/
def Obligations.OpenLatchesTheConfiguration : Prop :=
  ∀ (s : State) (dirPresent : Bool) (delayMs : Millis),
    (s.phase = .idle → exec (.openDriver dirPresent delayMs) s =
      .next (returning
        { s with
          cfg := { opened := true, dirPresent := dirPresent, cmdDelayMs := delayMs }
          dirLevel := if dirPresent then !s.params.dirTxLevel else s.dirLevel
          history := s.history ++ if dirPresent then [.dir (!s.params.dirTxLevel)] else [] } .opened)) ∧
    (s.phase ≠ .idle → exec (.openDriver dirPresent delayMs) s = .refused .busy)

/-- R39 and R244: no operation is taken while a command is in progress, whatever its operands are and before OPEN too.
That busy is the refusal named where another ground holds as well is the model's choice (notes/assumptions/21.md). -/
def Obligations.BusyBlockRefusesEveryOperation : Prop :=
  ∀ (i : Instr) (s : State), s.phase ≠ .idle → exec i s = .refused .busy

/-- R30, R162, R244 and U14: before OPEN no operation but OPEN is taken, command or pure operation, whatever its
operands are. Which refusal is named first is the model's choice (notes/assumptions/21.md). -/
def Obligations.CommandsBeforeOpenAreRefused : Prop :=
  ∀ (i : Instr) (s : State), s.phase = .idle → s.cfg.opened = false →
    (∀ dirPresent delayMs, i ≠ .openDriver dirPresent delayMs) → exec i s = .refused .notOpen

/-- R162, R140, R244: EXECUTE and ENCODE_REQUEST with an operand outside its type are refused. Which refusal is named
first is the model's choice (notes/assumptions/21.md), and so is the check against RXBUF_SIZE (28.md). -/
def Obligations.OperandsOutsideTheirTypeAreRefused : Prop :=
  ∀ (s : State) (dir cmd cap : Byte) (payload : List Byte), Ready s →
    (¬ (dir = 0xA5 ∨ dir = 0x5A) → exec (.execute dir cmd payload cap) s = .refused .directionCode ∧
      exec (.encodeRequest dir cmd payload) s = .refused .directionCode) ∧
    (dir = 0xA5 ∨ dir = 0x5A → 255 < payload.length →
      exec (.execute dir cmd payload cap) s = .refused .payloadLength ∧
      exec (.encodeRequest dir cmd payload) s = .refused .payloadLength) ∧
    (dir = 0xA5 ∨ dir = 0x5A → payload.length ≤ 255 → 64 < cap.toNat ∨ s.params.rxbufSize < cap.toNat →
      exec (.execute dir cmd payload cap) s = .refused .capacity)

/-- R34: at power-on the block is in IDLE and not opened. That the rest of the reset state is sane is the model's
(notes/assumptions/7.md, 9.md to 13.md). -/
def Obligations.ResetIsSane : Prop :=
  Sane State.reset ∧ State.reset.phase = .idle ∧ State.reset.cfg.opened = false

/-! The sequencer (43_transport.md). -/

/-- R161: every transition is one of the table's rows, under its condition, with its events and writes; in the last row
with the outcome, DONE with the command's own decode (R190) or FAILED. WAIT's condition is R164's. What the Status
decode gives under a STATUS_LAYOUT other than R193's is the model's (notes/assumptions/31.md, 33.md). -/
def Obligations.TransitionsFollowTheTable : Prop :=
  ∀ s t : State, Sane s → advance s = .moved t →
    tableRow s t ∧ t.op = s.op ∧ t.cfg = s.cfg ∧ t.params = s.params

/-- R164, R175 and R269: WAIT is left only when the clock has advanced by what was missing from the spacing; with less
than one wrap in between, the whole spacing has then passed since the last stamp. -/
def Obligations.WaitEnforcesTheSpacing : Prop :=
  ∀ s t : State, Sane s → s.phase = .wait → advance s = .moved t →
    t.phase = .txEnable ∧ t.lastDone = s.lastDone ∧ t.history = s.history ∧
    ∃ t0, spacingMet s t t0 ∧
      ((sub32 t0 s.lastDone).toNat + (sub32 t.line.clock t0).toNat < 4294967296 →
        s.cfg.cmdDelayMs ≤ sub32 t.line.clock s.lastDone)

/-- R24, R12 and R179: a step ends in IDLE or in a phase in which the sequencer can be held. -/
def Obligations.EveryStepEndsAtRest : Prop :=
  ∀ s t : State, step s = .next t → restingPhase t.phase = true

/-- R179: a command is left in a phase only while that phase's hold is not lifted, and then the environment has no move
left (the last clause is the model's, notes/assumptions/5.md). -/
def Obligations.HoldsAreOnlyWhereAllowed : Prop :=
  ∀ s t : State, step s = .next t → t.phase ≠ .idle → t.script = [] ∧
    match t.phase with
    | .wait => ∃ t0, t.seq.waitStart = some t0 ∧
        sub32 t.line.clock t0 < t.cfg.cmdDelayMs - sub32 t0 t.lastDone
    | .transmitting => True
    | .flush => t.line.txq ≠ []
    | .receivingHeader => t.line.rxq.length < 4
    | .receivingPayload => t.line.rxq.length < t.res.len.toNat
    | .receivingTrailer => t.line.rxq.length < 3
    | _ => False

/-- R12 and R179: a hold that nothing lifts is a hang: the machine stays as it is (notes/assumptions/5.md). -/
def Obligations.UnliftedHoldIsAHang : Prop :=
  ∀ s t : State, step s = .next t → t.phase ≠ .idle → step t = .next t

/-- R58: a read comes up short only on a stream that times out. -/
def Obligations.ShortReadsNeedATimeout : Prop :=
  ∀ s t : State, s.params.streamTimeout = false → advance s = .moved t → t.phase = .stamp →
    t.res.err ≠ .ioShortReadHeader ∧ t.res.err ≠ .ioShortReadPayload ∧ t.res.err ≠ .ioShortReadTrailer

/-! A command from issue to outcome (43_transport.md R162 to R178). -/

/-- R162 to R174: EXECUTE with a served request and a valid response completes. A payload above 30 bytes is
`FullResponseDecidesTheReason`. That bytes of TXBUF and RXBUF that are not written keep what they held is the model's
reading (notes/assumptions/15.md): R51, R52 and U5 call them unspecified. -/
def Obligations.ExecuteCompletes : Prop :=
  ∀ (s : State) (dir cmd : Byte) (request : List Byte) (cap echo code : Byte) (payload : List Byte)
    (accepted : Nat) (m₀ m₁ m₂ : EnvMove) (later : List EnvMove),
    Ready s → (∀ sp, (s.buf.get sp).wf = true) → dir = 0xA5 ∨ dir = 0x5A → request.length ≤ 30 →
    cap.toNat ≤ 64 → cap.toNat ≤ s.params.rxbufSize → payload.length ≤ cap.toNat → payload.length ≤ 30 →
    7 + request.length ≤ accepted →
    Serves s (7 + request.length) accepted (responseFrame echo code payload) m₀ m₁ m₂ later →
    ∃ t, exec (.execute dir cmd request cap) s = .next t ∧
      Answered s t dir cmd request cap.toNat echo code payload (if code = 0 then .ok else .deviceError) ∧
      t.records = s.records ∧ t.draws = s.draws ∧
      t.host.result = if code = 0 then .executed code payload else .failed .deviceError

/-- R191: GET_STATUS with a served request and a valid response completes; the Status registers take the decode of the
payload, or nothing on a device error (R190). That bytes of TXBUF and RXBUF that are not written keep what they held is
the model's reading (notes/assumptions/15.md), and so is what the decode gives under a STATUS_LAYOUT other than R193's
(31.md, 33.md). -/
def Obligations.GetStatusCompletes : Prop :=
  ∀ (s : State) (echo code : Byte) (payload : List Byte) (accepted : Nat) (m₀ m₁ m₂ : EnvMove)
    (later : List EnvMove),
    Ready s → (∀ sp, (s.buf.get sp).wf = true) → s.params.wf → payload.length ≤ s.params.capStatus →
    payload.length ≤ 30 → 7 ≤ accepted → Serves s 7 accepted (responseFrame echo code payload) m₀ m₁ m₂ later →
    ∃ t, exec .getStatus s = .next t ∧
      Answered s t 0xA5 0x03 [] s.params.capStatus echo code payload (if code = 0 then .ok else .deviceError) ∧
      t.records = (if code = 0 then { s.records with status := decodeStatus s.params payload s.draws }
        else s.records) ∧
      t.host.result =
        if code = 0 then .status (decodeStatus s.params payload s.draws) else .failed .deviceError

/-- R196: GET_CELLS with a served request and a valid response completes. That bytes of TXBUF and RXBUF that are not
written keep what they held is the model's reading (notes/assumptions/15.md). -/
def Obligations.GetCellsCompletes : Prop :=
  ∀ (s : State) (echo code : Byte) (payload : List Byte) (accepted : Nat) (m₀ m₁ m₂ : EnvMove)
    (later : List EnvMove),
    Ready s → (∀ sp, (s.buf.get sp).wf = true) → s.params.wf → payload.length ≤ s.params.capCells →
    payload.length ≤ 30 → 7 ≤ accepted → Serves s 7 accepted (responseFrame echo code payload) m₀ m₁ m₂ later →
    ∃ t, exec .getCells s = .next t ∧
      Answered s t 0xA5 0x04 [] s.params.capCells echo code payload (if code = 0 then .ok else .deviceError) ∧
      t.records = (if code = 0 then { s.records with cells := decodeCells payload s.draws } else s.records) ∧
      t.host.result =
        if code = 0 then .cells ((decodeCells payload s.draws).take (min 32 (payload.length / 2)))
        else .failed .deviceError

/-- R199: GET_HARDWARE with a served request and a valid response completes; the id returned is the payload. That
bytes of TXBUF and RXBUF that are not written keep what they held is the model's reading (notes/assumptions/15.md). -/
def Obligations.GetHardwareCompletes : Prop :=
  ∀ (s : State) (echo code : Byte) (payload : List Byte) (accepted : Nat) (m₀ m₁ m₂ : EnvMove)
    (later : List EnvMove),
    Ready s → (∀ sp, (s.buf.get sp).wf = true) → s.params.wf → payload.length ≤ s.params.capHardware →
    payload.length ≤ 30 → 7 ≤ accepted → Serves s 7 accepted (responseFrame echo code payload) m₀ m₁ m₂ later →
    ∃ t, exec .getHardware s = .next t ∧
      Answered s t 0xA5 0x05 [] s.params.capHardware echo code payload (if code = 0 then .ok else .deviceError) ∧
      t.records.status = s.records.status ∧ t.records.cells = s.records.cells ∧
      (code ≠ 0 → t.records = s.records) ∧
      (code = 0 → t.records.hwidLen = payload.length ∧ t.records.hwid.take payload.length = payload ∧
        t.records.hwid.length = s.params.capHardware) ∧
      t.host.result = if code = 0 then .hardware payload else .failed .deviceError

/-- R201: SET_MOSFET with a served request and a valid empty response completes; the payload sent is 00 and the mask's
number (R202). That TXBUF beyond the frame and all of RXBUF keep what they held is the model's reading
(notes/assumptions/15.md). -/
def Obligations.SetMosfetCompletes : Prop :=
  ∀ (s : State) (mask : MosfetMask) (echo code : Byte) (accepted : Nat) (m₀ m₁ m₂ : EnvMove)
    (later : List EnvMove),
    Ready s → (∀ sp, (s.buf.get sp).wf = true) → s.params.wf → 9 ≤ accepted →
    Serves s 9 accepted (responseFrame echo code []) m₀ m₁ m₂ later →
    ∃ t, exec (.setMosfet mask) s = .next t ∧
      Answered s t 0x5A 0xE1 [0x00, (maskBits s.params.mosfetEnc mask).setWidth 8] 0 echo code []
        (if code = 0 then .ok else .deviceError) ∧
      t.records = s.records ∧ t.draws = s.draws ∧
      t.host.result = if code = 0 then .mosfetSet else .failed .deviceError

/-- R172, R173, R177 and R190: whatever bytes arrive, a response of any command read in full is judged by
DECODE_RESPONSE alone. That the records, which a failing command does not write (R237), keep what they held is the
model's reading (notes/assumptions/15.md), and so is what the Status decode gives under a STATUS_LAYOUT other than R193's
(31.md, 33.md). -/
def Obligations.FullResponseDecidesTheReason : Prop :=
  ∀ (i : Instr) (s : State) (q : Issue) (start echo code len : Byte) (payload trailer : List Byte) (accepted : Nat)
    (m₀ m₁ m₂ : EnvMove) (later : List EnvMove),
    commandIssue s i = some q → Ready s → (∀ sp, (s.buf.get sp).wf = true) → q.cap ≤ s.params.rxbufSize →
    q.payload.length ≤ 30 → len.toNat = payload.length → payload.length ≤ q.cap → trailer.length = 3 →
    7 + q.payload.length ≤ accepted →
    Serves s (7 + q.payload.length) accepted ([start, echo, code, len] ++ payload ++ trailer) m₀ m₁ m₂ later →
    let verdict := decodeByIndex ([start, echo, code, len] ++ payload ++ trailer)
    ∃ t, exec i s = .next t ∧ t.phase = .idle ∧
      t.res = { echo := echo, code := code, len := len, err := verdict.1.reason } ∧
      t.chkOk = verdict.2.getD true ∧ t.lastDone = t.line.clock ∧
      t.history = s.history ++ sendEvents s (requestFrame q.dir q.cmd q.payload) (7 + q.payload.length) ++
        receiveEvents [start, echo, code, len] payload trailer ++ [.stamp t.lastDone] ∧
      t.records = (if verdict.1.reason = .ok then recordsAfter s q.command payload else s.records) ∧
      t.host.result =
        if verdict.1.reason = .ok then doneResult s q.command code payload else .failed verdict.1.reason

/-- R176 (with R166 and R168): a short write of any command is flushed, the line released, nothing is read, and the
time is stamped; the bytes that were accepted did go out, also when there are none. The order after a short write is
the spec's decision D7; the record of the wire is the model's (notes/assumptions/24.md and 25.md), and what is not
written keeps what it held (R237, 15.md). -/
def Obligations.ShortWriteReadsNothing : Prop :=
  ∀ (i : Instr) (s : State) (q : Issue) (accepted : Nat) (m₀ m₁ m₂ : EnvMove) (later : List EnvMove),
    commandIssue s i = some q → Ready s → (∀ sp, (s.buf.get sp).wf = true) → q.payload.length ≤ 30 →
    accepted < 7 + q.payload.length → Serves s accepted accepted [] m₀ m₁ m₂ later →
    ∃ t, exec i s = .next t ∧ t.phase = .idle ∧ t.res = { s.res with err := .ioShortWrite } ∧
      t.history = s.history ++ sendEvents s (requestFrame q.dir q.cmd q.payload) accepted ++ [.stamp t.lastDone] ∧
      t.line.txq = [] ∧
      t.line.wire = s.line.wire ++ s.line.txq ++ (requestFrame q.dir q.cmd q.payload).take accepted ∧
      t.lastDone = t.line.clock ∧ t.chkOk = true ∧ t.records = s.records ∧ t.buf.rxhdr = s.buf.rxhdr ∧
      t.buf.rxbuf = s.buf.rxbuf ∧ t.buf.rxtrl = s.buf.rxtrl ∧ t.host.result = .failed .ioShortWrite

/-- R163, R141 and R242: a payload of 31 bytes or more ends in ENCODING: no wait, no drive, nothing on the stream, no
buffer written; the time is stamped. That every register and buffer byte the command does not write (R237) keeps what
it held is the model's reading (notes/assumptions/15.md): U3 and U5 allow any value for R_ECHO, R_CODE, R_LEN and the
buffers. That the clock reading makes one move of the environment is the model's too (4.md). -/
def Obligations.TooLongPayloadFailsBeforeTheBus : Prop :=
  ∀ (s : State) (dir cmd : Byte) (request : List Byte) (cap : Byte),
    Ready s → dir = 0xA5 ∨ dir = 0x5A → 31 ≤ request.length → request.length ≤ 255 →
    cap.toNat ≤ 64 → cap.toNat ≤ s.params.rxbufSize →
    exec (.execute dir cmd request cap) s = .next
      { s with
        op := { dir := dir, cmd := cmd, plen := BitVec.ofNat 8 request.length, payload := request,
                cap := cap.toNat }
        res := { s.res with err := .encPayloadTooLong }
        chkOk := false
        seq := { s.seq with waitStart := none, pending := .execute }
        lastDone := s.now.line.clock
        line := s.now.line
        script := s.script.tail
        history := s.history ++ [.stamp s.now.line.clock]
        host := { s.host with result := .failed .encPayloadTooLong } }

/-- R169: a header that declares more than the capacity ends the command, whichever it is; neither payload nor trailer
is read. That RXBUF, RXTRL and the records, which the command does not write (R237), keep what they held is the
model's reading (notes/assumptions/15.md): U5 and U6 leave them open. -/
def Obligations.OversizeHeaderStopsReading : Prop :=
  ∀ (i : Instr) (s : State) (q : Issue) (start echo code len : Byte) (accepted : Nat) (m₀ m₁ m₂ : EnvMove)
    (later : List EnvMove),
    commandIssue s i = some q → Ready s → (∀ sp, (s.buf.get sp).wf = true) → q.payload.length ≤ 30 →
    q.cap < len.toNat → 7 + q.payload.length ≤ accepted →
    Serves s (7 + q.payload.length) accepted [start, echo, code, len] m₀ m₁ m₂ later →
    ∃ t, exec i s = .next t ∧ t.phase = .idle ∧
      t.res = { echo := echo, code := code, len := len, err := .ioBufferTooSmall } ∧
      t.history = s.history ++ sendEvents s (requestFrame q.dir q.cmd q.payload) (7 + q.payload.length) ++
        [.rx [start, echo, code, len], .stamp t.lastDone] ∧
      t.buf.rxbuf = s.buf.rxbuf ∧ t.buf.rxtrl = s.buf.rxtrl ∧ t.records = s.records ∧
      t.host.result = .failed .ioBufferTooSmall

/-! What every run keeps (10_state.md, 70_reset_and_hazards.md). -/

/-- The invariant: every step from a sane state ends in a sane state. It holds the line's rest level (R267), the
buffers' bounds and canonical form (R66), OP_CAP's and TXLEN's bounds, the drained transmitter (R266), and the sizes of
the record arrays (R31 to R33). -/
def Obligations.EveryStepKeepsSane : Prop :=
  ∀ s t : State, Sane s → step s = .next t → Sane t

/-- R66 and R241: no step of a sane machine faults. -/
def Obligations.SaneMachineNeverFaults : Prop :=
  ∀ (s : State) (f : Fault), Sane s → step s ≠ .fault f

/-- R12, R66, R244: in a ready sane machine every operation whose operands are inside their types answers a next state.
That a command that is held answers one is the model's reading (notes/assumptions/5.md), and so is that a capacity
above the receive buffer is outside EXECUTE's type (28.md). -/
def Obligations.ReadyOperationsAnswer : Prop :=
  ∀ (i : Instr) (s : State), Sane s → Ready s → i.wellFormed = true →
    (∀ dir cmd payload cap, i = .execute dir cmd payload cap → cap.toNat ≤ s.params.rxbufSize) →
    ∃ t, exec i s = .next t

/-- R26, R27, R30: nothing but OPEN writes the configuration, and nothing writes a parameter. -/
def Obligations.OnlyOpenConfigures : Prop :=
  ∀ s t : State, step s = .next t → t.params = s.params ∧
    (t.cfg = s.cfg ∨ ∃ request later dirPresent delayMs, s.phase = .idle ∧ s.host.requests = request :: later ∧
      decode s.params.opSel request = .ok (.openDriver dirPresent delayMs) ∧
      t.cfg = { opened := true, dirPresent := dirPresent, cmdDelayMs := delayMs })

/-- R28 and R174: LAST_DONE is written by STAMP and nothing else. -/
def Obligations.OnlyStampWritesLastDone : Prop :=
  ∀ s t : State, step s = .next t → t.lastDone = s.lastDone ∨
    ∃ es, t.history = s.history ++ es ++ [.stamp t.lastDone] ∧ t.lastDone = t.line.clock ∧ t.phase = .idle

/-- R58, R64 and R178: the block takes from the receive queue exactly the bytes of the RX events, in order, and purges
nothing; what arrives is appended. That nobody else takes bytes out is the model's choice: a host that drains the
queue between commands, which R270 lets recover so, is not modelled (notes/assumptions/19.md). -/
def Obligations.ReceivedBytesAreConserved : Prop :=
  ∀ s t : State, step s = .next t → ∃ moves es, s.script = moves ++ t.script ∧ t.history = s.history ++ es ∧
    rxBytes es ++ t.line.rxq = s.line.rxq ++ moves.flatMap EnvMove.arrive

/-- R56 and R57: every accepted byte goes onto the wire in order, once, and nothing else does. -/
def Obligations.TransmittedBytesAreConserved : Prop :=
  ∀ s t : State, step s = .next t → ∃ es, t.history = s.history ++ es ∧
    t.line.wire ++ t.line.txq = s.line.wire ++ s.line.txq ++ txBytes es

/-- R242, R260 and R36: with nothing asked of it the block does nothing: bytes that arrive are only queued. -/
def Obligations.IdleBlockOnlyQueues : Prop :=
  ∀ s : State, s.phase = .idle → s.host.requests = [] →
    (s.script = [] → step s = .next s) ∧
    ∀ m later, s.script = m :: later → step s = .next
      { s with
        line := { clock := s.line.clock + BitVec.ofNat 32 m.elapse, txq := s.line.txq.drop m.drain,
                  rxq := s.line.rxq ++ m.arrive, wire := s.line.wire ++ s.line.txq.take m.drain }
        script := later }

/-! Whole commands (70_reset_and_hazards.md R264, R277, R278). -/

/-- P1, P2, P3 and P5 of R277: one STAMP, the last event; the line last driven to receive; no RX after a short write;
at most 71 bytes read. -/
def Obligations.CommandEndsWithOneStamp : Prop :=
  ∀ (i : Instr) (s t : State) (q : Issue), s.params.wf → commandIssue s i = some q → exec i s = .next t →
    t.phase = .idle →
    ∃ es, t.history = s.history ++ es ++ [.stamp t.lastDone] ∧ (∀ e ∈ es, isStamp e = false) ∧
      t.lastDone = t.line.clock ∧ (lastDir es = none ∨ lastDir es = some (!s.params.dirTxLevel)) ∧
      (t.res.err = .ioShortWrite → ∀ e ∈ es, isRx e = false) ∧ (rxBytes es).length ≤ 71

/-- P6 of R277: a command that ends OK has received a frame that satisfies every check. -/
def Obligations.OkCertifiesTheFrame : Prop :=
  ∀ (i : Instr) (s t : State) (q : Issue), Sane s → commandIssue s i = some q → exec i s = .next t →
    t.phase = .idle → t.res.err = .ok →
    t.buf.rxhdr.read 0 = 0xDD ∧ t.res.code = 0 ∧ t.res.len.toNat ≤ 30 ∧ t.res.len.toNat ≤ q.cap ∧
    t.buf.rxtrl.read 2 = 0x77 ∧
    (t.res.code.toNat + t.res.len.toNat + byteSum (t.buf.rxbuf.readRange 0 t.res.len.toNat) +
      (be16 (t.buf.rxtrl.read 0) (t.buf.rxtrl.read 1)).toNat) % 65536 = 0

/-- P7 of R277: every frame a command offers to the stream is its own request frame (R38), and well formed. -/
def Obligations.OfferedFramesAreWellFormed : Prop :=
  ∀ (i : Instr) (s t : State) (q : Issue), Sane s → commandIssue s i = some q → exec i s = .next t →
    ∃ es, t.history = s.history ++ es ∧ ∀ frame n, .tx frame n ∈ es →
      frame = requestFrame q.dir q.cmd q.payload ∧ n ≤ frame.length ∧ frame.length ≤ 37 ∧
      frame.head? = some 0xDD ∧ frame.getLast? = some 0x77 ∧
      (q.cmd.toNat + q.payload.length + byteSum q.payload +
        (be16 (frame.getD (4 + q.payload.length) 0) (frame.getD (5 + q.payload.length) 0)).toNat) % 65536 = 0

/-- R190, R169, R237 and R22: the registers a command leaves alone, whatever its outcome: parameters, configuration and
the host's requests; the time stamp while it is held; the line without a direction line; R_ECHO, R_CODE and R_LEN
unless its header was read in full, and R_ERR while it is held (both keep what they held, notes/assumptions/15.md);
every record register unless it ends OK, and then every one that is not its own. -/
def Obligations.CommandRegisterFrame : Prop :=
  ∀ (i : Instr) (s t : State) (q : Issue), commandIssue s i = some q → exec i s = .next t →
    t.params = s.params ∧ t.cfg = s.cfg ∧ t.host.requests = s.host.requests ∧
    t.op = { dir := q.dir, cmd := q.cmd, plen := BitVec.ofNat 8 q.payload.length, payload := q.payload, cap := q.cap } ∧
    (t.phase ≠ .idle → t.lastDone = s.lastDone) ∧ (s.cfg.dirPresent = false → t.dirLevel = s.dirLevel) ∧
    (t.phase = .idle → t.res.err = .encPayloadTooLong ∨ t.res.err = .ioShortWrite ∨ t.res.err = .ioShortReadHeader →
      t.res = { s.res with err := t.res.err }) ∧
    (t.phase = .wait ∨ t.phase = .transmitting ∨ t.phase = .flush ∨ t.phase = .receivingHeader → t.res = s.res) ∧
    (t.phase ≠ .idle → t.res.err = s.res.err) ∧
    (t.phase ≠ .idle ∨ t.res.err ≠ .ok → t.records = s.records ∧ t.draws = s.draws) ∧
    match q.command with
    | .getStatus => t.records = { s.records with status := t.records.status }
    | .getCells => t.records = { s.records with cells := t.records.cells }
    | .getHardware => t.records = { s.records with hwid := t.records.hwid, hwidLen := t.records.hwidLen }
    | _ => t.records = s.records ∧ t.draws = s.draws

/-- R50 to R52 and R237 say which bytes a command writes: the request frame in TXBUF, the 4 header bytes, the first
R_LEN payload bytes (at most the capacity), and the 3 trailer bytes. That every other byte reads as before is the
model's reading (notes/assumptions/15.md): R51, R52 and U5 leave those bytes unspecified for the host, and R237, which
says that what is not written is kept, speaks of commands that fail. -/
def Obligations.CommandMemoryFrame : Prop :=
  ∀ (i : Instr) (s t : State) (q : Issue), Sane s → commandIssue s i = some q → exec i s = .next t →
    ∀ a, (7 + q.payload.length ≤ a ∨ 31 ≤ q.payload.length → t.buf.txbuf.read a = s.buf.txbuf.read a) ∧
      (4 ≤ a → t.buf.rxhdr.read a = s.buf.rxhdr.read a) ∧
      (t.res.len.toNat ≤ a ∨ q.cap ≤ a → t.buf.rxbuf.read a = s.buf.rxbuf.read a) ∧
      (3 ≤ a → t.buf.rxtrl.read a = s.buf.rxtrl.read a)

/-- R243 and R20: a pure operation changes nothing but the value it returns, and CHK_OK if it evaluates a checksum (the
result register and the counter of free values are the model's, notes/assumptions/17.md and 22.md). -/
def Obligations.PureOperationFrame : Prop :=
  ∀ (i : Instr) (s t : State), isPure i = true → exec i s = .next t →
    t = { s with chkOk := t.chkOk, draws := t.draws, host := { s.host with result := t.host.result } } ∧
    (usesChecksum i = false → t.chkOk = s.chkOk ∧ t.draws = s.draws)

/-- R38: a command's outcome depends on no register or buffer an earlier command wrote, but for the configuration, the
time stamp and the environment. -/
def Obligations.NoCommandReadsStaleState : Prop :=
  ∀ (i : Instr) (s s' t : State) (q : Issue), SameStart s s' → commandIssue s i = some q → exec i s = .next t →
    ∃ t', exec i s' = .next t' ∧ SameOutcome s s' t t'

/-- R278: on a stream that times out, in an environment that goes on moving, every command completes. -/
def Obligations.HelpfulEnvironmentCompletes : Prop :=
  ∀ (i : Instr) (s : State) (q : Issue), Sane s → Ready s → commandIssue s i = some q →
    s.params.streamTimeout = true → (∀ m ∈ s.script, Helpful m) → s.cfg.cmdDelayMs.toNat + 8 ≤ s.script.length →
    ∃ t, exec i s = .next t ∧ t.phase = .idle

/-! Records and accessors (44_commands.md). -/

/-- R192 to R195 with the default layout, for a payload of any length: where each Status register comes from whose
bytes are in the payload. The others are left open (R195). -/
def Obligations.StatusFieldsComeFromTheirOffsets : Prop :=
  ∀ (p : Config.Params) (payload : List Byte) (draws : Nat), p.statusLayout = Config.defaultStatusLayout →
    let r := decodeStatus p payload draws
    let L := payload.length
    let f16 := fun k => be16 (payload.getD k 0) (payload.getD (k + 1) 0)
    (2 ≤ L → r.voltage = f16 0) ∧ (4 ≤ L → r.current = f16 2) ∧ (6 ≤ L → r.remaining = f16 4) ∧
    (8 ≤ L → r.nominal = f16 6) ∧ (10 ≤ L → r.cycles = f16 8) ∧ (12 ≤ L → r.date = f16 10) ∧
    (14 ≤ L → r.balanceLo = f16 12) ∧ (16 ≤ L → r.balanceHi = f16 14) ∧ (18 ≤ L → r.fault = f16 16) ∧
    (19 ≤ L → r.version = payload.getD 18 0) ∧ (20 ≤ L → r.soc = payload.getD 19 0) ∧
    (21 ≤ L → r.mosfet = payload.getD 20 0) ∧ (22 ≤ L → r.cells = payload.getD 21 0) ∧
    (23 ≤ L → r.ntcs = payload.getD 22 0) ∧ r.temps.length = p.ntcMax ∧
    ∀ i, i < min r.ntcs.toNat (min p.ntcMax ((L - 23) / 2)) →
      r.temps[i]? = some (if p.ntcSwap = .omitted then le16 (payload.getD (23 + 2 * i) 0) (payload.getD (24 + 2 * i) 0)
        else be16 (payload.getD (23 + 2 * i) 0) (payload.getD (24 + 2 * i) 0))

/-- R197: the cell registers are the payload's 16-bit fields, high byte first; an odd trailing byte is ignored. -/
def Obligations.CellsAreBigEndianWords : Prop :=
  ∀ (payload : List Byte) (draws : Nat), (decodeCells payload draws).length = 32 ∧
    ∀ i, i < min 32 (payload.length / 2) →
      (decodeCells payload draws)[i]? = some (be16 (payload.getD (2 * i) 0) (payload.getD (2 * i + 1) 0))

/-- R93 and R98: the fixed request frames of the four commands, with the mask numbers of the spec's decision D19. -/
def Obligations.FixedRequestFrames : Prop :=
  ∀ s : State, s.params.mosfetEnc = Config.defaultMosfetEnc →
    (commandIssue s .getStatus).map (fun q => requestFrame q.dir q.cmd q.payload) =
      some [0xDD, 0xA5, 0x03, 0x00, 0xFF, 0xFD, 0x77] ∧
    (commandIssue s .getCells).map (fun q => requestFrame q.dir q.cmd q.payload) =
      some [0xDD, 0xA5, 0x04, 0x00, 0xFF, 0xFC, 0x77] ∧
    (commandIssue s .getHardware).map (fun q => requestFrame q.dir q.cmd q.payload) =
      some [0xDD, 0xA5, 0x05, 0x00, 0xFF, 0xFB, 0x77] ∧
    (commandIssue s (.setMosfet .none)).map (fun q => requestFrame q.dir q.cmd q.payload) =
      some [0xDD, 0x5A, 0xE1, 0x02, 0x00, 0x00, 0xFF, 0x1D, 0x77] ∧
    (commandIssue s (.setMosfet .charge)).map (fun q => requestFrame q.dir q.cmd q.payload) =
      some [0xDD, 0x5A, 0xE1, 0x02, 0x00, 0x01, 0xFF, 0x1C, 0x77] ∧
    (commandIssue s (.setMosfet .discharge)).map (fun q => requestFrame q.dir q.cmd q.payload) =
      some [0xDD, 0x5A, 0xE1, 0x02, 0x00, 0x02, 0xFF, 0x1B, 0x77] ∧
    (commandIssue s (.setMosfet .both)).map (fun q => requestFrame q.dir q.cmd q.payload) =
      some [0xDD, 0x5A, 0xE1, 0x02, 0x00, 0x03, 0xFF, 0x1A, 0x77]

/-- R204 to R210 (and R203): each accessor returns the one bit of the mask that FAULT_BIT gives it, by default the bit
its rule names, and changes nothing else; its selector is its rule's. The bit numbers are the spec's decision D20. -/
def Obligations.FaultAccessorsReadBits0To6 : Prop :=
  ∀ (s : State) (f : Word), Ready s →
    let at_ := s.params.faultBit
    let std := Config.defaultFaultBits
    let flag := fun b : Nat =>
      Host.Outcome.next (φ := Fault) (ρ := Refusal) (returning s (.flag (decide (f.toNat / 2 ^ b % 2 = 1))))
    (exec (.isCellOvervoltage f) s = flag at_.cellOvervoltage ∧ std.cellOvervoltage = 0 ∧
      (encode Config.defaultOpSel (.isCellOvervoltage f)).head? = some 0x30) ∧
    (exec (.isCellUndervoltage f) s = flag at_.cellUndervoltage ∧ std.cellUndervoltage = 1 ∧
      (encode Config.defaultOpSel (.isCellUndervoltage f)).head? = some 0x31) ∧
    (exec (.isPackOvervoltage f) s = flag at_.packOvervoltage ∧ std.packOvervoltage = 2 ∧
      (encode Config.defaultOpSel (.isPackOvervoltage f)).head? = some 0x32) ∧
    (exec (.isPackUndervoltage f) s = flag at_.packUndervoltage ∧ std.packUndervoltage = 3 ∧
      (encode Config.defaultOpSel (.isPackUndervoltage f)).head? = some 0x33) ∧
    (exec (.isChargeOvertemp f) s = flag at_.chargeOvertemp ∧ std.chargeOvertemp = 4 ∧
      (encode Config.defaultOpSel (.isChargeOvertemp f)).head? = some 0x34) ∧
    (exec (.isChargeUndertemp f) s = flag at_.chargeUndertemp ∧ std.chargeUndertemp = 5 ∧
      (encode Config.defaultOpSel (.isChargeUndertemp f)).head? = some 0x35) ∧
    (exec (.isDischargeOvertemp f) s = flag at_.dischargeOvertemp ∧ std.dischargeOvertemp = 6 ∧
      (encode Config.defaultOpSel (.isDischargeOvertemp f)).head? = some 0x36)

/-- R211 to R216 (and R203): the other six accessors (bit numbers: the spec's decision D20). -/
def Obligations.FaultAccessorsReadBits7To12 : Prop :=
  ∀ (s : State) (f : Word), Ready s →
    let at_ := s.params.faultBit
    let std := Config.defaultFaultBits
    let flag := fun b : Nat =>
      Host.Outcome.next (φ := Fault) (ρ := Refusal) (returning s (.flag (decide (f.toNat / 2 ^ b % 2 = 1))))
    (exec (.isDischargeUndertemp f) s = flag at_.dischargeUndertemp ∧ std.dischargeUndertemp = 7 ∧
      (encode Config.defaultOpSel (.isDischargeUndertemp f)).head? = some 0x37) ∧
    (exec (.isChargeOvercurrent f) s = flag at_.chargeOvercurrent ∧ std.chargeOvercurrent = 8 ∧
      (encode Config.defaultOpSel (.isChargeOvercurrent f)).head? = some 0x38) ∧
    (exec (.isDischargeOvercurrent f) s = flag at_.dischargeOvercurrent ∧ std.dischargeOvercurrent = 9 ∧
      (encode Config.defaultOpSel (.isDischargeOvercurrent f)).head? = some 0x39) ∧
    (exec (.isShortCircuit f) s = flag at_.shortCircuit ∧ std.shortCircuit = 10 ∧
      (encode Config.defaultOpSel (.isShortCircuit f)).head? = some 0x3A) ∧
    (exec (.isIcError f) s = flag at_.icError ∧ std.icError = 11 ∧
      (encode Config.defaultOpSel (.isIcError f)).head? = some 0x3B) ∧
    (exec (.isSoftwareLock f) s = flag at_.softwareLock ∧ std.softwareLock = 12 ∧
      (encode Config.defaultOpSel (.isSoftwareLock f)).head? = some 0x3C)

end
end

