-- ==== Sys2Proof/Laws/State.lean ====
section
/-! SUPPORT. One lemma per field of State per named update: what the update leaves in the field. -/

namespace Sys2Proof.Machine

/-! The environment's move and the clock reading change the line and the script only. -/

@[simp] theorem State.envMove_params (s : State) : s.envMove.params = s.params := by
  unfold State.envMove; split <;> rfl
@[simp] theorem State.now_params (s : State) : s.now.params = s.params := s.envMove_params
@[simp] theorem State.envMove_cfg (s : State) : s.envMove.cfg = s.cfg := by
  unfold State.envMove; split <;> rfl
@[simp] theorem State.now_cfg (s : State) : s.now.cfg = s.cfg := s.envMove_cfg
@[simp] theorem State.envMove_phase (s : State) : s.envMove.phase = s.phase := by
  unfold State.envMove; split <;> rfl
@[simp] theorem State.now_phase (s : State) : s.now.phase = s.phase := s.envMove_phase
@[simp] theorem State.envMove_lastDone (s : State) : s.envMove.lastDone = s.lastDone := by
  unfold State.envMove; split <;> rfl
@[simp] theorem State.now_lastDone (s : State) : s.now.lastDone = s.lastDone := s.envMove_lastDone
@[simp] theorem State.envMove_dirLevel (s : State) : s.envMove.dirLevel = s.dirLevel := by
  unfold State.envMove; split <;> rfl
@[simp] theorem State.now_dirLevel (s : State) : s.now.dirLevel = s.dirLevel := s.envMove_dirLevel
@[simp] theorem State.envMove_op (s : State) : s.envMove.op = s.op := by
  unfold State.envMove; split <;> rfl
@[simp] theorem State.now_op (s : State) : s.now.op = s.op := s.envMove_op
@[simp] theorem State.envMove_res (s : State) : s.envMove.res = s.res := by
  unfold State.envMove; split <;> rfl
@[simp] theorem State.now_res (s : State) : s.now.res = s.res := s.envMove_res
@[simp] theorem State.envMove_chkOk (s : State) : s.envMove.chkOk = s.chkOk := by
  unfold State.envMove; split <;> rfl
@[simp] theorem State.now_chkOk (s : State) : s.now.chkOk = s.chkOk := s.envMove_chkOk
@[simp] theorem State.envMove_buf (s : State) : s.envMove.buf = s.buf := by
  unfold State.envMove; split <;> rfl
@[simp] theorem State.now_buf (s : State) : s.now.buf = s.buf := s.envMove_buf
@[simp] theorem State.envMove_seq (s : State) : s.envMove.seq = s.seq := by
  unfold State.envMove; split <;> rfl
@[simp] theorem State.now_seq (s : State) : s.now.seq = s.seq := s.envMove_seq
@[simp] theorem State.envMove_records (s : State) : s.envMove.records = s.records := by
  unfold State.envMove; split <;> rfl
@[simp] theorem State.now_records (s : State) : s.now.records = s.records := s.envMove_records
@[simp] theorem State.envMove_host (s : State) : s.envMove.host = s.host := by
  unfold State.envMove; split <;> rfl
@[simp] theorem State.now_host (s : State) : s.now.host = s.host := s.envMove_host
@[simp] theorem State.envMove_history (s : State) : s.envMove.history = s.history := by
  unfold State.envMove; split <;> rfl
@[simp] theorem State.now_history (s : State) : s.now.history = s.history := s.envMove_history
@[simp] theorem State.envMove_draws (s : State) : s.envMove.draws = s.draws := by
  unfold State.envMove; split <;> rfl
@[simp] theorem State.now_draws (s : State) : s.now.draws = s.draws := s.envMove_draws
theorem State.now_line_nil {s : State} (h : s.script = []) : s.now.line = s.line := by
  simp [State.now, State.envMove, h]
theorem State.now_line_cons {s : State} {m : EnvMove} {ms : List EnvMove} (h : s.script = m :: ms) :
    s.now.line = s.line.move m := by
  simp [State.now, State.envMove, h]
theorem State.now_script (s : State) : s.now.script = s.script.tail := by
  unfold State.now State.envMove; split <;> simp_all

/-! `goto` -/

@[simp] theorem State.goto_params (s : State) (p : Phase) : (s.goto p).params = s.params := rfl
@[simp] theorem State.goto_cfg (s : State) (p : Phase) : (s.goto p).cfg = s.cfg := rfl
@[simp] theorem State.goto_phase (s : State) (p : Phase) : (s.goto p).phase = p := rfl
@[simp] theorem State.goto_lastDone (s : State) (p : Phase) : (s.goto p).lastDone = s.lastDone := rfl
@[simp] theorem State.goto_dirLevel (s : State) (p : Phase) : (s.goto p).dirLevel = s.dirLevel := rfl
@[simp] theorem State.goto_op (s : State) (p : Phase) : (s.goto p).op = s.op := rfl
@[simp] theorem State.goto_res (s : State) (p : Phase) : (s.goto p).res = s.res := rfl
@[simp] theorem State.goto_chkOk (s : State) (p : Phase) : (s.goto p).chkOk = s.chkOk := rfl
@[simp] theorem State.goto_buf (s : State) (p : Phase) : (s.goto p).buf = s.buf := rfl
@[simp] theorem State.goto_seq (s : State) (p : Phase) : (s.goto p).seq = s.seq := rfl
@[simp] theorem State.goto_records (s : State) (p : Phase) : (s.goto p).records = s.records := rfl
@[simp] theorem State.goto_line (s : State) (p : Phase) : (s.goto p).line = s.line := rfl
@[simp] theorem State.goto_script (s : State) (p : Phase) : (s.goto p).script = s.script := rfl
@[simp] theorem State.goto_host (s : State) (p : Phase) : (s.goto p).host = s.host := rfl
@[simp] theorem State.goto_history (s : State) (p : Phase) : (s.goto p).history = s.history := rfl
@[simp] theorem State.goto_draws (s : State) (p : Phase) : (s.goto p).draws = s.draws := rfl

/-! `emit` -/

@[simp] theorem State.emit_params (s : State) (e : Event) : (s.emit e).params = s.params := rfl
@[simp] theorem State.emit_cfg (s : State) (e : Event) : (s.emit e).cfg = s.cfg := rfl
@[simp] theorem State.emit_phase (s : State) (e : Event) : (s.emit e).phase = s.phase := rfl
@[simp] theorem State.emit_lastDone (s : State) (e : Event) : (s.emit e).lastDone = s.lastDone := rfl
@[simp] theorem State.emit_dirLevel (s : State) (e : Event) : (s.emit e).dirLevel = s.dirLevel := rfl
@[simp] theorem State.emit_op (s : State) (e : Event) : (s.emit e).op = s.op := rfl
@[simp] theorem State.emit_res (s : State) (e : Event) : (s.emit e).res = s.res := rfl
@[simp] theorem State.emit_chkOk (s : State) (e : Event) : (s.emit e).chkOk = s.chkOk := rfl
@[simp] theorem State.emit_buf (s : State) (e : Event) : (s.emit e).buf = s.buf := rfl
@[simp] theorem State.emit_seq (s : State) (e : Event) : (s.emit e).seq = s.seq := rfl
@[simp] theorem State.emit_records (s : State) (e : Event) : (s.emit e).records = s.records := rfl
@[simp] theorem State.emit_line (s : State) (e : Event) : (s.emit e).line = s.line := rfl
@[simp] theorem State.emit_script (s : State) (e : Event) : (s.emit e).script = s.script := rfl
@[simp] theorem State.emit_host (s : State) (e : Event) : (s.emit e).host = s.host := rfl
@[simp] theorem State.emit_history (s : State) (e : Event) : (s.emit e).history = s.history ++ [e] := rfl
@[simp] theorem State.emit_draws (s : State) (e : Event) : (s.emit e).draws = s.draws := rfl

/-! `answer` -/

@[simp] theorem State.answer_params (s : State) (r : OpResult) : (s.answer r).params = s.params := rfl
@[simp] theorem State.answer_cfg (s : State) (r : OpResult) : (s.answer r).cfg = s.cfg := rfl
@[simp] theorem State.answer_phase (s : State) (r : OpResult) : (s.answer r).phase = s.phase := rfl
@[simp] theorem State.answer_lastDone (s : State) (r : OpResult) : (s.answer r).lastDone = s.lastDone := rfl
@[simp] theorem State.answer_dirLevel (s : State) (r : OpResult) : (s.answer r).dirLevel = s.dirLevel := rfl
@[simp] theorem State.answer_op (s : State) (r : OpResult) : (s.answer r).op = s.op := rfl
@[simp] theorem State.answer_res (s : State) (r : OpResult) : (s.answer r).res = s.res := rfl
@[simp] theorem State.answer_chkOk (s : State) (r : OpResult) : (s.answer r).chkOk = s.chkOk := rfl
@[simp] theorem State.answer_buf (s : State) (r : OpResult) : (s.answer r).buf = s.buf := rfl
@[simp] theorem State.answer_seq (s : State) (r : OpResult) : (s.answer r).seq = s.seq := rfl
@[simp] theorem State.answer_records (s : State) (r : OpResult) : (s.answer r).records = s.records := rfl
@[simp] theorem State.answer_line (s : State) (r : OpResult) : (s.answer r).line = s.line := rfl
@[simp] theorem State.answer_script (s : State) (r : OpResult) : (s.answer r).script = s.script := rfl
@[simp] theorem State.answer_host (s : State) (r : OpResult) : (s.answer r).host = { s.host with result := r } := rfl
@[simp] theorem State.answer_history (s : State) (r : OpResult) : (s.answer r).history = s.history := rfl
@[simp] theorem State.answer_draws (s : State) (r : OpResult) : (s.answer r).draws = s.draws := rfl

/-! `raise` -/

@[simp] theorem State.raise_params (s : State) (r : ErrorReason) : (s.raise r).params = s.params := rfl
@[simp] theorem State.raise_cfg (s : State) (r : ErrorReason) : (s.raise r).cfg = s.cfg := rfl
@[simp] theorem State.raise_phase (s : State) (r : ErrorReason) : (s.raise r).phase = .stamp := rfl
@[simp] theorem State.raise_lastDone (s : State) (r : ErrorReason) : (s.raise r).lastDone = s.lastDone := rfl
@[simp] theorem State.raise_dirLevel (s : State) (r : ErrorReason) : (s.raise r).dirLevel = s.dirLevel := rfl
@[simp] theorem State.raise_op (s : State) (r : ErrorReason) : (s.raise r).op = s.op := rfl
@[simp] theorem State.raise_res (s : State) (r : ErrorReason) : (s.raise r).res = { s.res with err := r } := rfl
@[simp] theorem State.raise_chkOk (s : State) (r : ErrorReason) : (s.raise r).chkOk = s.chkOk := rfl
@[simp] theorem State.raise_buf (s : State) (r : ErrorReason) : (s.raise r).buf = s.buf := rfl
@[simp] theorem State.raise_seq (s : State) (r : ErrorReason) : (s.raise r).seq = s.seq := rfl
@[simp] theorem State.raise_records (s : State) (r : ErrorReason) : (s.raise r).records = s.records := rfl
@[simp] theorem State.raise_line (s : State) (r : ErrorReason) : (s.raise r).line = s.line := rfl
@[simp] theorem State.raise_script (s : State) (r : ErrorReason) : (s.raise r).script = s.script := rfl
@[simp] theorem State.raise_host (s : State) (r : ErrorReason) : (s.raise r).host = s.host := rfl
@[simp] theorem State.raise_history (s : State) (r : ErrorReason) : (s.raise r).history = s.history := rfl
@[simp] theorem State.raise_draws (s : State) (r : ErrorReason) : (s.raise r).draws = s.draws := rfl

/-! `latchHeader` -/

@[simp] theorem State.latchHeader_params (s : State) (a b c : Byte) : (s.latchHeader a b c).params = s.params := rfl
@[simp] theorem State.latchHeader_cfg (s : State) (a b c : Byte) : (s.latchHeader a b c).cfg = s.cfg := rfl
@[simp] theorem State.latchHeader_phase (s : State) (a b c : Byte) : (s.latchHeader a b c).phase = s.phase := rfl
@[simp] theorem State.latchHeader_lastDone (s : State) (a b c : Byte) : (s.latchHeader a b c).lastDone = s.lastDone := rfl
@[simp] theorem State.latchHeader_dirLevel (s : State) (a b c : Byte) : (s.latchHeader a b c).dirLevel = s.dirLevel := rfl
@[simp] theorem State.latchHeader_op (s : State) (a b c : Byte) : (s.latchHeader a b c).op = s.op := rfl
@[simp] theorem State.latchHeader_res (s : State) (a b c : Byte) : (s.latchHeader a b c).res = { s.res with echo := a, code := b, len := c } := rfl
@[simp] theorem State.latchHeader_chkOk (s : State) (a b c : Byte) : (s.latchHeader a b c).chkOk = s.chkOk := rfl
@[simp] theorem State.latchHeader_buf (s : State) (a b c : Byte) : (s.latchHeader a b c).buf = s.buf := rfl
@[simp] theorem State.latchHeader_seq (s : State) (a b c : Byte) : (s.latchHeader a b c).seq = s.seq := rfl
@[simp] theorem State.latchHeader_records (s : State) (a b c : Byte) : (s.latchHeader a b c).records = s.records := rfl
@[simp] theorem State.latchHeader_line (s : State) (a b c : Byte) : (s.latchHeader a b c).line = s.line := rfl
@[simp] theorem State.latchHeader_script (s : State) (a b c : Byte) : (s.latchHeader a b c).script = s.script := rfl
@[simp] theorem State.latchHeader_host (s : State) (a b c : Byte) : (s.latchHeader a b c).host = s.host := rfl
@[simp] theorem State.latchHeader_history (s : State) (a b c : Byte) : (s.latchHeader a b c).history = s.history := rfl
@[simp] theorem State.latchHeader_draws (s : State) (a b c : Byte) : (s.latchHeader a b c).draws = s.draws := rfl

/-! `withRequests` -/

@[simp] theorem State.withRequests_params (s : State) (q : List (List Byte)) : (s.withRequests q).params = s.params := rfl
@[simp] theorem State.withRequests_cfg (s : State) (q : List (List Byte)) : (s.withRequests q).cfg = s.cfg := rfl
@[simp] theorem State.withRequests_phase (s : State) (q : List (List Byte)) : (s.withRequests q).phase = s.phase := rfl
@[simp] theorem State.withRequests_lastDone (s : State) (q : List (List Byte)) : (s.withRequests q).lastDone = s.lastDone := rfl
@[simp] theorem State.withRequests_dirLevel (s : State) (q : List (List Byte)) : (s.withRequests q).dirLevel = s.dirLevel := rfl
@[simp] theorem State.withRequests_op (s : State) (q : List (List Byte)) : (s.withRequests q).op = s.op := rfl
@[simp] theorem State.withRequests_res (s : State) (q : List (List Byte)) : (s.withRequests q).res = s.res := rfl
@[simp] theorem State.withRequests_chkOk (s : State) (q : List (List Byte)) : (s.withRequests q).chkOk = s.chkOk := rfl
@[simp] theorem State.withRequests_buf (s : State) (q : List (List Byte)) : (s.withRequests q).buf = s.buf := rfl
@[simp] theorem State.withRequests_seq (s : State) (q : List (List Byte)) : (s.withRequests q).seq = s.seq := rfl
@[simp] theorem State.withRequests_records (s : State) (q : List (List Byte)) : (s.withRequests q).records = s.records := rfl
@[simp] theorem State.withRequests_line (s : State) (q : List (List Byte)) : (s.withRequests q).line = s.line := rfl
@[simp] theorem State.withRequests_script (s : State) (q : List (List Byte)) : (s.withRequests q).script = s.script := rfl
@[simp] theorem State.withRequests_host (s : State) (q : List (List Byte)) : (s.withRequests q).host = { s.host with requests := q } := rfl
@[simp] theorem State.withRequests_history (s : State) (q : List (List Byte)) : (s.withRequests q).history = s.history := rfl
@[simp] theorem State.withRequests_draws (s : State) (q : List (List Byte)) : (s.withRequests q).draws = s.draws := rfl

/-! `issue` -/

@[simp] theorem State.issue_params (s : State) (c : Command) (d k : Byte) (p : List Byte) (n : Nat) : (s.issue c d k p n).params = s.params := rfl
@[simp] theorem State.issue_cfg (s : State) (c : Command) (d k : Byte) (p : List Byte) (n : Nat) : (s.issue c d k p n).cfg = s.cfg := rfl
@[simp] theorem State.issue_phase (s : State) (c : Command) (d k : Byte) (p : List Byte) (n : Nat) : (s.issue c d k p n).phase = .encoding := rfl
@[simp] theorem State.issue_lastDone (s : State) (c : Command) (d k : Byte) (p : List Byte) (n : Nat) : (s.issue c d k p n).lastDone = s.lastDone := rfl
@[simp] theorem State.issue_dirLevel (s : State) (c : Command) (d k : Byte) (p : List Byte) (n : Nat) : (s.issue c d k p n).dirLevel = s.dirLevel := rfl
@[simp] theorem State.issue_op (s : State) (c : Command) (d k : Byte) (p : List Byte) (n : Nat) : (s.issue c d k p n).op = { dir := d, cmd := k, plen := BitVec.ofNat 8 p.length, payload := p, cap := n } := rfl
@[simp] theorem State.issue_res (s : State) (c : Command) (d k : Byte) (p : List Byte) (n : Nat) : (s.issue c d k p n).res = s.res := rfl
@[simp] theorem State.issue_chkOk (s : State) (c : Command) (d k : Byte) (p : List Byte) (n : Nat) : (s.issue c d k p n).chkOk = s.chkOk := rfl
@[simp] theorem State.issue_buf (s : State) (c : Command) (d k : Byte) (p : List Byte) (n : Nat) : (s.issue c d k p n).buf = s.buf := rfl
@[simp] theorem State.issue_seq (s : State) (c : Command) (d k : Byte) (p : List Byte) (n : Nat) : (s.issue c d k p n).seq = { s.seq with waitStart := none, pending := c } := rfl
@[simp] theorem State.issue_records (s : State) (c : Command) (d k : Byte) (p : List Byte) (n : Nat) : (s.issue c d k p n).records = s.records := rfl
@[simp] theorem State.issue_line (s : State) (c : Command) (d k : Byte) (p : List Byte) (n : Nat) : (s.issue c d k p n).line = s.line := rfl
@[simp] theorem State.issue_script (s : State) (c : Command) (d k : Byte) (p : List Byte) (n : Nat) : (s.issue c d k p n).script = s.script := rfl
@[simp] theorem State.issue_host (s : State) (c : Command) (d k : Byte) (p : List Byte) (n : Nat) : (s.issue c d k p n).host = { s.host with result := .none } := rfl
@[simp] theorem State.issue_history (s : State) (c : Command) (d k : Byte) (p : List Byte) (n : Nat) : (s.issue c d k p n).history = s.history := rfl
@[simp] theorem State.issue_draws (s : State) (c : Command) (d k : Byte) (p : List Byte) (n : Nat) : (s.issue c d k p n).draws = s.draws := rfl

/-! `stampAndReturn` -/

@[simp] theorem State.stampAndReturn_params (s : State) : s.stampAndReturn.params = s.params := State.now_params s
@[simp] theorem State.stampAndReturn_cfg (s : State) : s.stampAndReturn.cfg = s.cfg := State.now_cfg s
@[simp] theorem State.stampAndReturn_phase (s : State) : s.stampAndReturn.phase = .idle := rfl
@[simp] theorem State.stampAndReturn_lastDone (s : State) : s.stampAndReturn.lastDone = s.now.line.clock := rfl
@[simp] theorem State.stampAndReturn_dirLevel (s : State) : s.stampAndReturn.dirLevel = s.dirLevel := State.now_dirLevel s
@[simp] theorem State.stampAndReturn_op (s : State) : s.stampAndReturn.op = s.op := State.now_op s
@[simp] theorem State.stampAndReturn_res (s : State) : s.stampAndReturn.res = s.res := State.now_res s
@[simp] theorem State.stampAndReturn_chkOk (s : State) : s.stampAndReturn.chkOk = s.chkOk := State.now_chkOk s
@[simp] theorem State.stampAndReturn_buf (s : State) : s.stampAndReturn.buf = s.buf := State.now_buf s
@[simp] theorem State.stampAndReturn_seq (s : State) : s.stampAndReturn.seq = s.seq := State.now_seq s
@[simp] theorem State.stampAndReturn_records (s : State) : s.stampAndReturn.records = s.records := State.now_records s
@[simp] theorem State.stampAndReturn_line (s : State) : s.stampAndReturn.line = s.now.line := rfl
@[simp] theorem State.stampAndReturn_script (s : State) : s.stampAndReturn.script = s.now.script := rfl
@[simp] theorem State.stampAndReturn_host (s : State) : s.stampAndReturn.host = s.host := State.now_host s
@[simp] theorem State.stampAndReturn_history (s : State) : s.stampAndReturn.history = s.history ++ [.stamp s.now.line.clock] := congrArg (· ++ [Event.stamp s.now.line.clock]) (State.now_history s)
@[simp] theorem State.stampAndReturn_draws (s : State) : s.stampAndReturn.draws = s.draws := State.now_draws s

/-! `dirDrive` -/

@[simp] theorem State.dirDrive_params (s : State) (b : Bool) : (s.dirDrive b).params = s.params := by
  unfold State.dirDrive; split <;> rfl
@[simp] theorem State.dirDrive_cfg (s : State) (b : Bool) : (s.dirDrive b).cfg = s.cfg := by
  unfold State.dirDrive; split <;> rfl
@[simp] theorem State.dirDrive_phase (s : State) (b : Bool) : (s.dirDrive b).phase = s.phase := by
  unfold State.dirDrive; split <;> rfl
@[simp] theorem State.dirDrive_lastDone (s : State) (b : Bool) : (s.dirDrive b).lastDone = s.lastDone := by
  unfold State.dirDrive; split <;> rfl
@[simp] theorem State.dirDrive_dirLevel (s : State) (b : Bool) :
    (s.dirDrive b).dirLevel = if s.cfg.dirPresent then b else s.dirLevel := by
  unfold State.dirDrive; split <;> rfl
@[simp] theorem State.dirDrive_op (s : State) (b : Bool) : (s.dirDrive b).op = s.op := by
  unfold State.dirDrive; split <;> rfl
@[simp] theorem State.dirDrive_res (s : State) (b : Bool) : (s.dirDrive b).res = s.res := by
  unfold State.dirDrive; split <;> rfl
@[simp] theorem State.dirDrive_chkOk (s : State) (b : Bool) : (s.dirDrive b).chkOk = s.chkOk := by
  unfold State.dirDrive; split <;> rfl
@[simp] theorem State.dirDrive_buf (s : State) (b : Bool) : (s.dirDrive b).buf = s.buf := by
  unfold State.dirDrive; split <;> rfl
@[simp] theorem State.dirDrive_seq (s : State) (b : Bool) : (s.dirDrive b).seq = s.seq := by
  unfold State.dirDrive; split <;> rfl
@[simp] theorem State.dirDrive_records (s : State) (b : Bool) : (s.dirDrive b).records = s.records := by
  unfold State.dirDrive; split <;> rfl
@[simp] theorem State.dirDrive_line (s : State) (b : Bool) : (s.dirDrive b).line = s.line := by
  unfold State.dirDrive; split <;> rfl
@[simp] theorem State.dirDrive_script (s : State) (b : Bool) : (s.dirDrive b).script = s.script := by
  unfold State.dirDrive; split <;> rfl
@[simp] theorem State.dirDrive_host (s : State) (b : Bool) : (s.dirDrive b).host = s.host := by
  unfold State.dirDrive; split <;> rfl
@[simp] theorem State.dirDrive_history (s : State) (b : Bool) :
    (s.dirDrive b).history = s.history ++ if s.cfg.dirPresent then [.dir b] else [] := by
  unfold State.dirDrive; split <;> simp
@[simp] theorem State.dirDrive_draws (s : State) (b : Bool) : (s.dirDrive b).draws = s.draws := by
  unfold State.dirDrive; split <;> rfl

end Sys2Proof.Machine
end

