-- ==== Sys2Proof/Laws/Environment.lean ====
section
/-! SUPPORT. What the environment's moves and the primitives of R10 can do, said once: the line after some moves, how
a hold ends, and one lemma per primitive. -/

namespace Sys2Proof.Machine

/-- The line after some moves. -/
def Line.after (l : Line) (ms : List EnvMove) : Line := ms.foldl Line.move l

@[simp] theorem Line.after_nil (l : Line) : l.after [] = l := rfl
@[simp] theorem Line.after_cons (l : Line) (m : EnvMove) (ms : List EnvMove) :
    l.after (m :: ms) = (l.move m).after ms := rfl

theorem Line.after_append (l : Line) (ms ms' : List EnvMove) : l.after (ms ++ ms') = (l.after ms).after ms' := by
  simp [Line.after, List.foldl_append]

@[simp] theorem Line.move_clock (l : Line) (m : EnvMove) : (l.move m).clock = l.clock + BitVec.ofNat 32 m.elapse := rfl
@[simp] theorem Line.move_rxq (l : Line) (m : EnvMove) : (l.move m).rxq = l.rxq ++ m.arrive := rfl
@[simp] theorem Line.move_txq (l : Line) (m : EnvMove) : (l.move m).txq = l.txq.drop m.drain := rfl
@[simp] theorem Line.move_wire (l : Line) (m : EnvMove) : (l.move m).wire = l.wire ++ l.txq.take m.drain := rfl

/-- Bytes that arrive join the receive queue in order and nothing else touches it. -/
theorem Line.after_rxq (l : Line) (ms : List EnvMove) : (l.after ms).rxq = l.rxq ++ ms.flatMap EnvMove.arrive := by
  induction ms generalizing l with
  | nil => simp
  | cons m ms ih => simp [ih]

/-- Queued bytes leave in order: the wire followed by the queue never changes. -/
theorem Line.after_wire_txq (l : Line) (ms : List EnvMove) :
    (l.after ms).wire ++ (l.after ms).txq = l.wire ++ l.txq := by
  induction ms generalizing l with
  | nil => rfl
  | cons m ms ih => simp [ih]

/-- An empty transmit queue stays empty. -/
theorem Line.after_txq_nil {l : Line} (h : l.txq = []) (ms : List EnvMove) : (l.after ms).txq = [] := by
  induction ms generalizing l with
  | nil => exact h
  | cons m ms ih => exact ih (by simp [h])

/-- How a hold is lifted: after some of the moves, `ready` holds. -/
theorem awaitLine_lifted {ready : EnvMove → Line → Bool} {m m' : EnvMove} {l l' : Line} {script rest : List EnvMove}
    (h : awaitLine ready m l script = .lifted m' l' rest) :
    ready m' l' = true ∧ ∃ used, script = used ++ rest ∧ l' = l.after used := by
  induction script generalizing m l with
  | nil =>
    unfold awaitLine at h
    split at h
    · cases h; exact ⟨‹_›, [], rfl, rfl⟩
    · cases h
  | cons m₁ ms ih =>
    unfold awaitLine at h
    split at h
    · cases h; exact ⟨‹_›, [], rfl, rfl⟩
    · obtain ⟨hr, used, rfl, rfl⟩ := ih h
      exact ⟨hr, m₁ :: used, rfl, rfl⟩

/-- How a hold persists: all moves are made and `ready` does not hold. -/
theorem awaitLine_held {ready : EnvMove → Line → Bool} {m : EnvMove} {l l' : Line} {script : List EnvMove}
    (h : awaitLine ready m l script = .held l') : l' = l.after script ∧ ∃ m', ready m' l' = false := by
  induction script generalizing m l with
  | nil =>
    unfold awaitLine at h
    split at h
    · cases h
    · cases h; exact ⟨rfl, m, Bool.eq_false_iff.2 ‹_›⟩
  | cons m₁ ms ih =>
    unfold awaitLine at h
    split at h
    · cases h
    · exact ih h

/-- A hold that is lifted at once makes no move. -/
theorem awaitLine_of_ready {ready : EnvMove → Line → Bool} {m : EnvMove} {l : Line} (h : ready m l = true)
    (script : List EnvMove) : awaitLine ready m l script = .lifted m l script := by
  cases script <;> simp [awaitLine, h]

/-- A hold that is not lifted yet makes the next move. -/
theorem awaitLine_of_not_ready {ready : EnvMove → Line → Bool} {m : EnvMove} {l : Line} (h : ready m l = false)
    (m' : EnvMove) (script : List EnvMove) :
    awaitLine ready m l (m' :: script) = awaitLine ready m' (l.move m') script := by
  simp [awaitLine, h]

/-- A primitive that is done: the environment made some moves, `ready` held, and `finish` gave value and line. -/
theorem State.hold_done {α : Type} {s t : State} {ready : EnvMove → Line → Bool} {finish : EnvMove → Line → α × Line}
    {a : α} (h : s.hold ready finish = .done a t) :
    ∃ m used rest, s.script = used ++ rest ∧ ready m (s.line.after used) = true ∧
      a = (finish m (s.line.after used)).1 ∧
      t = { s with line := (finish m (s.line.after used)).2, script := rest } := by
  unfold State.hold at h
  split at h
  · cases h
  · rename_i m l script hl
    obtain ⟨hr, used, hs, rfl⟩ := awaitLine_lifted hl
    cases h
    exact ⟨m, used, script, hs, hr, rfl, rfl⟩

/-- A primitive that is held: the environment made all its moves and nothing else changed. -/
theorem State.hold_held {α : Type} {s t : State} {ready : EnvMove → Line → Bool} {finish : EnvMove → Line → α × Line}
    (h : s.hold ready finish = .held t) :
    t = { s with line := s.line.after s.script, script := [] } ∧ ∃ m, ready m t.line = false := by
  unfold State.hold at h
  split at h
  · rename_i l hl
    obtain ⟨rfl, m, hm⟩ := awaitLine_held hl
    cases h
    exact ⟨rfl, m, hm⟩
  · cases h

/-- With no move left, a hold that is not lifted leaves the state as it is. -/
theorem State.hold_of_still {α : Type} {s : State} {ready : EnvMove → Line → Bool} {finish : EnvMove → Line → α × Line}
    (hs : s.script = []) (hr : ready EnvMove.quiet s.line = false) : s.hold ready finish = .held s := by
  unfold State.hold
  rw [hs]
  simp only [awaitLine, hr, Bool.false_eq_true, if_false]
  rw [← hs]

/-! The primitives. -/

/-- Now(): at most one move is made. -/
theorem State.now_eq (s : State) :
    s.now = { s with line := s.line.after (s.script.take 1), script := s.script.drop 1 } := by
  unfold State.now State.envMove
  split
  · rename_i h; cases s; simp_all
  · rename_i h; simp [h]

/-- The wait for the clock: what it leaves, and the bound that lifted it (R164). -/
theorem State.waitClock_done {s t : State} {t0 remaining : Millis} {u : Unit}
    (h : s.waitClock t0 remaining = .done u t) :
    remaining ≤ sub32 t.line.clock t0 ∧
      ∃ used rest, s.script = used ++ rest ∧ t = { s with line := s.line.after used, script := rest } := by
  obtain ⟨m, used, rest, hs, hr, -, rfl⟩ := State.hold_done h
  exact ⟨by simpa using hr, used, rest, hs, rfl⟩

theorem State.waitClock_held {s t : State} {t0 remaining : Millis} (h : s.waitClock t0 remaining = .held t) :
    t = { s with line := s.line.after s.script, script := [] } ∧ sub32 t.line.clock t0 < remaining := by
  obtain ⟨ht, m, hm⟩ := State.hold_held h
  exact ⟨ht, by simpa using hm⟩

/-- StreamWrite: at most the whole frame is accepted, and what is accepted joins the transmit queue (R56). -/
theorem State.streamWrite_done {s t : State} {frame : List Byte} {n : Nat} (h : s.streamWrite frame = .done n t) :
    n ≤ frame.length ∧ ∃ used rest, s.script = used ++ rest ∧
      t = { s with
        line := { s.line.after used with txq := (s.line.after used).txq ++ frame.take n }, script := rest } := by
  obtain ⟨m, used, rest, hs, -, rfl, rfl⟩ := State.hold_done h
  exact ⟨Nat.min_le_right _ _, used, rest, hs, rfl⟩

theorem State.streamWrite_held {s t : State} {frame : List Byte} (h : s.streamWrite frame = .held t) :
    t = { s with line := s.line.after s.script, script := [] } :=
  (State.hold_held h).1

/-- StreamFlush: it returns with an empty transmit queue (R57). -/
theorem State.streamFlush_done {s t : State} {u : Unit} (h : s.streamFlush = .done u t) :
    t.line.txq = [] ∧
      ∃ used rest, s.script = used ++ rest ∧ t = { s with line := s.line.after used, script := rest } := by
  obtain ⟨m, used, rest, hs, hr, -, rfl⟩ := State.hold_done h
  exact ⟨by simpa using hr, used, rest, hs, rfl⟩

theorem State.streamFlush_held {s t : State} (h : s.streamFlush = .held t) :
    t = { s with line := s.line.after s.script, script := [] } ∧ t.line.txq ≠ [] := by
  obtain ⟨ht, m, hm⟩ := State.hold_held h
  exact ⟨ht, by simpa using hm⟩

/-- StreamRead: the first n bytes of the queue, fewer only on a stream that times out (R58). -/
theorem State.streamRead_done {s t : State} {n : Nat} {bs : List Byte} (h : s.streamRead n = .done bs t) :
    bs.length ≤ n ∧ (bs.length < n → s.params.streamTimeout = true) ∧
      ∃ used rest, s.script = used ++ rest ∧ (s.line.after used).rxq = bs ++ t.line.rxq ∧
        t = { s with line := { s.line.after used with rxq := t.line.rxq }, script := rest } := by
  obtain ⟨m, used, rest, hs, hr, rfl, rfl⟩ := State.hold_done h
  refine ⟨by simp, fun hlt => ?_, used, rest, hs, by simp, rfl⟩
  simp only [List.length_take] at hlt
  simp only [Bool.or_eq_true, decide_eq_true_eq, Bool.and_eq_true] at hr
  rcases hr with hr | hr
  · omega
  · exact hr.1

theorem State.streamRead_held {s t : State} {n : Nat} (h : s.streamRead n = .held t) :
    t = { s with line := s.line.after s.script, script := [] } ∧ t.line.rxq.length < n := by
  obtain ⟨ht, m, hm⟩ := State.hold_held h
  exact ⟨ht, by simp only [Bool.or_eq_false_iff, decide_eq_false_iff_not] at hm; omega⟩

/-! The primitives when what they need is there. -/

/-- A read of bytes that are already in the queue makes no move. -/
theorem State.streamRead_of_le {s : State} {n : Nat} (h : n ≤ s.line.rxq.length) :
    s.streamRead n = .done (s.line.rxq.take n) { s with line := { s.line with rxq := s.line.rxq.drop n } } := by
  unfold State.streamRead State.hold
  rw [awaitLine_of_ready (by simp [h])]

/-- A write answered by the next move. -/
theorem State.streamWrite_of_accept {s : State} {m : EnvMove} {later : List EnvMove} {n : Nat} {frame : List Byte}
    (hs : s.script = m :: later) (hm : m.accept = some n) :
    s.streamWrite frame = .done (min n frame.length)
      { s with
        line := { s.line.move m with txq := (s.line.move m).txq ++ frame.take (min n frame.length) }
        script := later } := by
  unfold State.streamWrite State.hold
  rw [hs, awaitLine_of_not_ready (by rfl), awaitLine_of_ready (by simp [hm])]
  simp [hm]

/-- A flush that the next move completes. -/
theorem State.streamFlush_of_drain {s : State} {m : EnvMove} {later : List EnvMove} (hs : s.script = m :: later)
    (hq : s.line.txq ≠ []) (hm : s.line.txq.length ≤ m.drain) :
    s.streamFlush = .done () { s with line := s.line.move m, script := later } := by
  unfold State.streamFlush State.hold
  rw [hs, awaitLine_of_not_ready (by simpa using hq), awaitLine_of_ready (by simpa using hm)]

end Sys2Proof.Machine
end

