-- ==== Sys2Proof/Laws/Memory.lean ====
section
/-! SUPPORT. The laws of the buffers: every operation keeps the canonical form, a read after a write gives the value
written, and a write leaves every other address alone. -/

namespace Sys2Proof.Machine

/-! Canonical form. -/

theorem Memory.risesFrom_mono {lo lo' : Nat} {m : Memory} (h : lo' ≤ lo) (hm : m.risesFrom lo = true) :
    Memory.risesFrom lo' m = true := by
  cases m with
  | nil => rfl
  | cons c m =>
    simp only [Memory.risesFrom, Bool.and_eq_true, decide_eq_true_eq] at hm ⊢
    exact ⟨⟨le_trans h hm.1.1, hm.1.2⟩, hm.2⟩

theorem Memory.risesFrom_write {lo : Nat} {m : Memory} (hm : m.risesFrom lo = true) {x : Nat} (hx : lo ≤ x)
    (v : Byte) : (m.write x v).risesFrom lo = true := by
  induction m generalizing lo with
  | nil => unfold Memory.write; split <;> simp_all [Memory.risesFrom]
  | cons c m ih =>
    obtain ⟨a, b⟩ := c
    simp only [Memory.risesFrom, Bool.and_eq_true, decide_eq_true_eq] at hm
    unfold Memory.write
    split
    · split
      · simp_all [Memory.risesFrom]
      · simp_all [Memory.risesFrom]
    · split
      · split
        · exact Memory.risesFrom_mono (by omega) hm.2
        · subst_vars; simp_all [Memory.risesFrom]
      · simp only [Memory.risesFrom, Bool.and_eq_true, decide_eq_true_eq]
        exact ⟨hm.1, ih hm.2 (by omega)⟩

/-- A write keeps the canonical form. -/
theorem Memory.wf_write {m : Memory} (hm : m.wf = true) (x : Nat) (v : Byte) : (m.write x v).wf = true :=
  Memory.risesFrom_write hm (Nat.zero_le x) v

/-- So does a run of writes. -/
theorem Memory.wf_writeRange {m : Memory} (hm : m.wf = true) (x : Nat) (bs : List Byte) :
    (m.writeRange x bs).wf = true := by
  induction bs generalizing m x with
  | nil => exact hm
  | cons b bs ih => exact ih (Memory.wf_write hm x b) (x + 1)

/-! Reads and writes. -/

theorem Memory.read_of_lt {lo : Nat} {m : Memory} (hm : m.risesFrom lo = true) {x : Nat} (hx : x < lo) :
    m.read x = Memory.unlisted := by
  induction m generalizing lo with
  | nil => rfl
  | cons c m ih =>
    obtain ⟨a, b⟩ := c
    simp only [Memory.risesFrom, Bool.and_eq_true, decide_eq_true_eq] at hm
    unfold Memory.read
    rw [if_neg (by omega)]
    exact ih hm.2 (by omega)

theorem Memory.read_write_risesFrom {lo : Nat} {m : Memory} (hm : m.risesFrom lo = true) (x y : Nat) (v : Byte) :
    (m.write x v).read y = if y = x then v else m.read y := by
  induction m generalizing lo with
  | nil =>
    unfold Memory.write
    by_cases hy : y = x
    · split <;> simp_all [Memory.read]
    · split <;> simp_all [Memory.read, Ne.symm hy]
  | cons c m ih =>
    obtain ⟨a, b⟩ := c
    simp only [Memory.risesFrom, Bool.and_eq_true, decide_eq_true_eq] at hm
    have hlow : ∀ z, z ≤ a → Memory.read m z = Memory.unlisted := fun z hz => Memory.read_of_lt hm.2 (by omega)
    unfold Memory.write
    split
    · rename_i hxa
      split
      · subst_vars
        by_cases hy : y = x
        · subst hy
          rw [if_pos rfl, Memory.read, if_neg (by omega), hlow y (by omega)]
        · rw [if_neg hy]
      · by_cases hy : y = x
        · simp [Memory.read, hy]
        · simp [Memory.read, hy, Ne.symm hy]
    · split
      · subst_vars
        split
        · subst_vars
          by_cases hy : y = a
          · subst hy; simp [hlow y le_rfl]
          · simp [Memory.read, hy, eq_comm]
        · by_cases hy : y = a
          · simp [Memory.read, hy]
          · simp [Memory.read, hy, eq_comm]
      · rename_i h1 h2
        have := ih hm.2
        by_cases hy : a = y
        · subst hy; simp [Memory.read, Ne.symm h2]
        · simp [Memory.read, hy, this]

/-- A read after a write, at any two addresses, of a canonical buffer. -/
theorem Memory.read_write {m : Memory} (hm : m.wf = true) (x y : Nat) (v : Byte) :
    (m.write x v).read y = if y = x then v else m.read y :=
  Memory.read_write_risesFrom hm x y v

/-- A run of writes: inside it the byte of the sequence, outside it what was there. -/
theorem Memory.read_writeRange {m : Memory} (hm : m.wf = true) (x y : Nat) (bs : List Byte) :
    (m.writeRange x bs).read y = if h : x ≤ y ∧ y - x < bs.length then bs[y - x]'h.2 else m.read y := by
  induction bs generalizing m x with
  | nil => simp [Memory.writeRange]
  | cons b bs ih =>
    rw [Memory.writeRange, ih (Memory.wf_write hm x b), Memory.read_write hm]
    by_cases h1 : x + 1 ≤ y ∧ y - (x + 1) < bs.length
    · rw [dif_pos h1, dif_pos ⟨by omega, by simp; omega⟩]
      obtain ⟨k, rfl⟩ : ∃ k, y = x + 1 + k := ⟨y - (x + 1), by omega⟩
      simp only [Nat.add_sub_cancel_left, show x + 1 + k - x = k + 1 by omega, List.getElem_cons_succ]
    · rw [dif_neg h1]
      by_cases hy : y = x
      · subst hy; simp
      · rw [if_neg hy, dif_neg (by simp only [List.length_cons]; omega)]

/-- A run of writes leaves every address outside it alone. -/
theorem Memory.read_writeRange_of_outside {m : Memory} (hm : m.wf = true) {x y : Nat} {bs : List Byte}
    (h : y < x ∨ x + bs.length ≤ y) : (m.writeRange x bs).read y = m.read y := by
  rw [Memory.read_writeRange hm, dif_neg (by omega)]

@[simp] theorem Memory.readRange_length (m : Memory) (x n : Nat) : (m.readRange x n).length = n := by
  induction n generalizing x with
  | zero => rfl
  | succ n ih => simp [Memory.readRange, ih]

theorem Memory.readRange_eq_map (m : Memory) (x n : Nat) :
    m.readRange x n = (List.range n).map fun i => m.read (x + i) := by
  induction n generalizing x with
  | zero => rfl
  | succ n ih =>
    rw [Memory.readRange, ih, List.range_succ_eq_map]
    simp [Nat.add_assoc, Nat.add_comm 1]

/-- Reading back what was written. -/
theorem Memory.readRange_writeRange {m : Memory} (hm : m.wf = true) (x : Nat) (bs : List Byte) :
    (m.writeRange x bs).readRange x bs.length = bs := by
  rw [Memory.readRange_eq_map]
  apply List.ext_getElem
  · simp
  · intro i h1 h2
    simp only [List.getElem_map, List.getElem_range, Memory.read_writeRange hm]
    rw [dif_pos ⟨by omega, by omega⟩]
    simp

/-! Bounds. -/

theorem Memory.mem_write {m : Memory} {x : Nat} {v : Byte} {c : Host.Cell} (h : c ∈ m.write x v) :
    c ∈ m ∨ c = (x, v) := by
  induction m with
  | nil => unfold Memory.write at h; split at h <;> simp_all
  | cons d m ih =>
    unfold Memory.write at h
    split at h
    · split at h <;> (simp_all; try tauto)
    · split at h
      · split at h <;> (simp_all; try tauto)
      · rcases List.mem_cons.1 h with h | h
        · exact .inl (h ▸ List.mem_cons_self)
        · exact (ih h).imp_left (List.mem_cons_of_mem _)

theorem Memory.mem_writeRange {m : Memory} {x : Nat} {bs : List Byte} {c : Host.Cell} (h : c ∈ m.writeRange x bs) :
    c ∈ m ∨ c.1 < x + bs.length := by
  induction bs generalizing m x with
  | nil => exact .inl h
  | cons b bs ih =>
    rcases ih h with h | h
    · rcases Memory.mem_write h with h | h
      · exact .inl h
      · subst h; exact .inr (by simp)
    · exact .inr (by simp only [List.length_cons]; omega)

/-! The buffers of the state. -/

@[simp] theorem Buffers.get_set_self (b : Buffers) (m : Memory) (sp : Space) : (b.set m sp).get sp = m := by
  cases sp <;> rfl

theorem Buffers.get_set_of_ne (b : Buffers) (m : Memory) {sp sp' : Space} (h : sp' ≠ sp) :
    (b.set m sp).get sp' = b.get sp' := by
  cases sp <;> cases sp' <;> first | rfl | exact absurd rfl h

/-- MemWrite answers exactly inside the buffer, and changes that buffer alone. -/
theorem State.memWrite_eq_some {s t : State} {sp : Space} {x : Nat} {bs : List Byte} :
    s.memWrite sp x bs = some t ↔
      x + bs.length ≤ sp.size s.params ∧
        t = { s with buf := s.buf.set ((s.buf.get sp).writeRange x bs) sp } := by
  unfold State.memWrite
  split
  · simp_all [eq_comm]
  · simp_all

theorem State.memWrite_eq_none {s : State} {sp : Space} {x : Nat} {bs : List Byte} :
    s.memWrite sp x bs = none ↔ sp.size s.params < x + bs.length := by
  unfold State.memWrite
  split <;> simp_all

/-- MemRead answers exactly inside the buffer. -/
theorem State.memRead_eq_some {s : State} {sp : Space} {x n : Nat} {bs : List Byte} :
    s.memRead sp x n = some bs ↔ x + n ≤ sp.size s.params ∧ bs = (s.buf.get sp).readRange x n := by
  unfold State.memRead
  split
  · simp_all [eq_comm]
  · simp_all

theorem State.memRead_eq_none {s : State} {sp : Space} {x n : Nat} :
    s.memRead sp x n = none ↔ sp.size s.params < x + n := by
  unfold State.memRead
  split <;> simp_all

theorem State.memRead_length {s : State} {sp : Space} {x n : Nat} {bs : List Byte} (h : s.memRead sp x n = some bs) :
    bs.length = n := by
  rw [(State.memRead_eq_some.1 h).2, Memory.readRange_length]

/-- The buffers of the reset state are in canonical form. -/
theorem State.reset_canonical (sp : Space) : (State.reset.buf.get sp).wf = true := by
  cases sp <;> rfl

end Sys2Proof.Machine
end

