-- ==== Sys2Proof/Laws/Phases.lean ====
section
/-! SUPPORT. One lemma per phase that says everything its transition can do: the state it moves to, the state it is
held in, and when it would index outside a buffer. -/

namespace Sys2Proof.Machine

/-- The environment has made the moves `used` of the script and `rest` are left. -/
def State.envAfter (s : State) (used rest : List EnvMove) : State :=
  { s with line := s.line.after used, script := rest }

/-- The state with one buffer written from index 0 on. -/
def State.stored (s : State) (sp : Space) (bs : List Byte) : State :=
  { s with buf := s.buf.set ((s.buf.get sp).writeRange 0 bs) sp }

@[simp] theorem State.stored_res (s : State) (sp : Space) (bs : List Byte) : (s.stored sp bs).res = s.res := rfl
@[simp] theorem State.stored_seq (s : State) (sp : Space) (bs : List Byte) : (s.stored sp bs).seq = s.seq := rfl

theorem State.storing_moved {s t : State} {sp : Space} {bs : List Byte} {k : State → State}
    (h : s.storing sp bs k = .moved t) : bs.length ≤ sp.size s.params ∧ t = k (s.stored sp bs) := by
  unfold State.storing at h
  split at h
  · cases h
  · rename_i s' hw
    obtain ⟨hb, rfl⟩ := State.memWrite_eq_some.1 hw
    cases h
    exact ⟨by omega, rfl⟩

theorem State.storing_not_held {s t : State} {sp : Space} {bs : List Byte} {k : State → State} :
    s.storing sp bs k ≠ .held t := by
  unfold State.storing
  split <;> simp

theorem State.storing_stopped {s : State} {sp : Space} {bs : List Byte} {k : State → State} {f : Fault}
    (h : s.storing sp bs k = .stopped f) : sp.size s.params < bs.length := by
  unfold State.storing at h
  split at h
  · rename_i hw
    have := State.memWrite_eq_none.1 hw
    omega
  · cases h

/-! ENCODING -/

theorem encodeFrame_length {dir cmd : Byte} {payload frame : List Byte}
    (h : encodeFrame dir cmd payload = some frame) : frame.length = 7 + payload.length ∧ payload.length < 31 := by
  unfold encodeFrame at h
  split at h
  · cases h
  · rename_i c hc
    cases h
    refine ⟨by simp; omega, ?_⟩
    unfold checksum at hc
    by_contra hlen
    rw [if_pos (by simpa [Config.CHK_LIMIT] using hlen)] at hc
    cases hc

theorem phaseEncoding_moved {s t : State} (h : phaseEncoding s = .moved t) :
    (encodeFrame s.op.dir s.op.cmd s.op.payload = none ∧
      t = { s with chkOk := false }.raise .encPayloadTooLong) ∨
    ∃ frame, encodeFrame s.op.dir s.op.cmd s.op.payload = some frame ∧
      t = { { s with chkOk := true }.stored .txbuf frame with
            seq := { s.seq with txLen := frame.length } }.goto .wait := by
  unfold phaseEncoding at h
  split at h
  · rename_i hf; cases h; exact .inl ⟨hf, rfl⟩
  · rename_i frame hf
    exact .inr ⟨frame, hf, (State.storing_moved h).2⟩

theorem phaseEncoding_not_held {s t : State} : phaseEncoding s ≠ .held t := by
  unfold phaseEncoding
  split
  · simp
  · exact State.storing_not_held

theorem phaseEncoding_not_stopped {s : State} {f : Fault} : phaseEncoding s ≠ .stopped f := by
  intro h
  unfold phaseEncoding at h
  split at h
  · cases h
  · rename_i frame hf
    have := State.storing_stopped h
    have := encodeFrame_length hf
    simp only [Space.size, Config.TXBUF_SIZE] at *
    omega

/-! WAIT -/

theorem waitRemaining_moved {s t : State} {t0 : Millis} (h : waitRemaining s t0 = .moved t) :
    ∃ used rest, s.script = used ++ rest ∧
      s.cfg.cmdDelayMs - sub32 t0 s.lastDone ≤ sub32 (s.line.after used).clock t0 ∧
      t = { s.envAfter used rest with seq := { s.seq with waitStart := none } }.goto .txEnable := by
  unfold waitRemaining at h
  split at h
  · cases h
  · rename_i u s' hw
    obtain ⟨hb, used, rest, hs, rfl⟩ := State.waitClock_done hw
    cases h
    exact ⟨used, rest, hs, hb, rfl⟩

theorem waitRemaining_held {s t : State} {t0 : Millis} (h : waitRemaining s t0 = .held t) :
    sub32 (s.line.after s.script).clock t0 < s.cfg.cmdDelayMs - sub32 t0 s.lastDone ∧
      t = { s.envAfter s.script [] with seq := { s.seq with waitStart := some t0 } } := by
  unfold waitRemaining at h
  split at h
  · rename_i s' hw
    obtain ⟨rfl, hb⟩ := State.waitClock_held hw
    cases h
    exact ⟨hb, rfl⟩
  · cases h

theorem waitRemaining_not_stopped {s : State} {t0 : Millis} {f : Fault} : waitRemaining s t0 ≠ .stopped f := by
  unfold waitRemaining
  split <;> simp

/-- Now() makes the first move of the script, if there is one. -/
theorem State.now_cases (s : State) :
    ∃ first later, s.script = first ++ later ∧ first = s.script.take 1 ∧ s.now = s.envAfter first later :=
  ⟨_, _, (List.take_append_drop 1 s.script).symm, rfl, s.now_eq⟩

/-- WAIT is left with the spacing bound met: at once, or after a hold from t0 on. -/
theorem phaseWait_moved {s t : State} (h : phaseWait s = .moved t) :
    ∃ used rest, s.script = used ++ rest ∧
      ((s.seq.waitStart = none ∧ used = s.script.take 1 ∧
          s.cfg.cmdDelayMs ≤ sub32 (s.line.after used).clock s.lastDone ∧
          t = (s.envAfter used rest).goto .txEnable) ∨
        ∃ t0, (s.seq.waitStart = some t0 ∨
              (s.seq.waitStart = none ∧ t0 = s.now.line.clock ∧ sub32 t0 s.lastDone < s.cfg.cmdDelayMs)) ∧
          s.cfg.cmdDelayMs - sub32 t0 s.lastDone ≤ sub32 (s.line.after used).clock t0 ∧
          t = { s.envAfter used rest with seq := { s.seq with waitStart := none } }.goto .txEnable) := by
  unfold phaseWait at h
  split at h
  · rename_i t0 h0
    obtain ⟨used, rest, hs, hb, rfl⟩ := waitRemaining_moved h
    exact ⟨used, rest, hs, .inr ⟨t0, .inl h0, hb, rfl⟩⟩
  · rename_i h0
    obtain ⟨first, later, hs, hf, hn⟩ := s.now_cases
    rw [hn] at h
    split at h
    · rename_i hlt
      obtain ⟨used, rest, hs', hb, rfl⟩ := waitRemaining_moved h
      simp only [State.envAfter] at hs' hb
      refine ⟨first ++ used, rest, by rw [hs, hs', List.append_assoc],
        .inr ⟨(s.line.after first).clock, .inr ⟨h0, by rw [hn]; rfl, hlt⟩, ?_, ?_⟩⟩
      · rw [Line.after_append]; exact hb
      · simp only [State.envAfter, Line.after_append]
    · rename_i hge
      cases h
      exact ⟨first, later, hs, .inl ⟨h0, hf, BitVec.not_lt.1 hge, rfl⟩⟩

/-- WAIT is held with t0 remembered. -/
theorem phaseWait_held {s t : State} (h : phaseWait s = .held t) :
    ∃ t0, (s.seq.waitStart = some t0 ∨
          (s.seq.waitStart = none ∧ t0 = s.now.line.clock ∧ sub32 t0 s.lastDone < s.cfg.cmdDelayMs)) ∧
      sub32 (s.line.after s.script).clock t0 < s.cfg.cmdDelayMs - sub32 t0 s.lastDone ∧
      t = { s.envAfter s.script [] with seq := { s.seq with waitStart := some t0 } } := by
  unfold phaseWait at h
  split at h
  · rename_i t0 h0
    obtain ⟨hb, rfl⟩ := waitRemaining_held h
    exact ⟨t0, .inl h0, hb, rfl⟩
  · rename_i h0
    obtain ⟨first, later, hs, -, hn⟩ := s.now_cases
    rw [hn] at h
    split at h
    · rename_i hlt
      obtain ⟨hb, rfl⟩ := waitRemaining_held h
      refine ⟨(s.line.after first).clock, .inr ⟨h0, by rw [hn]; rfl, hlt⟩, ?_, ?_⟩
      · rw [hs, Line.after_append]; exact hb
      · rw [hs]; simp only [State.envAfter, Line.after_append]
    · cases h

theorem phaseWait_not_stopped {s : State} {f : Fault} : phaseWait s ≠ .stopped f := by
  unfold phaseWait
  split
  · exact waitRemaining_not_stopped
  · split
    · exact waitRemaining_not_stopped
    · simp

/-! TX_ENABLE -/

theorem phaseTxEnable_moved {s t : State} (h : phaseTxEnable s = .moved t) :
    t = (s.dirDrive s.params.dirTxLevel).goto .transmitting := by
  unfold phaseTxEnable at h
  cases h
  rfl

/-! TRANSMITTING -/

theorem phaseTransmitting_moved {s t : State} (h : phaseTransmitting s = .moved t) :
    ∃ frame n used rest, s.memRead .txbuf 0 s.seq.txLen = some frame ∧ n ≤ frame.length ∧
      s.script = used ++ rest ∧
      t = ({ s with
          line := { s.line.after used with txq := (s.line.after used).txq ++ frame.take n }
          script := rest
          seq := { s.seq with txCount := n } }.emit (.tx frame n)).goto .flush := by
  unfold phaseTransmitting at h
  split at h
  · cases h
  · rename_i frame hf
    split at h
    · cases h
    · rename_i n s' hw
      obtain ⟨hn, used, rest, hs, rfl⟩ := State.streamWrite_done hw
      cases h
      exact ⟨frame, n, used, rest, hf, hn, hs, rfl⟩

theorem phaseTransmitting_held {s t : State} (h : phaseTransmitting s = .held t) : t = s.envAfter s.script [] := by
  unfold phaseTransmitting at h
  split at h
  · cases h
  · split at h
    · rename_i s' hw
      cases h
      exact State.streamWrite_held hw
    · cases h

theorem phaseTransmitting_stopped {s : State} {f : Fault} (h : phaseTransmitting s = .stopped f) :
    Config.TXBUF_SIZE < s.seq.txLen := by
  unfold phaseTransmitting at h
  split at h
  · rename_i hf
    have := State.memRead_eq_none.1 hf
    simpa [Space.size] using this
  · split at h <;> cases h

/-! FLUSH -/

theorem phaseFlush_moved {s t : State} (h : phaseFlush s = .moved t) :
    ∃ used rest, s.script = used ++ rest ∧ (s.line.after used).txq = [] ∧
      t = ((s.envAfter used rest).emit .flush).goto .directionSwitch := by
  unfold phaseFlush at h
  split at h
  · cases h
  · rename_i u s' hw
    obtain ⟨hq, used, rest, hs, rfl⟩ := State.streamFlush_done hw
    cases h
    exact ⟨used, rest, hs, hq, rfl⟩

theorem phaseFlush_held {s t : State} (h : phaseFlush s = .held t) :
    t = s.envAfter s.script [] ∧ t.line.txq ≠ [] := by
  unfold phaseFlush at h
  split at h
  · rename_i s' hw
    cases h
    exact State.streamFlush_held hw
  · cases h

theorem phaseFlush_not_stopped {s : State} {f : Fault} : phaseFlush s ≠ .stopped f := by
  unfold phaseFlush
  split <;> simp

/-! DIRECTION_SWITCH -/

theorem phaseDirectionSwitch_moved {s t : State} (h : phaseDirectionSwitch s = .moved t) :
    (s.seq.txCount ≠ s.seq.txLen ∧ t = (s.dirDrive (!s.params.dirTxLevel)).raise .ioShortWrite) ∨
    (s.seq.txCount = s.seq.txLen ∧ t = (s.dirDrive (!s.params.dirTxLevel)).goto .receivingHeader) := by
  unfold phaseDirectionSwitch at h
  dsimp only at h
  split at h
  · rename_i hn; cases h; exact .inl ⟨hn, rfl⟩
  · rename_i hn; cases h; exact .inr ⟨by simpa using hn, rfl⟩

/-! The receiving phases -/

/-- The state after a read: the bytes are taken from the queue and recorded. -/
def State.taken (s : State) (used rest : List EnvMove) (rxq : List Byte) (bs : List Byte) : State :=
  { s with line := { s.line.after used with rxq := rxq }, script := rest, history := s.history ++ [.rx bs] }

@[simp] theorem State.taken_res (s : State) (used rest : List EnvMove) (rxq bs : List Byte) :
    (s.taken used rest rxq bs).res = s.res := rfl
@[simp] theorem State.taken_params (s : State) (used rest : List EnvMove) (rxq bs : List Byte) :
    (s.taken used rest rxq bs).params = s.params := rfl
@[simp] theorem State.taken_op (s : State) (used rest : List EnvMove) (rxq bs : List Byte) :
    (s.taken used rest rxq bs).op = s.op := rfl

/-- What a read of n bytes did: the bytes came off the front of the queue, and were fewer than n only on a stream that
times out. -/
structure ReadOf (s : State) (n : Nat) (bs rxq : List Byte) (used rest : List EnvMove) : Prop where
  script : s.script = used ++ rest
  bound : bs.length ≤ n
  short : bs.length < n → s.params.streamTimeout = true
  queue : (s.line.after used).rxq = bs ++ rxq

theorem State.streamRead_readOf {s t : State} {n : Nat} {bs : List Byte} (h : s.streamRead n = .done bs t) :
    ∃ used rest rxq, ReadOf s n bs rxq used rest ∧ t.emit (.rx bs) = s.taken used rest rxq bs := by
  obtain ⟨hb, hs, used, rest, hu, hq, ht⟩ := State.streamRead_done h
  refine ⟨used, rest, t.line.rxq, ⟨hu, hb, hs, hq⟩, ?_⟩
  rw [ht]
  rfl

theorem phaseReceivingHeader_moved {s t : State} (h : phaseReceivingHeader s = .moved t) :
    ∃ bs used rest rxq, ReadOf s 4 bs rxq used rest ∧
      ((bs.length < 4 ∧ t = ((s.taken used rest rxq bs).stored .rxhdr bs).raise .ioShortReadHeader) ∨
        ∃ start echo code len, bs = [start, echo, code, len] ∧
          t = (((s.taken used rest rxq bs).stored .rxhdr bs).latchHeader echo code len).afterHeader len) := by
  unfold phaseReceivingHeader at h
  split at h
  · cases h
  · rename_i bs s' hr
    obtain ⟨used, rest, rxq, hro, he⟩ := State.streamRead_readOf hr
    rw [he] at h
    obtain ⟨-, rfl⟩ := State.storing_moved h
    refine ⟨bs, used, rest, rxq, hro, ?_⟩
    have hb : bs.length ≤ 4 := hro.bound
    clear hr he h hro
    match bs, hb with
    | [a, b, c, d], _ => exact .inr ⟨a, b, c, d, rfl, rfl⟩
    | [], _ => exact .inl ⟨by simp, rfl⟩
    | [a], _ => exact .inl ⟨by simp, rfl⟩
    | [a, b], _ => exact .inl ⟨by simp, rfl⟩
    | [a, b, c], _ => exact .inl ⟨by simp, rfl⟩
    | a :: b :: c :: d :: e :: r, hb => simp at hb; omega

theorem phaseReceivingHeader_held {s t : State} (h : phaseReceivingHeader s = .held t) :
    t = s.envAfter s.script [] ∧ t.line.rxq.length < 4 := by
  unfold phaseReceivingHeader at h
  split at h
  · rename_i s' hr
    cases h
    exact State.streamRead_held hr
  · exact absurd h State.storing_not_held

theorem phaseReceivingHeader_not_stopped {s : State} {f : Fault} : phaseReceivingHeader s ≠ .stopped f := by
  intro h
  unfold phaseReceivingHeader at h
  split at h
  · cases h
  · rename_i bs s' hr
    have := (State.streamRead_done hr).1
    have := State.storing_stopped h
    simp only [Space.size] at this
    omega

/-- Where a full header leads. -/
theorem State.afterHeader_eq (s : State) (len : Byte) :
    (len = 0 ∧ s.afterHeader len = s.goto .receivingTrailer) ∨
    (s.op.cap < len.toNat ∧ s.afterHeader len = s.raise .ioBufferTooSmall) ∨
    (0 < len.toNat ∧ len.toNat ≤ s.op.cap ∧ s.afterHeader len = s.goto .receivingPayload) := by
  unfold State.afterHeader
  split
  · exact .inl ⟨‹_›, rfl⟩
  · rename_i h0
    split
    · exact .inr (.inl ⟨‹_›, rfl⟩)
    · refine .inr (.inr ⟨?_, by omega, rfl⟩)
      rcases Nat.eq_zero_or_pos len.toNat with hz | hp
      · exact absurd (BitVec.eq_of_toNat_eq hz) h0
      · exact hp

theorem phaseReceivingPayload_moved {s t : State} (h : phaseReceivingPayload s = .moved t) :
    ∃ bs used rest rxq, ReadOf s s.res.len.toNat bs rxq used rest ∧ bs.length ≤ s.params.rxbufSize ∧
      ((bs.length < s.res.len.toNat ∧
          t = ((s.taken used rest rxq bs).stored .rxbuf bs).raise .ioShortReadPayload) ∨
        (bs.length = s.res.len.toNat ∧
          t = ((s.taken used rest rxq bs).stored .rxbuf bs).goto .receivingTrailer)) := by
  unfold phaseReceivingPayload at h
  split at h
  · cases h
  · rename_i bs s' hr
    obtain ⟨used, rest, rxq, hro, he⟩ := State.streamRead_readOf hr
    rw [he] at h
    obtain ⟨hsz, rfl⟩ := State.storing_moved h
    refine ⟨bs, used, rest, rxq, hro, hsz, ?_⟩
    have := hro.bound
    split
    · exact .inl ⟨by omega, rfl⟩
    · exact .inr ⟨by omega, rfl⟩

theorem phaseReceivingPayload_held {s t : State} (h : phaseReceivingPayload s = .held t) :
    t = s.envAfter s.script [] ∧ t.line.rxq.length < s.res.len.toNat := by
  unfold phaseReceivingPayload at h
  split at h
  · rename_i s' hr
    cases h
    exact State.streamRead_held hr
  · exact absurd h State.storing_not_held

theorem phaseReceivingPayload_stopped {s : State} {f : Fault} (h : phaseReceivingPayload s = .stopped f) :
    s.params.rxbufSize < s.res.len.toNat := by
  unfold phaseReceivingPayload at h
  split at h
  · cases h
  · rename_i bs s' hr
    obtain ⟨used, rest, rxq, hro, he⟩ := State.streamRead_readOf hr
    rw [he] at h
    have := State.storing_stopped h
    have := hro.bound
    simp only [Space.size, State.taken_params] at *
    omega

theorem phaseReceivingTrailer_moved {s t : State} (h : phaseReceivingTrailer s = .moved t) :
    ∃ bs used rest rxq, ReadOf s 3 bs rxq used rest ∧
      ((bs.length < 3 ∧ t = ((s.taken used rest rxq bs).stored .rxtrl bs).raise .ioShortReadTrailer) ∨
        (bs.length = 3 ∧ t = ((s.taken used rest rxq bs).stored .rxtrl bs).goto .validating)) := by
  unfold phaseReceivingTrailer at h
  split at h
  · cases h
  · rename_i bs s' hr
    obtain ⟨used, rest, rxq, hro, he⟩ := State.streamRead_readOf hr
    rw [he] at h
    obtain ⟨-, rfl⟩ := State.storing_moved h
    refine ⟨bs, used, rest, rxq, hro, ?_⟩
    have : bs.length ≤ 3 := hro.bound
    split
    · rename_i hne
      exact .inl ⟨by simp only [Config.RSP_TRL] at hne; omega, rfl⟩
    · rename_i heq
      exact .inr ⟨by simp only [Config.RSP_TRL] at heq; omega, rfl⟩

theorem phaseReceivingTrailer_held {s t : State} (h : phaseReceivingTrailer s = .held t) :
    t = s.envAfter s.script [] ∧ t.line.rxq.length < 3 := by
  unfold phaseReceivingTrailer at h
  split at h
  · rename_i s' hr
    cases h
    exact State.streamRead_held hr
  · exact absurd h State.storing_not_held

theorem phaseReceivingTrailer_not_stopped {s : State} {f : Fault} : phaseReceivingTrailer s ≠ .stopped f := by
  intro h
  unfold phaseReceivingTrailer at h
  split at h
  · cases h
  · rename_i bs s' hr
    have := (State.streamRead_done hr).1
    have := State.storing_stopped h
    simp only [Space.size] at this
    omega

/-! VALIDATING -/

theorem State.response_eq_some {s : State} {bytes : List Byte} :
    s.response = some bytes ↔ s.res.len.toNat ≤ s.params.rxbufSize ∧
      bytes = s.buf.rxhdr.readRange 0 4 ++ s.buf.rxbuf.readRange 0 s.res.len.toNat ++
        s.buf.rxtrl.readRange 0 3 := by
  unfold State.response State.memRead
  by_cases h : s.res.len.toNat ≤ s.params.rxbufSize
  · simp [Space.size, Config.RSP_HDR, Config.RSP_TRL, Buffers.get, h, eq_comm]
  · simp [Space.size, Config.RSP_HDR, Config.RSP_TRL, Buffers.get, h]

theorem phaseValidating_moved {s t : State} (h : phaseValidating s = .moved t) :
    ∃ bytes, s.response = some bytes ∧
      t = { s with chkOk := (parseResponse bytes).chk.getD s.chkOk }.raise (parseResponse bytes).result.reason := by
  unfold phaseValidating at h
  split at h
  · cases h
  · rename_i bytes hb
    cases h
    exact ⟨bytes, hb, rfl⟩

theorem phaseValidating_not_held {s t : State} : phaseValidating s ≠ .held t := by
  unfold phaseValidating
  split <;> simp

theorem phaseValidating_stopped {s : State} {f : Fault} (h : phaseValidating s = .stopped f) :
    s.params.rxbufSize < s.res.len.toNat := by
  unfold phaseValidating at h
  split at h
  · rename_i hn
    by_contra hle
    rw [State.response_eq_some.2 ⟨by omega, rfl⟩] at hn
    cases hn
  · cases h

/-! STAMP -/

theorem phaseStamp_moved {s t : State} (h : phaseStamp s = .moved t) :
    (s.res.err ≠ .ok ∧ t = s.stampAndReturn.answer (.failed s.res.err)) ∨
    (s.res.err = .ok ∧ s.res.len.toNat ≤ s.params.rxbufSize ∧
      t = s.stampAndReturn.deliver (s.buf.rxbuf.readRange 0 s.res.len.toNat)) := by
  unfold phaseStamp at h
  dsimp only at h
  split at h
  · rename_i he
    split at h
    · cases h
    · rename_i payload hp
      obtain ⟨hb, rfl⟩ := State.memRead_eq_some.1 hp
      cases h
      exact .inr ⟨he, by simpa [Space.size] using hb, by simp [Buffers.get]⟩
  · rename_i he
    cases h
    exact .inl ⟨he, rfl⟩

theorem phaseStamp_not_held {s t : State} : phaseStamp s ≠ .held t := by
  unfold phaseStamp
  dsimp only
  split
  · split <;> simp
  · simp

theorem phaseStamp_stopped {s : State} {f : Fault} (h : phaseStamp s = .stopped f) :
    s.res.err = .ok ∧ s.params.rxbufSize < s.res.len.toNat := by
  unfold phaseStamp at h
  dsimp only at h
  split at h
  · rename_i he
    split at h
    · rename_i hp
      have := State.memRead_eq_none.1 hp
      exact ⟨he, by simpa [Space.size] using this⟩
    · cases h
  · cases h

/-! What every command's delivery leaves alone (R190): it touches the record registers, the free-value counter and the
value returned. -/

/-- The fields a delivery leaves alone. -/
structure SameButRecords (s t : State) : Prop where
  params : t.params = s.params
  cfg : t.cfg = s.cfg
  phase : t.phase = s.phase
  lastDone : t.lastDone = s.lastDone
  dirLevel : t.dirLevel = s.dirLevel
  op : t.op = s.op
  res : t.res = s.res
  chkOk : t.chkOk = s.chkOk
  buf : t.buf = s.buf
  seq : t.seq = s.seq
  line : t.line = s.line
  script : t.script = s.script
  requests : t.host.requests = s.host.requests
  history : t.history = s.history

theorem State.deliver_same (s : State) (payload : List Byte) : SameButRecords s (s.deliver payload) := by
  unfold State.deliver
  split <;> exact ⟨rfl, rfl, rfl, rfl, rfl, rfl, rfl, rfl, rfl, rfl, rfl, rfl, rfl, rfl⟩

end Sys2Proof.Machine
end

