-- ==== Sys2Proof/Laws/Codec.lean ====
section
/-! SUPPORT. The byte and checksum functions said once: what a checksum is, when there is one, what the encoder
answers, and the bytes of a word. -/

namespace Sys2Proof.Machine

/-! Bytes and words (R7). -/

theorem be16_toNat (a b : Byte) : (be16 a b).toNat = a.toNat * 256 + b.toNat := by
  have := b.isLt
  simp only [be16, BitVec.toNat_append]
  rw [← Nat.shiftLeft_add_eq_or_of_lt (by omega), Nat.shiftLeft_eq]

theorem hi8_toNat (v : Word) : (hi8 v).toNat = v.toNat / 256 := by
  have := v.isLt
  simp only [hi8, BitVec.extractLsb'_toNat, Nat.shiftRight_eq_div_pow]
  omega

theorem lo8_toNat (v : Word) : (lo8 v).toNat = v.toNat % 256 := by
  simp [lo8, BitVec.extractLsb'_toNat]

@[simp] theorem be16_hi8_lo8 (v : Word) : be16 (hi8 v) (lo8 v) = v := by
  apply BitVec.eq_of_toNat_eq
  rw [be16_toNat, hi8_toNat, lo8_toNat]
  omega

@[simp] theorem hi8_be16 (a b : Byte) : hi8 (be16 a b) = a := by
  apply BitVec.eq_of_toNat_eq
  have := b.isLt
  rw [hi8_toNat, be16_toNat]
  omega

@[simp] theorem lo8_be16 (a b : Byte) : lo8 (be16 a b) = b := by
  apply BitVec.eq_of_toNat_eq
  have := b.isLt
  rw [lo8_toNat, be16_toNat]
  omega

theorem be32_bytes32 (v : Millis) :
    be32 (v.extractLsb' 24 8) (v.extractLsb' 16 8) (v.extractLsb' 8 8) (v.extractLsb' 0 8) = v := by
  apply BitVec.eq_of_getLsbD_eq
  intro i hi
  simp only [be32, BitVec.getLsbD_append, BitVec.getLsbD_extractLsb']
  by_cases h1 : i < 8
  · simp [h1]
  · by_cases h2 : i - 8 < 8
    · simp [h1, h2]; congr 1; omega
    · by_cases h3 : i - 8 - 8 < 8
      · simp [h1, h2, h3]; congr 1; omega
      · simp only [h1, h2, h3, decide_false]
        simp only [show i - 8 - 8 - 8 < 8 by omega, decide_true, Bool.true_and]
        simp only [if_false]
        congr 1
        omega

/-! Sums (R8, R112). -/

theorem byteSum_le (bs : List Byte) : byteSum bs ≤ 255 * bs.length := by
  induction bs with
  | nil => simp [byteSum]
  | cons b bs ih =>
    have := b.isLt
    simp only [byteSum, List.map_cons, List.sum_cons, List.length_cons] at *
    omega

theorem byteSum_append (bs cs : List Byte) : byteSum (bs ++ cs) = byteSum bs + byteSum cs := by
  simp [byteSum]

@[simp] theorem byteSum_nil : byteSum [] = 0 := rfl
@[simp] theorem byteSum_cons (b : Byte) (bs : List Byte) : byteSum (b :: bs) = b.toNat + byteSum bs := by
  simp [byteSum]

/-- The sum of R110 never wraps for a computable length (R112). -/
theorem checksumSum_eq (byte : Byte) {length : Nat} {data : List Byte} (hl : length < 31)
    (hd : data.length ≤ length) : checksumSum byte length data = byte.toNat + length + byteSum data := by
  have := byteSum_le data
  have := byte.isLt
  rw [checksumSum, List.take_of_length_le hd]
  exact Nat.mod_eq_of_lt (by omega)

theorem neg16_toNat (v : Nat) : (neg16 v).toNat = (65536 - v) % 65536 := by
  simp [neg16]

theorem neg16_toNat_of_lt {v : Nat} (h : v < 65536) : (neg16 v).toNat = if v = 0 then 0 else 65536 - v := by
  rw [neg16_toNat]
  split
  · subst_vars; rfl
  · omega

theorem neg16_inj {v w : Nat} (hv : v < 65536) (hw : w < 65536) (h : neg16 v = neg16 w) : v = w := by
  have := congrArg BitVec.toNat h
  rw [neg16_toNat_of_lt hv, neg16_toNat_of_lt hw] at this
  split at this <;> split at this <;> omega

/-- When there is a checksum, and which (R110). -/
theorem checksum_eq_some {byte : Byte} {length : Nat} {data : Option (List Byte)} {v : Word} :
    checksum byte length data = some v ↔
      length < 31 ∧ (length = 0 ∨ data ≠ none) ∧ v = neg16 (checksumSum byte length (data.getD [])) := by
  unfold checksum
  have hk : Config.CHK_LIMIT = 31 := rfl
  by_cases h1 : Config.CHK_LIMIT ≤ length
  · rw [if_pos h1]
    constructor
    · exact fun h => by cases h
    · rintro ⟨h, -, -⟩; omega
  · rw [if_neg h1]
    by_cases h2 : 0 < length ∧ data = none
    · rw [if_pos h2]
      constructor
      · exact fun h => by cases h
      · rintro ⟨-, h' | h', -⟩
        · omega
        · exact absurd h2.2 h'
    · rw [if_neg h2]
      constructor
      · intro h
        cases h
        refine ⟨by omega, ?_, rfl⟩
        by_contra hc
        rw [not_or, not_not] at hc
        exact h2 ⟨by omega, hc.2⟩
      · rintro ⟨-, -, rfl⟩; rfl

/-- The checksum of a payload (R113). -/
theorem checksum_some (byte : Byte) {data : List Byte} (h : data.length < 31) :
    checksum byte data.length (some data) = some (neg16 (checksumSum byte data.length data)) :=
  checksum_eq_some.2 ⟨h, .inr (by simp), rfl⟩

/-- No checksum is computed over more than 30 bytes (R114). -/
theorem checksum_none (byte : Byte) {length : Nat} (data : Option (List Byte)) (h : 31 ≤ length) :
    checksum byte length data = none := by
  unfold checksum
  rw [if_pos (by simpa [Config.CHK_LIMIT] using h)]

/-- What the encoder answers (R140, R141). -/
theorem encodeFrame_eq (dir cmd : Byte) (payload : List Byte) :
    encodeFrame dir cmd payload =
      if payload.length < 31 then some (Safety.requestFrame dir cmd payload) else none := by
  unfold encodeFrame
  by_cases h : payload.length < 31
  · rw [checksum_some cmd h, if_pos h, Safety.requestFrame]
  · rw [checksum_none cmd _ (by omega), if_neg h]

theorem requestFrame_length (dir cmd : Byte) (payload : List Byte) :
    (Safety.requestFrame dir cmd payload).length = 7 + payload.length := by
  simp [Safety.requestFrame]; omega

end Sys2Proof.Machine
end

