-- ==== Sys2Proof/Laws/Decode.lean ====
section
/-! SUPPORT. The operation table under any selectors (30_encoding.md R94; the parameter OPSEL): what the table's search
for a row answers, so that no proof unfolds it. -/

namespace Sys2Proof

open Config (OpSel)

/-- The table's selector column is the parameter's list of assigned values. -/
theorem opTable_selectors (t : OpSel) : (opTable t).map OpRow.selector = t.values := rfl

/-- A search for the key of a member finds that member, if no key stands twice. -/
theorem find_of_mem {rows : List OpRow} {row : OpRow} (hn : (rows.map OpRow.selector).Nodup) (hm : row ∈ rows) :
    (rows.find? fun r => r.selector == row.selector) = some row := by
  induction rows with
  | nil => cases hm
  | cons r rs ih =>
    obtain ⟨hr, hn⟩ := List.nodup_cons.1 hn
    rcases List.mem_cons.1 hm with rfl | hm
    · simp
    · have hne : ¬ r.selector = row.selector := fun h => hr (h ▸ List.mem_map_of_mem hm)
      simpa [hne] using ih hn hm

/-- Under legal selectors the table's row for a row's selector is that row. -/
theorem rowOf_of_mem {t : OpSel} {row : OpRow} (ht : t.wf) (hm : row ∈ opTable t) :
    rowOf t row.selector = some row :=
  find_of_mem (by rw [opTable_selectors]; exact ht) hm

/-- A selector has no row exactly when it is not assigned. -/
theorem rowOf_eq_none {t : OpSel} {sel : Byte} : rowOf t sel = none ↔ sel ∉ t.values := by
  rw [← opTable_selectors, rowOf, List.find?_eq_none, List.mem_map]
  exact ⟨fun h ⟨r, hr, e⟩ => h r hr (beq_iff_eq.2 e), fun h r hr e => h ⟨r, hr, beq_iff_eq.1 e⟩⟩

/-- A row that is found is in the table, under that selector. -/
theorem rowOf_some {t : OpSel} {sel : Byte} {row : OpRow} (h : rowOf t sel = some row) :
    row ∈ opTable t ∧ row.selector = sel :=
  ⟨List.mem_of_find?_eq_some h, by simpa using List.find?_some h⟩

end Sys2Proof
end

