-- ==== Sys2Proof/Laws/Run.lean ====
section
/-! SUPPORT. One row of R161 as a whole, and the run of a command: what every transition leaves alone, that the phases
come in order, and how a property kept by every transition is kept by a run. -/

namespace Sys2Proof.Machine

/-- How many phases are left, the phase itself included. -/
def Phase.remaining : Phase → Nat
  | .idle => 0
  | .encoding => 11
  | .wait => 10
  | .txEnable => 9
  | .transmitting => 8
  | .flush => 7
  | .directionSwitch => 6
  | .receivingHeader => 5
  | .receivingPayload => 4
  | .receivingTrailer => 3
  | .validating => 2
  | .stamp => 1

/-- What no transition and no hold changes: the parameters, the configuration, the operands, the host's requests and
the operation in progress; the environment's moves are only used up, and the history only grows. -/
structure Frame (s t : State) : Prop where
  params : t.params = s.params
  cfg : t.cfg = s.cfg
  op : t.op = s.op
  pending : t.seq.pending = s.seq.pending
  requests : t.host.requests = s.host.requests
  script : t.script <:+ s.script
  history : s.history <+: t.history

theorem Frame.rfl' (s : State) : Frame s s :=
  ⟨rfl, rfl, rfl, rfl, rfl, List.suffix_refl _, List.prefix_refl _⟩

theorem Frame.trans {s t u : State} (h : Frame s t) (h' : Frame t u) : Frame s u :=
  ⟨h'.params.trans h.params, h'.cfg.trans h.cfg, h'.op.trans h.op, h'.pending.trans h.pending,
    h'.requests.trans h.requests, h'.script.trans h.script, h.history.trans h'.history⟩

theorem suffix_of_eq_append {α : Type} {l used rest : List α} (h : l = used ++ rest) : rest <:+ l :=
  ⟨used, h.symm⟩

theorem State.now_script_suffix (s : State) : s.now.script <:+ s.script := by
  rw [State.now_script]; exact List.tail_suffix _

theorem State.afterHeader_frame (s : State) (len : Byte) : Frame s (s.afterHeader len) := by
  rcases s.afterHeader_eq len with ⟨-, h⟩ | ⟨-, h⟩ | ⟨-, -, h⟩ <;> rw [h] <;>
    exact ⟨rfl, rfl, rfl, rfl, rfl, List.suffix_refl _, List.prefix_refl _⟩

theorem State.taken_frame {s : State} {n : Nat} {bs rxq : List Byte} {used rest : List EnvMove}
    (h : ReadOf s n bs rxq used rest) (sp : Space) : Frame s ((s.taken used rest rxq bs).stored sp bs) :=
  ⟨rfl, rfl, rfl, rfl, rfl, suffix_of_eq_append h.script, List.prefix_append _ _⟩

/-- What a transition leaves alone. -/
theorem advance_moved_frame {s t : State} (h : advance s = .moved t) : Frame s t := by
  unfold advance at h
  split at h
  · cases h
  · rcases phaseEncoding_moved h with ⟨-, rfl⟩ | ⟨frame, -, rfl⟩ <;>
      exact ⟨rfl, rfl, rfl, rfl, rfl, List.suffix_refl _, List.prefix_refl _⟩
  · obtain ⟨used, rest, hs, ⟨-, -, -, rfl⟩ | ⟨t0, -, -, rfl⟩⟩ := phaseWait_moved h <;>
      exact ⟨rfl, rfl, rfl, rfl, rfl, suffix_of_eq_append hs, List.prefix_refl _⟩
  · rw [phaseTxEnable_moved h]
    exact ⟨by simp, by simp, by simp, by simp, by simp, by simp, by simp⟩
  · obtain ⟨frame, n, used, rest, -, -, hs, rfl⟩ := phaseTransmitting_moved h
    exact ⟨rfl, rfl, rfl, rfl, rfl, suffix_of_eq_append hs, List.prefix_append _ _⟩
  · obtain ⟨used, rest, hs, -, rfl⟩ := phaseFlush_moved h
    exact ⟨rfl, rfl, rfl, rfl, rfl, suffix_of_eq_append hs, List.prefix_append _ _⟩
  · rcases phaseDirectionSwitch_moved h with ⟨-, rfl⟩ | ⟨-, rfl⟩ <;>
      exact ⟨by simp, by simp, by simp, by simp, by simp, by simp, by simp⟩
  · obtain ⟨bs, used, rest, rxq, hr, ⟨-, rfl⟩ | ⟨a, b, c, d, -, rfl⟩⟩ := phaseReceivingHeader_moved h
    · exact ⟨rfl, rfl, rfl, rfl, rfl, suffix_of_eq_append hr.script, List.prefix_append _ _⟩
    · refine (State.taken_frame hr .rxhdr).trans (.trans ?_ (State.afterHeader_frame _ _))
      exact ⟨rfl, rfl, rfl, rfl, rfl, List.suffix_refl _, List.prefix_refl _⟩
  · obtain ⟨bs, used, rest, rxq, hr, -, ⟨-, rfl⟩ | ⟨-, rfl⟩⟩ := phaseReceivingPayload_moved h <;>
      exact ⟨rfl, rfl, rfl, rfl, rfl, suffix_of_eq_append hr.script, List.prefix_append _ _⟩
  · obtain ⟨bs, used, rest, rxq, hr, ⟨-, rfl⟩ | ⟨-, rfl⟩⟩ := phaseReceivingTrailer_moved h <;>
      exact ⟨rfl, rfl, rfl, rfl, rfl, suffix_of_eq_append hr.script, List.prefix_append _ _⟩
  · obtain ⟨bytes, -, rfl⟩ := phaseValidating_moved h
    exact ⟨rfl, rfl, rfl, rfl, rfl, List.suffix_refl _, List.prefix_refl _⟩
  · rcases phaseStamp_moved h with ⟨-, rfl⟩ | ⟨-, -, rfl⟩
    · exact ⟨by simp, by simp, by simp, by simp, by simp, s.now_script_suffix, by simp⟩
    · have hd := s.stampAndReturn.deliver_same (s.buf.rxbuf.readRange 0 s.res.len.toNat)
      exact ⟨by simp [hd.params], by simp [hd.cfg], by simp [hd.op], by simp [hd.seq], by simp [hd.requests],
        by simpa [hd.script] using s.now_script_suffix, by simp [hd.history]⟩

/-- A hold: the environment has made all its moves, t0 may have been sampled, nothing else has changed. -/
theorem advance_held {s t : State} (h : advance s = .held t) :
    (s.phase = .idle ∧ t = s) ∨
    (s.phase = .wait ∧ ∃ t0, t = { s.envAfter s.script [] with seq := { s.seq with waitStart := some t0 } }) ∨
    (Safety.restingPhase s.phase = true ∧ s.phase ≠ .idle ∧ s.phase ≠ .wait ∧ t = s.envAfter s.script []) := by
  unfold advance at h
  split at h
  case h_1 hp => cases h; exact .inl ⟨hp, rfl⟩
  case h_2 => exact absurd h phaseEncoding_not_held
  case h_3 hp =>
    obtain ⟨t0, -, -, rfl⟩ := phaseWait_held h
    exact .inr (.inl ⟨hp, t0, rfl⟩)
  case h_4 => simp [phaseTxEnable] at h
  case h_5 hp => exact .inr (.inr ⟨by simp [hp, Safety.restingPhase], by simp [hp], by simp [hp], phaseTransmitting_held h⟩)
  case h_6 hp => exact .inr (.inr ⟨by simp [hp, Safety.restingPhase], by simp [hp], by simp [hp], (phaseFlush_held h).1⟩)
  case h_7 =>
    unfold phaseDirectionSwitch at h
    dsimp only at h
    split at h <;> cases h
  case h_8 hp =>
    exact .inr (.inr ⟨by simp [hp, Safety.restingPhase], by simp [hp], by simp [hp], (phaseReceivingHeader_held h).1⟩)
  case h_9 hp =>
    exact .inr (.inr ⟨by simp [hp, Safety.restingPhase], by simp [hp], by simp [hp], (phaseReceivingPayload_held h).1⟩)
  case h_10 hp =>
    exact .inr (.inr ⟨by simp [hp, Safety.restingPhase], by simp [hp], by simp [hp], (phaseReceivingTrailer_held h).1⟩)
  case h_11 => exact absurd h phaseValidating_not_held
  case h_12 => exact absurd h phaseStamp_not_held

/-- What a hold leaves alone. -/
theorem advance_held_frame {s t : State} (h : advance s = .held t) : Frame s t := by
  rcases advance_held h with ⟨-, rfl⟩ | ⟨-, t0, rfl⟩ | ⟨-, -, -, rfl⟩
  · exact Frame.rfl' _
  · exact ⟨rfl, rfl, rfl, rfl, rfl, List.nil_suffix, List.prefix_refl _⟩
  · exact ⟨rfl, rfl, rfl, rfl, rfl, List.nil_suffix, List.prefix_refl _⟩

/-- A transition stops only where a buffer would be indexed outside its bounds. -/
theorem advance_stopped {s : State} {f : Fault} (h : advance s = .stopped f) :
    (s.phase = .transmitting ∧ Config.TXBUF_SIZE < s.seq.txLen) ∨
    (s.params.rxbufSize < s.res.len.toNat ∧
      (s.phase = .receivingPayload ∨ s.phase = .validating ∨ (s.phase = .stamp ∧ s.res.err = .ok))) := by
  unfold advance at h
  split at h
  case h_1 => cases h
  case h_2 => exact absurd h phaseEncoding_not_stopped
  case h_3 => exact absurd h phaseWait_not_stopped
  case h_4 => simp [phaseTxEnable] at h
  case h_5 hp => exact .inl ⟨hp, phaseTransmitting_stopped h⟩
  case h_6 => exact absurd h phaseFlush_not_stopped
  case h_7 =>
    unfold phaseDirectionSwitch at h
    dsimp only at h
    split at h <;> cases h
  case h_8 => exact absurd h phaseReceivingHeader_not_stopped
  case h_9 hp => exact .inr ⟨phaseReceivingPayload_stopped h, .inl hp⟩
  case h_10 => exact absurd h phaseReceivingTrailer_not_stopped
  case h_11 hp => exact .inr ⟨phaseValidating_stopped h, .inr (.inl hp)⟩
  case h_12 hp => exact .inr ⟨(phaseStamp_stopped h).2, .inr (.inr ⟨hp, (phaseStamp_stopped h).1⟩)⟩

/-- The phases come in order (R161). -/
theorem advance_moved_remaining {s t : State} (h : advance s = .moved t) :
    t.phase.remaining < s.phase.remaining := by
  unfold advance at h
  split at h
  case h_1 => cases h
  case h_2 hp =>
    rcases phaseEncoding_moved h with ⟨-, rfl⟩ | ⟨frame, -, rfl⟩ <;> rw [hp] <;> simp [Phase.remaining]
  case h_3 hp =>
    obtain ⟨used, rest, hs, ⟨-, -, -, rfl⟩ | ⟨t0, -, -, rfl⟩⟩ := phaseWait_moved h <;> rw [hp] <;>
      simp [Phase.remaining]
  case h_4 hp => rw [phaseTxEnable_moved h, hp]; simp [Phase.remaining]
  case h_5 hp =>
    obtain ⟨frame, n, used, rest, -, -, -, rfl⟩ := phaseTransmitting_moved h
    rw [hp]; simp [Phase.remaining]
  case h_6 hp =>
    obtain ⟨used, rest, -, -, rfl⟩ := phaseFlush_moved h
    rw [hp]; simp [Phase.remaining]
  case h_7 hp =>
    rcases phaseDirectionSwitch_moved h with ⟨-, rfl⟩ | ⟨-, rfl⟩ <;> rw [hp] <;> simp [Phase.remaining]
  case h_8 hp =>
    rw [hp]
    obtain ⟨bs, used, rest, rxq, -, ⟨-, rfl⟩ | ⟨a, b, c, d, -, rfl⟩⟩ := phaseReceivingHeader_moved h
    · simp [Phase.remaining]
    · rcases State.afterHeader_eq
        (((s.taken used rest rxq bs).stored .rxhdr bs).latchHeader b c d) d with ⟨-, h⟩ | ⟨-, h⟩ | ⟨-, -, h⟩ <;>
        rw [h] <;> simp [Phase.remaining]
  case h_9 hp =>
    rw [hp]
    obtain ⟨bs, used, rest, rxq, -, -, ⟨-, rfl⟩ | ⟨-, rfl⟩⟩ := phaseReceivingPayload_moved h <;>
      simp [Phase.remaining]
  case h_10 hp =>
    rw [hp]
    obtain ⟨bs, used, rest, rxq, -, ⟨-, rfl⟩ | ⟨-, rfl⟩⟩ := phaseReceivingTrailer_moved h <;>
      simp [Phase.remaining]
  case h_11 hp =>
    obtain ⟨bytes, -, rfl⟩ := phaseValidating_moved h
    rw [hp]; simp [Phase.remaining]
  case h_12 hp =>
    rw [hp]
    rcases phaseStamp_moved h with ⟨-, rfl⟩ | ⟨-, -, rfl⟩
    · simp [Phase.remaining]
    · rw [(State.deliver_same _ _).phase]; simp [Phase.remaining]

/-! Runs. -/

/-- A property that every transition and every hold keeps is kept by a run. -/
theorem runPhases_keeps {P : State → Prop}
    (moved : ∀ s t, P s → s.phase ≠ .idle → advance s = .moved t → P t)
    (held : ∀ s t, P s → s.phase ≠ .idle → advance s = .held t → P t) :
    ∀ (n : Nat) {s t : State}, P s → s.phase ≠ .idle → runPhases n s = .next t → P t
  | 0, s, t, hp, _, h => by cases h; exact hp
  | n + 1, s, t, hp, hi, h => by
    unfold runPhases at h
    split at h
    · cases h
    · rename_i s' ha
      cases h
      exact held s t hp hi ha
    · rename_i s' ha
      have hp' := moved s s' hp hi ha
      split at h
      · cases h; exact hp'
      · rename_i hne; exact runPhases_keeps moved held n hp' hne h

/-- What a run leaves alone. -/
theorem runPhases_frame {n : Nat} {s t : State} (hi : s.phase ≠ .idle) (h : runPhases n s = .next t) : Frame s t :=
  runPhases_keeps (P := fun u => Frame s u)
    (fun _ _ hf _ ha => hf.trans (advance_moved_frame ha))
    (fun _ _ hf _ ha => hf.trans (advance_held_frame ha)) n (Frame.rfl' s) hi h

/-- A run with enough fuel ends in IDLE, or at a hold that the environment has not lifted. -/
theorem runPhases_ends {n : Nat} {s t : State} (hi : s.phase ≠ .idle) (hn : s.phase.remaining ≤ n)
    (h : runPhases n s = .next t) : t.phase = .idle ∨ ∃ u, u.phase ≠ .idle ∧ advance u = .held t := by
  induction n generalizing s with
  | zero => exact absurd hn (by cases hp : s.phase <;> simp_all [Phase.remaining])
  | succ n ih =>
    unfold runPhases at h
    split at h
    · cases h
    · rename_i s' ha
      cases h
      exact .inr ⟨s, hi, ha⟩
    · rename_i s' ha
      split at h
      · rename_i hidle; cases h; exact .inl hidle
      · rename_i hne
        have := advance_moved_remaining ha
        exact ih hne (by omega) h

theorem Phase.remaining_le (p : Phase) : p.remaining ≤ phaseCount := by
  cases p <;> simp [Phase.remaining, phaseCount]

/-- A run of `phaseCount` steps from any phase ends in IDLE or held. -/
theorem State.proceed_ends {s t : State} (hi : s.phase ≠ .idle) (h : s.proceed = .next t) :
    t.phase = .idle ∨ ∃ u, u.phase ≠ .idle ∧ advance u = .held t :=
  runPhases_ends hi s.phase.remaining_le h

/-- A held phase is one of those R179 lists, and it is where the machine rests. -/
theorem advance_held_resting {u t : State} (h : advance u = .held t) : Safety.restingPhase t.phase = true := by
  rcases advance_held h with ⟨hp, rfl⟩ | ⟨hp, t0, rfl⟩ | ⟨hp, -, -, rfl⟩
  · simp [hp, Safety.restingPhase]
  · simp only [State.envAfter]; rw [hp]; rfl
  · exact hp

/-- How a run that answers a fault got there: every transition before it was made, and one was stopped. -/
theorem runPhases_fault {P : State → Prop}
    (moved : ∀ s t, P s → s.phase ≠ .idle → advance s = .moved t → P t)
    (stopped : ∀ s f, P s → s.phase ≠ .idle → advance s ≠ .stopped f) :
    ∀ (n : Nat) {s : State}, P s → s.phase ≠ .idle → ∀ f, runPhases n s ≠ .fault f
  | 0, s, _, _, f => by unfold runPhases; exact fun h => by cases h
  | n + 1, s, hp, hi, f => by
    unfold runPhases
    split
    · rename_i f' ha; exact absurd ha (stopped s f' hp hi)
    · exact fun h => by cases h
    · rename_i s' ha
      split
      · exact fun h => by cases h
      · rename_i hne; exact runPhases_fault moved stopped n (moved s s' hp hi ha) hne f

/-- No run is refused: a refusal comes before a command is issued (R244). -/
theorem runPhases_not_refused (n : Nat) (s : State) (r : Refusal) : runPhases n s ≠ .refused r := by
  induction n generalizing s with
  | zero => unfold runPhases; exact fun h => by cases h
  | succ n ih =>
    unfold runPhases
    split
    · exact fun h => by cases h
    · exact fun h => by cases h
    · split
      · exact fun h => by cases h
      · exact ih _

end Sys2Proof.Machine
end

