-- ==== Sys2Proof/Laws/Exec.lean ====
section
/-! SUPPORT. What exec answers, said once: the two issue checks, the five commands as one operation, and the three
kinds of operation there are. -/

namespace Sys2Proof.Machine

open Sys2Proof.Safety

/-! The issue checks (R39, R30, 93 U14). -/

theorem whenIdle_of_idle {s : State} (h : s.phase = .idle) (k : StepResult) : whenIdle s k = k := if_pos h

theorem whenIdle_of_busy {s : State} (h : s.phase ≠ .idle) (k : StepResult) : whenIdle s k = .refused .busy :=
  if_neg h

theorem whenOpen_of_opened {s : State} (h : s.cfg.opened = true) (k : StepResult) : whenOpen s k = k := if_pos h

theorem whenOpen_of_closed {s : State} (h : s.cfg.opened = false) (k : StepResult) : whenOpen s k = .refused .notOpen :=
  if_neg (by rw [h]; decide)

theorem whenIdle_next {s t : State} {k : StepResult} (h : whenIdle s k = .next t) : s.phase = .idle ∧ k = .next t := by
  unfold whenIdle at h
  split at h
  · exact ⟨‹_›, h⟩
  · cases h

theorem whenOpen_next {s t : State} {k : StepResult} (h : whenOpen s k = .next t) :
    s.cfg.opened = true ∧ k = .next t := by
  unfold whenOpen at h
  split at h
  · exact ⟨‹_›, h⟩
  · cases h

/-- In a ready block the issue check of every operation but OPEN passes. -/
theorem whenReady_of_ready {s : State} (h : Ready s) (k : StepResult) : whenReady s k = k :=
  (whenIdle_of_idle h.1 _).trans (whenOpen_of_opened h.2 _)

theorem whenReady_of_busy {s : State} (h : s.phase ≠ .idle) (k : StepResult) : whenReady s k = .refused .busy :=
  whenIdle_of_busy h _

theorem whenReady_of_not_open {s : State} (h : s.phase = .idle) (ho : s.cfg.opened = false) (k : StepResult) :
    whenReady s k = .refused .notOpen :=
  (whenIdle_of_idle h _).trans (whenOpen_of_closed ho _)

/-- The issue check answers a next state only in a ready block, and it is the operation's. -/
theorem whenReady_next {s t : State} {k : StepResult} (h : whenReady s k = .next t) : Ready s ∧ k = .next t :=
  let ⟨hp, h⟩ := whenIdle_next h
  let ⟨ho, h⟩ := whenOpen_next h
  ⟨⟨hp, ho⟩, h⟩

/-! The commands (R98, R162, R190). -/

/-- EXECUTE answers a next state only in IDLE, after OPEN, with operands inside their types. -/
theorem execExecute_next {dir cmd cap : Byte} {payload : List Byte} {s t : State}
    (h : execExecute dir cmd payload cap s = .next t) :
    Ready s ∧ legalDirection dir ∧ legalPayload payload ∧ legalCapacity cap ∧
      cap.toNat ≤ s.params.rxbufSize ∧ runCommand .execute dir cmd payload cap.toNat s = .next t := by
  unfold execExecute at h
  obtain ⟨hs, h⟩ := whenReady_next h
  by_cases h1 : legalDirection dir
  · rw [if_neg (not_not.2 h1)] at h
    by_cases h2 : legalPayload payload
    · rw [if_neg (not_not.2 h2)] at h
      by_cases h3 : legalCapacity cap ∧ cap.toNat ≤ s.params.rxbufSize
      · rw [if_neg (not_not.2 h3)] at h
        exact ⟨hs, h1, h2, h3.1, h3.2, h⟩
      · rw [if_pos h3] at h; cases h
    · rw [if_pos h2] at h; cases h
  · rw [if_pos h1] at h; cases h

/-- EXECUTE as a command: its operands inside their types. -/
theorem commandIssue_execute {s : State} {dir cmd cap : Byte} {payload : List Byte} {q : Issue}
    (h : commandIssue s (.execute dir cmd payload cap) = some q) :
    legalDirection dir ∧ legalPayload payload ∧ legalCapacity cap ∧ cap.toNat ≤ s.params.rxbufSize ∧
      q = ⟨.execute, dir, cmd, payload, cap.toNat⟩ := by
  simp only [commandIssue] at h
  split at h
  · rename_i hc
    obtain ⟨h1, h2, h3, h4⟩ := hc
    exact ⟨h1, h2, h3, h4, (Option.some.inj h).symm⟩
  · cases h

theorem commandIssue_execute_of {s : State} {dir cmd cap : Byte} {payload : List Byte} (h1 : legalDirection dir)
    (h2 : legalPayload payload) (h3 : legalCapacity cap) (h4 : cap.toNat ≤ s.params.rxbufSize) :
    commandIssue s (.execute dir cmd payload cap) = some ⟨.execute, dir, cmd, payload, cap.toNat⟩ :=
  if_pos ⟨h1, h2, h3, h4⟩

/-- EXECUTE runs when its operands are inside their types. -/
theorem execExecute_ready {dir cmd cap : Byte} {payload : List Byte} {s : State} (hs : Ready s)
    (h1 : legalDirection dir) (h2 : legalPayload payload) (h3 : legalCapacity cap)
    (h4 : cap.toNat ≤ s.params.rxbufSize) :
    execExecute dir cmd payload cap s = runCommand .execute dir cmd payload cap.toNat s := by
  unfold execExecute
  rw [whenReady_of_ready hs, if_neg (not_not.2 h1), if_neg (not_not.2 h2), if_neg (not_not.2 ⟨h3, h4⟩)]

/-- A command in a ready block is its issue followed by the phases. -/
theorem exec_of_commandIssue {i : Instr} {s : State} {q : Issue} (hq : commandIssue s i = some q) (hs : Ready s) :
    exec i s = (s.issue q.command q.dir q.cmd q.payload q.cap).proceed := by
  cases i with
  | execute dir cmd payload cap =>
    obtain ⟨h1, h2, h3, h4, rfl⟩ := commandIssue_execute hq
    exact execExecute_ready hs h1 h2 h3 h4
  | getStatus =>
    cases hq; exact whenReady_of_ready hs _
  | getCells =>
    cases hq; exact whenReady_of_ready hs _
  | getHardware =>
    cases hq; exact whenReady_of_ready hs _
  | setMosfet mask =>
    cases hq; exact whenReady_of_ready hs _
  | _ => cases hq

/-- A command answers a next state only in a ready block, and it is that of its phases. -/
theorem exec_command_next {i : Instr} {s t : State} {q : Issue} (hq : commandIssue s i = some q)
    (h : exec i s = .next t) : Ready s ∧ (s.issue q.command q.dir q.cmd q.payload q.cap).proceed = .next t := by
  have key : Ready s := by
    cases i with
    | execute dir cmd payload cap => exact (execExecute_next h).1
    | getStatus => exact (whenReady_next h).1
    | getCells => exact (whenReady_next h).1
    | getHardware => exact (whenReady_next h).1
    | setMosfet mask => exact (whenReady_next h).1
    | _ => cases hq
  exact ⟨key, exec_of_commandIssue hq key ▸ h⟩

/-- The operands a command latches are inside their types. -/
theorem commandIssue_bounds {i : Instr} {s : State} {q : Issue} (hq : commandIssue s i = some q) :
    q.payload.length ≤ 255 ∧ (q.command = .getHardware → q.cap = s.params.capHardware) ∧
      (s.params.wf → q.cap ≤ 64 ∧ q.cap ≤ s.params.rxbufSize) := by
  have caps : s.params.wf → s.params.rxbufSize ≤ 64 ∧ s.params.capStatus ≤ s.params.rxbufSize ∧
      s.params.capCells ≤ s.params.rxbufSize ∧ s.params.capHardware ≤ s.params.rxbufSize ∧
      s.params.capMosfet = 0 := fun ⟨h1, h2, h3, h4, h5, _⟩ => ⟨h1, h2, h3, h4, h5⟩
  cases i with
  | execute dir cmd payload cap =>
    obtain ⟨-, h2, h3, h4, rfl⟩ := commandIssue_execute hq
    refine ⟨h2, ?_, fun _ => ⟨h3, h4⟩⟩
    intro h; cases h
  | getStatus =>
    cases hq
    refine ⟨by simp, ?_, ?_⟩
    · intro h; cases h
    · intro h; have := caps h; constructor <;> simp only <;> omega
  | getCells =>
    cases hq
    refine ⟨by simp, ?_, ?_⟩
    · intro h; cases h
    · intro h; have := caps h; constructor <;> simp only <;> omega
  | getHardware =>
    cases hq
    refine ⟨by simp, fun _ => rfl, ?_⟩
    intro h; have := caps h; constructor <;> simp only <;> omega
  | setMosfet mask =>
    cases hq
    refine ⟨by simp, ?_, ?_⟩
    · intro h; cases h
    · intro h; have := caps h; constructor <;> simp only <;> omega
  | _ => cases hq

/-- An operation that answers a next state is a pure operation, OPEN, or a command with operands inside their types. -/
theorem exec_next_cases {i : Instr} {s t : State} (h : exec i s = .next t) :
    isPure i = true ∨ (∃ present delay, i = .openDriver present delay) ∨ ∃ q, commandIssue s i = some q := by
  cases i with
  | openDriver p d => exact .inr (.inl ⟨p, d, rfl⟩)
  | execute dir cmd payload cap =>
    obtain ⟨-, h1, h2, h3, h4, -⟩ := execExecute_next h
    exact .inr (.inr ⟨_, commandIssue_execute_of h1 h2 h3 h4⟩)
  | getStatus => exact .inr (.inr ⟨_, rfl⟩)
  | getCells => exact .inr (.inr ⟨_, rfl⟩)
  | getHardware => exact .inr (.inr ⟨_, rfl⟩)
  | setMosfet mask => exact .inr (.inr ⟨_, rfl⟩)
  | _ => exact .inl rfl

end Sys2Proof.Machine
end

