-- ==== Sys2Proof/Laws/Forward.lean ====
section
/-! SUPPORT. The phases forwards: what each one does when what it needs is there, and how a run takes one transition
after the other. The lemmas of Laws/Phases.lean say the same backwards. -/

namespace Sys2Proof.Machine

/-- A run makes a transition that does not end the command. -/
theorem runPhases_of_moved {n : Nat} {s t : State} (h : advance s = .moved t) (ht : t.phase ≠ .idle) :
    runPhases (n + 1) s = runPhases n t := by
  rw [runPhases, h]; simp only [if_neg ht]

/-- A run ends with the transition to IDLE. -/
theorem runPhases_of_ended {n : Nat} {s t : State} (h : advance s = .moved t) (ht : t.phase = .idle) :
    runPhases (n + 1) s = .next t := by
  rw [runPhases, h]; simp only [if_pos ht]

/-- A store inside the buffer goes on. -/
theorem State.storing_of_le {s : State} {sp : Space} {bs : List Byte} (k : State → State)
    (h : bs.length ≤ sp.size s.params) : s.storing sp bs k = .moved (k (s.stored sp bs)) := by
  unfold State.storing
  rw [State.memWrite_eq_some.2 ⟨by omega, rfl⟩]
  rfl

/-- ENCODING of a payload of at most 30 bytes (R163). -/
theorem advance_encoding {s : State} (hp : s.phase = .encoding) (hl : s.op.payload.length < 31) :
    advance s = .moved
      ({ ({ s with chkOk := true }.stored .txbuf (Safety.requestFrame s.op.dir s.op.cmd s.op.payload)) with
          seq := { s.seq with txLen := 7 + s.op.payload.length } }.goto .wait) := by
  have hf : encodeFrame s.op.dir s.op.cmd s.op.payload = some (Safety.requestFrame s.op.dir s.op.cmd s.op.payload) := by
    rw [encodeFrame_eq, if_pos hl]
  have hn := requestFrame_length s.op.dir s.op.cmd s.op.payload
  rw [show advance s = phaseEncoding s by unfold advance; rw [hp]]
  unfold phaseEncoding
  simp only [hf]
  rw [State.storing_of_le _ (by simp [Space.size, Config.TXBUF_SIZE, hn]; omega), hn]
  rfl

/-- ENCODING of a longer one (R163, R141). -/
theorem advance_encoding_too_long {s : State} (hp : s.phase = .encoding) (hl : 31 ≤ s.op.payload.length) :
    advance s = .moved ({ s with chkOk := false }.raise .encPayloadTooLong) := by
  have hf : encodeFrame s.op.dir s.op.cmd s.op.payload = none := by rw [encodeFrame_eq, if_neg (by omega)]
  rw [show advance s = phaseEncoding s by unfold advance; rw [hp]]
  unfold phaseEncoding
  simp only [hf]

/-- WAIT when the spacing has elapsed (R164). -/
theorem advance_wait_elapsed {s : State} (hp : s.phase = .wait) (hn : s.seq.waitStart = none)
    (he : s.cfg.cmdDelayMs ≤ sub32 s.now.line.clock s.lastDone) : advance s = .moved (s.now.goto .txEnable) := by
  rw [show advance s = phaseWait s by unfold advance; rw [hp]]
  unfold phaseWait
  rw [hn]
  exact if_neg (BitVec.not_lt.2 he)

/-- TX_ENABLE (R165). -/
theorem advance_txEnable {s : State} (hp : s.phase = .txEnable) :
    advance s = .moved ((s.dirDrive s.params.dirTxLevel).goto .transmitting) := by
  rw [show advance s = phaseTxEnable s by unfold advance; rw [hp]]
  rfl

/-- TRANSMITTING when the next move answers the write (R166). -/
theorem advance_transmitting {s : State} (hp : s.phase = .transmitting) {frame : List Byte} {m : EnvMove}
    {later : List EnvMove} {n : Nat} (hf : s.memRead .txbuf 0 s.seq.txLen = some frame) (hs : s.script = m :: later)
    (hm : m.accept = some n) :
    advance s = .moved
      (({ s with
          line := { s.line.move m with txq := (s.line.move m).txq ++ frame.take (min n frame.length) }
          script := later
          seq := { s.seq with txCount := min n frame.length } }.emit (.tx frame (min n frame.length))).goto .flush) := by
  rw [show advance s = phaseTransmitting s by unfold advance; rw [hp]]
  unfold phaseTransmitting
  simp only [hf]
  rw [State.streamWrite_of_accept hs hm]

/-- FLUSH when the stream has let every byte go (R167). -/
theorem advance_flush {s t : State} (hp : s.phase = .flush) (h : s.streamFlush = .done () t) :
    advance s = .moved ((t.emit .flush).goto .directionSwitch) := by
  rw [show advance s = phaseFlush s by unfold advance; rw [hp]]
  unfold phaseFlush
  rw [h]

/-- A flush of an empty queue makes no move (R57). -/
theorem State.streamFlush_of_empty {s : State} (h : s.line.txq = []) : s.streamFlush = .done () s := by
  unfold State.streamFlush State.hold
  rw [awaitLine_of_ready (by simpa using h)]

/-- DIRECTION_SWITCH after a whole write (R168). -/
theorem advance_directionSwitch {s : State} (hp : s.phase = .directionSwitch) (hn : s.seq.txCount = s.seq.txLen) :
    advance s = .moved ((s.dirDrive (!s.params.dirTxLevel)).goto .receivingHeader) := by
  rw [show advance s = phaseDirectionSwitch s by unfold advance; rw [hp]]
  exact if_neg (not_not.2 hn)

/-- DIRECTION_SWITCH after a short write (R168). -/
theorem advance_directionSwitch_short {s : State} (hp : s.phase = .directionSwitch)
    (hn : s.seq.txCount ≠ s.seq.txLen) :
    advance s = .moved ((s.dirDrive (!s.params.dirTxLevel)).raise .ioShortWrite) := by
  rw [show advance s = phaseDirectionSwitch s by unfold advance; rw [hp]]
  exact if_pos hn

/-- RECEIVING_HEADER with four bytes in the queue (R169). -/
theorem advance_receivingHeader {s : State} (hp : s.phase = .receivingHeader) {start echo code len : Byte}
    {more : List Byte} (hq : s.line.rxq = [start, echo, code, len] ++ more) :
    advance s = .moved
      ((({ s with
          line := { s.line with rxq := more }
          history := s.history ++ [Event.rx [start, echo, code, len]] }.stored .rxhdr
            [start, echo, code, len]).latchHeader echo code len).afterHeader len) := by
  rw [show advance s = phaseReceivingHeader s by unfold advance; rw [hp]]
  unfold phaseReceivingHeader
  rw [State.streamRead_of_le (by rw [hq]; simp [Config.RSP_HDR])]
  simp only [hq, Config.RSP_HDR, List.cons_append, List.nil_append, List.take_succ_cons, List.take_zero,
    List.drop_succ_cons, List.drop_zero]
  rw [State.storing_of_le _ (by simp [Space.size, Config.RSP_HDR])]
  rfl

/-- RECEIVING_PAYLOAD with the declared bytes in the queue (R170). -/
theorem advance_receivingPayload {s : State} (hp : s.phase = .receivingPayload) {bs more : List Byte}
    (hq : s.line.rxq = bs ++ more) (hl : s.res.len.toNat = bs.length) (hb : bs.length ≤ s.params.rxbufSize) :
    advance s = .moved
      (({ s with
          line := { s.line with rxq := more }
          history := s.history ++ [Event.rx bs] }.stored .rxbuf bs).goto .receivingTrailer) := by
  rw [show advance s = phaseReceivingPayload s by unfold advance; rw [hp]]
  unfold phaseReceivingPayload
  rw [State.streamRead_of_le (by rw [hq]; simp [hl])]
  simp only [hq, hl, List.take_left', List.drop_left']
  rw [State.storing_of_le _ (by simpa [Space.size] using hb), if_neg]
  · rfl
  · exact not_not.2 rfl

/-- RECEIVING_TRAILER with three bytes in the queue (R171). -/
theorem advance_receivingTrailer {s : State} (hp : s.phase = .receivingTrailer) {bs more : List Byte}
    (hq : s.line.rxq = bs ++ more) (hl : bs.length = 3) :
    advance s = .moved
      (({ s with
          line := { s.line with rxq := more }
          history := s.history ++ [Event.rx bs] }.stored .rxtrl bs).goto .validating) := by
  rw [show advance s = phaseReceivingTrailer s by unfold advance; rw [hp]]
  unfold phaseReceivingTrailer
  rw [State.streamRead_of_le (by rw [hq]; simp [hl, Config.RSP_TRL])]
  simp only [hq, Config.RSP_TRL, ← hl, List.take_left', List.drop_left']
  rw [State.storing_of_le _ (by simp [Space.size, hl, Config.RSP_TRL]), if_neg (by simp)]
  rfl

/-- VALIDATING (R172). -/
theorem advance_validating {s : State} (hp : s.phase = .validating) {bytes : List Byte}
    (hb : s.response = some bytes) :
    advance s = .moved
      ({ s with chkOk := (parseResponse bytes).chk.getD s.chkOk }.raise (parseResponse bytes).result.reason) := by
  rw [show advance s = phaseValidating s by unfold advance; rw [hp]]
  unfold phaseValidating
  rw [hb]

/-- STAMP after an error (R174, R190). -/
theorem advance_stamp_failed {s : State} (hp : s.phase = .stamp) (he : s.res.err ≠ .ok) :
    advance s = .moved (s.stampAndReturn.answer (.failed s.res.err)) := by
  rw [show advance s = phaseStamp s by unfold advance; rw [hp]]
  exact if_neg he

/-- STAMP after a valid response (R174, R190). -/
theorem advance_stamp_ok {s : State} (hp : s.phase = .stamp) (he : s.res.err = .ok)
    (hl : s.res.len.toNat ≤ s.params.rxbufSize) :
    advance s = .moved (s.stampAndReturn.deliver (s.buf.rxbuf.readRange 0 s.res.len.toNat)) := by
  rw [show advance s = phaseStamp s by unfold advance; rw [hp]]
  unfold phaseStamp
  dsimp only
  rw [if_pos he, State.memRead_eq_some.2 ⟨by simpa [Space.size] using hl, rfl⟩]
  simp [Buffers.get]

end Sys2Proof.Machine
end

