-- ==== Sys2Proof/Laws/PerInstr.lean ====
section
/-! SUPPORT. Statements made of every operation, one lemma per constructor. -/

namespace Sys2Proof.Laws.EncodeHead

/-- The first byte of an operation's request is its selector, which is one of the assigned values, whatever table of
selectors the parameter OPSEL is. -/
def Statement (i : Instr) : Prop :=
  ∀ t : Config.OpSel, (encode t i).head? = some (i.selector t) ∧ i.selector t ∈ t.values

theorem openDriver (p : Bool) (d : Millis) : Statement (.openDriver p d) :=
  fun _ => ⟨rfl, List.mem_of_getElem? (i := 0) rfl⟩
theorem execute (d c : Byte) (p : List Byte) (n : Byte) : Statement (.execute d c p n) :=
  fun _ => ⟨rfl, List.mem_of_getElem? (i := 1) rfl⟩
theorem getStatus : Statement .getStatus :=
  fun _ => ⟨rfl, List.mem_of_getElem? (i := 2) rfl⟩
theorem getCells : Statement .getCells :=
  fun _ => ⟨rfl, List.mem_of_getElem? (i := 3) rfl⟩
theorem getHardware : Statement .getHardware :=
  fun _ => ⟨rfl, List.mem_of_getElem? (i := 4) rfl⟩
theorem setMosfet (m : MosfetMask) : Statement (.setMosfet m) :=
  fun _ => ⟨rfl, List.mem_of_getElem? (i := 5) rfl⟩
theorem checksum (b n : Byte) (d : Option (List Byte)) : Statement (.checksum b n d) :=
  fun _ => ⟨rfl, List.mem_of_getElem? (i := 6) rfl⟩
theorem toHostOrder (f : Word) : Statement (.toHostOrder f) :=
  fun _ => ⟨rfl, List.mem_of_getElem? (i := 7) rfl⟩
theorem toWireOrder (f : Word) : Statement (.toWireOrder f) :=
  fun _ => ⟨rfl, List.mem_of_getElem? (i := 8) rfl⟩
theorem decodeDate (f : Word) : Statement (.decodeDate f) :=
  fun _ => ⟨rfl, List.mem_of_getElem? (i := 9) rfl⟩
theorem decodeTemperature (f : Word) : Statement (.decodeTemperature f) :=
  fun _ => ⟨rfl, List.mem_of_getElem? (i := 10) rfl⟩
theorem encodeRequest (d c : Byte) (p : List Byte) : Statement (.encodeRequest d c p) :=
  fun _ => ⟨rfl, List.mem_of_getElem? (i := 11) rfl⟩
theorem decodeResponse (s : List Byte) : Statement (.decodeResponse s) :=
  fun _ => ⟨rfl, List.mem_of_getElem? (i := 12) rfl⟩
theorem isCellOvervoltage (f : Word) : Statement (.isCellOvervoltage f) :=
  fun _ => ⟨rfl, List.mem_of_getElem? (i := 13) rfl⟩
theorem isCellUndervoltage (f : Word) : Statement (.isCellUndervoltage f) :=
  fun _ => ⟨rfl, List.mem_of_getElem? (i := 14) rfl⟩
theorem isPackOvervoltage (f : Word) : Statement (.isPackOvervoltage f) :=
  fun _ => ⟨rfl, List.mem_of_getElem? (i := 15) rfl⟩
theorem isPackUndervoltage (f : Word) : Statement (.isPackUndervoltage f) :=
  fun _ => ⟨rfl, List.mem_of_getElem? (i := 16) rfl⟩
theorem isChargeOvertemp (f : Word) : Statement (.isChargeOvertemp f) :=
  fun _ => ⟨rfl, List.mem_of_getElem? (i := 17) rfl⟩
theorem isChargeUndertemp (f : Word) : Statement (.isChargeUndertemp f) :=
  fun _ => ⟨rfl, List.mem_of_getElem? (i := 18) rfl⟩
theorem isDischargeOvertemp (f : Word) : Statement (.isDischargeOvertemp f) :=
  fun _ => ⟨rfl, List.mem_of_getElem? (i := 19) rfl⟩
theorem isDischargeUndertemp (f : Word) : Statement (.isDischargeUndertemp f) :=
  fun _ => ⟨rfl, List.mem_of_getElem? (i := 20) rfl⟩
theorem isChargeOvercurrent (f : Word) : Statement (.isChargeOvercurrent f) :=
  fun _ => ⟨rfl, List.mem_of_getElem? (i := 21) rfl⟩
theorem isDischargeOvercurrent (f : Word) : Statement (.isDischargeOvercurrent f) :=
  fun _ => ⟨rfl, List.mem_of_getElem? (i := 22) rfl⟩
theorem isShortCircuit (f : Word) : Statement (.isShortCircuit f) :=
  fun _ => ⟨rfl, List.mem_of_getElem? (i := 23) rfl⟩
theorem isIcError (f : Word) : Statement (.isIcError f) :=
  fun _ => ⟨rfl, List.mem_of_getElem? (i := 24) rfl⟩
theorem isSoftwareLock (f : Word) : Statement (.isSoftwareLock f) :=
  fun _ => ⟨rfl, List.mem_of_getElem? (i := 25) rfl⟩

end Sys2Proof.Laws.EncodeHead
end

