-- ==== Sys2Proof/Laws/Records.lean ====
section
/-! SUPPORT. The record decoders' fields at the widths of R193's table: what a field of two bytes and one of a single
byte hold, and the sizes of the decoded arrays. -/

namespace Sys2Proof.Machine

open Sys2Proof.Config (Params FieldAt)

/-- Two neighbouring bytes of a payload. -/
theorem take_two_drop (payload : List Byte) (k : Nat) (h : k + 2 ≤ payload.length) :
    (payload.drop k).take 2 = [payload.getD k 0, payload.getD (k + 1) 0] := by
  apply List.ext_getElem
  · simp; omega
  · intro i h1 h2
    have hi : i = 0 ∨ i = 1 := by simp at h2; omega
    rcases hi with rfl | rfl <;>
      simp [List.getD_eq_getElem?_getD, show k < payload.length by omega, show k + 1 < payload.length by omega]

/-- One byte of a payload. -/
theorem take_one_drop (payload : List Byte) (k : Nat) (h : k + 1 ≤ payload.length) :
    (payload.drop k).take 1 = [payload.getD k 0] := by
  apply List.ext_getElem
  · simp; omega
  · intro i h1 h2
    have hi : i = 0 := by simp at h2; omega
    subst hi; simp [List.getD_eq_getElem?_getD, show k < payload.length by omega]

theorem ofNat_beValue_pair (a b : Byte) : BitVec.ofNat 16 (beValue [a, b]) = be16 a b := by
  apply BitVec.eq_of_toNat_eq
  have := a.isLt; have := b.isLt
  rw [be16_toNat]; simp only [beValue, List.foldl, BitVec.toNat_ofNat]; omega

theorem ofNat_leValue_pair (a b : Byte) : BitVec.ofNat 16 (leValue [a, b]) = le16 a b := ofNat_beValue_pair b a

/-- A two-byte field of a 16-bit register (R192 f16). -/
theorem statusWord_two (payload : List Byte) (k : Nat) (free : Word) (h : k + 2 ≤ payload.length) :
    statusWord payload ⟨k, 2⟩ free = be16 (payload.getD k 0) (payload.getD (k + 1) 0) := by
  unfold statusWord fieldBytes
  rw [if_pos h]; dsimp only; rw [take_two_drop _ _ h, ofNat_beValue_pair]

/-- A one-byte field of an 8-bit register (R192). -/
theorem statusByte_one (payload : List Byte) (k : Nat) (free : Byte) (h : k + 1 ≤ payload.length) :
    statusByte payload ⟨k, 1⟩ free = payload.getD k 0 := by
  unfold statusByte fieldBytes
  rw [if_pos h]; dsimp only; rw [take_one_drop _ _ h]
  apply BitVec.eq_of_toNat_eq
  have := (payload.getD k 0).isLt
  simp only [beValue, List.foldl, BitVec.toNat_ofNat]; omega

/-- A two-byte temperature entry (R194). -/
theorem tempWord_two {p : Params} {k : Nat} (ht : p.statusLayout.temps = ⟨k, 2⟩) (payload : List Byte) (i : Nat)
    (free : Word) (h : k + 2 * i + 2 ≤ payload.length) :
    tempWord p payload i free =
      if p.ntcSwap = .omitted then le16 (payload.getD (k + 2 * i) 0) (payload.getD (k + 2 * i + 1) 0)
      else be16 (payload.getD (k + 2 * i) 0) (payload.getD (k + 2 * i + 1) 0) := by
  unfold tempWord tempField fieldBytes
  rw [ht]; dsimp only; rw [if_pos h]; dsimp only; rw [take_two_drop _ _ h]
  split
  · exact ofNat_leValue_pair _ _
  · exact ofNat_beValue_pair _ _

/-- ST_TEMP has NTC_MAX slots (R31). -/
@[simp] theorem statusTemps_length (p : Params) (payload : List Byte) (n draws : Nat) :
    (statusTemps p payload n draws).length = p.ntcMax := by simp [statusTemps]

/-- CELL has 32 slots (R32). -/
@[simp] theorem decodeCells_length (payload : List Byte) (draws : Nat) :
    (decodeCells payload draws).length = Config.CELLS_MAX := by simp [decodeCells]

/-- HWID has CAP_HARDWARE slots (R33). -/
@[simp] theorem decodeHardware_length (p : Params) (payload : List Byte) (draws : Nat) :
    (decodeHardware p payload draws).length = p.capHardware := by simp [decodeHardware]

end Sys2Proof.Machine
end

