-- ==== Sys2Proof/Tests/Slice0.lean ====
section
/-! SUPPORT. The model's own tests. Expected values are the spec's: 95_test_vectors.md (vectors V-.. and programs P..)
and the worked examples of the rules named. -/

namespace Sys2Proof.Tests

open Sys2Proof.Machine Sys2Proof.Safety

/-! Well-formedness: an ill-formed term for each check, refused. -/

theorem test_wf_execute_direction : (Instr.execute 0x00 0x03 [] 64).wellFormed = false := by decide
set_option maxRecDepth 4000 in
theorem test_wf_execute_payload : (Instr.execute 0xA5 0x03 (List.replicate 256 0) 64).wellFormed = false := by
  decide
theorem test_wf_execute_capacity : (Instr.execute 0xA5 0x03 [] 65).wellFormed = false := by decide
theorem test_wf_checksum_length : (Instr.checksum 0x03 2 (some [1])).wellFormed = false := by decide
theorem test_wf_encode_direction : (Instr.encodeRequest 0xDD 0x03 []).wellFormed = false := by decide
set_option maxRecDepth 4000 in
theorem test_wf_encode_payload : (Instr.encodeRequest 0x5A 0x03 (List.replicate 256 0)).wellFormed = false := by
  decide
theorem test_wf_execute_good : (Instr.execute 0x5A 0x10 [1, 2, 3] 64).wellFormed = true := by decide

/-! Decoding: one word per constructor, from the selector column of R94 (each selector written as the bits of
opcode_table.json's "encoding"). -/

/-- R94's selectors. -/
abbrev std : Config.OpSel := Config.defaultOpSel

theorem test_decode_open : decode std [0b00000001, 1, 0, 0, 0x01, 0xF4] = .ok (.openDriver true 500) := by decide
theorem test_decode_execute : decode std [0b00000010, 0x5A, 0xE1, 0, 0x00, 0x03] = .ok (.execute 0x5A 0xE1 [0, 3] 0) := by
  decide
theorem test_decode_getStatus : decode std [0b00010000] = .ok .getStatus := by decide
theorem test_decode_getCells : decode std [0b00010001] = .ok .getCells := by decide
theorem test_decode_getHardware : decode std [0b00010010] = .ok .getHardware := by decide
theorem test_decode_setMosfet : decode std [0b00010011, 2] = .ok (.setMosfet .discharge) := by decide
theorem test_decode_checksum : decode std [0b00100000, 0x10, 3, 1, 1, 2, 3] = .ok (.checksum 0x10 3 (some [1, 2, 3])) := by
  decide
theorem test_decode_checksum_absent : decode std [0b00100000, 0x05, 1, 0] = .ok (.checksum 0x05 1 none) := by decide
theorem test_decode_toHostOrder : decode std [0b00100001, 0x12, 0x34] = .ok (.toHostOrder 0x1234) := by decide
theorem test_decode_toWireOrder : decode std [0b00100010, 0xFF, 0xFD] = .ok (.toWireOrder 0xFFFD) := by decide
theorem test_decode_decodeDate : decode std [0b00100011, 0x31, 0x9F] = .ok (.decodeDate 0x319F) := by decide
theorem test_decode_decodeTemperature : decode std [0b00100100, 0x0B, 0xB8] = .ok (.decodeTemperature 3000) := by decide
theorem test_decode_encodeRequest :
    decode std [0b00100101, 0xA5, 0x03] = .ok (.encodeRequest 0xA5 0x03 []) := by decide
theorem test_decode_decodeResponse : decode std [0b00100110, 0xDD, 0x03] = .ok (.decodeResponse [0xDD, 0x03]) := by decide
theorem test_decode_accessors :
    decode std [0b00110000, 0, 1] = .ok (.isCellOvervoltage 1) ∧ decode std [0b00110001, 0, 1] = .ok (.isCellUndervoltage 1) ∧
    decode std [0b00110010, 0, 1] = .ok (.isPackOvervoltage 1) ∧ decode std [0b00110011, 0, 1] = .ok (.isPackUndervoltage 1) ∧
    decode std [0b00110100, 0, 1] = .ok (.isChargeOvertemp 1) ∧ decode std [0b00110101, 0, 1] = .ok (.isChargeUndertemp 1) ∧
    decode std [0b00110110, 0, 1] = .ok (.isDischargeOvertemp 1) ∧
    decode std [0b00110111, 0, 1] = .ok (.isDischargeUndertemp 1) := by decide
theorem test_decode_accessors_high :
    decode std [0b00111000, 0, 1] = .ok (.isChargeOvercurrent 1) ∧
    decode std [0b00111001, 0, 1] = .ok (.isDischargeOvercurrent 1) ∧
    decode std [0b00111010, 0, 1] = .ok (.isShortCircuit 1) ∧ decode std [0b00111011, 0, 1] = .ok (.isIcError 1) ∧
    decode std [0b00111100, 0x10, 0] = .ok (.isSoftwareLock 0x1000) := by decide
theorem test_decode_unassigned : decode std [0x00] = .error (.unassignedSelector 0x00) := by decide
theorem test_decode_malformed : decode std [0x13, 4] = .error (.malformedOperands 0x13) := by decide
theorem test_table_word : decodeTableWord 8 0x25 = some (.encodeRequest 0 0 []) := by decide
/-- The frame of S9 (mask 1), and a generic write of three bytes. -/
theorem test_bus_request :
    readBus [0xDD, 0x5A, 0xE1, 0x02, 0x00, 0x01, 0xFF, 0x1C, 0x77] = .setMosfet 1 ∧
    readBus [0xDD, 0x5A, 0x10, 0x03, 0x01, 0x02, 0x03, 0xFF, 0xE7, 0x77] = .generic 0x5A 0x10 3 := by decide
/-- Another table of selectors (R6): OPEN and EXECUTE exchanged. -/
theorem test_decode_other_selectors :
    decode { std with openDriver := 0x02, execute := 0x01 } [0x02, 1, 0, 0, 0x01, 0xF4] =
      .ok (.openDriver true 500) := by decide

/-! The pure operations, on an opened block. -/

/-- An opened block with a direction line and an environment script. -/
def openedState (delay last clock : Millis) (queue : List Byte) (script : List EnvMove) : State :=
  { State.reset with
    cfg := { opened := true, dirPresent := true, cmdDelayMs := delay }
    lastDone := last
    line := { clock := clock, txq := [], rxq := queue, wire := [] }
    script := script }

/-- Right after OPEN. -/
def readyState : State := openedState 0 0 0 [] []


/-- What an operation returns from a state. -/
def resultOf (i : Instr) (s : State) : Option OpResult :=
  match exec i s with
  | .next t => some t.host.result
  | _ => none

/-- V-CK-12, V-CK-6. -/
theorem test_checksum_largest :
    resultOf (.checksum 0xFF 30 (some (List.replicate 30 0xFF))) readyState = some (.checksum true 0xE101) := by
  decide
theorem test_checksum_zero : resultOf (.checksum 0 0 none) readyState = some (.checksum true 0) := by decide
/-- V-WC-1, V-WC-6. -/
theorem test_swap : resultOf (.toHostOrder 0x1234) readyState = some (.word 0x3412) := by decide
theorem test_wire : resultOf (.toWireOrder 0xFFFD) readyState = some (.word 0xFDFF) := by decide
/-- V-WC-12, V-WC-14. -/
theorem test_date : resultOf (.decodeDate 0x079F) readyState = some (.date 2003 12 31) := by decide
theorem test_date_all_ones : resultOf (.decodeDate 0xFFFF) readyState = some (.date 2127 15 31) := by decide
/-- V-WC-22, V-WC-28. -/
theorem test_temperature_low : resultOf (.decodeTemperature 0) readyState = some (.temperature (-2731)) := by decide
theorem test_temperature_no_wrap : resultOf (.decodeTemperature 35499) readyState = some (.temperature 32768) := by
  decide
/-- V-FC-8, V-FC-11. -/
theorem test_encode_request : resultOf (.encodeRequest 0x5A 0x10 [1, 2, 3]) readyState =
    some (.frame [0xDD, 0x5A, 0x10, 0x03, 0x01, 0x02, 0x03, 0xFF, 0xE7, 0x77]) := by decide
theorem test_encode_too_long : resultOf (.encodeRequest 0xA5 0x03 (List.replicate 31 0)) readyState =
    some (.failed .encPayloadTooLong) := by decide
/-- V-FC-19 (both halves), V-FC-28. -/
theorem test_response_flip :
    resultOf (.decodeResponse [0xDD, 3, 0, 4, 0, 0, 0x77, 1, 0xFF, 0x84, 0x77]) readyState =
        some (.response 3 0 [0, 0, 0x77, 1]) ∧
      resultOf (.decodeResponse [0xDD, 3, 0, 0, 0, 0, 0x77, 1, 0xFF, 0x84, 0x77]) readyState =
        some (.response 3 0 []) := by decide
theorem test_response_device : resultOf (.decodeResponse [0xDD, 0xE1, 0x80, 0, 0xFF, 0x80, 0x77]) readyState =
    some (.deviceError 0x80) := by decide
/-- V-FC-14, V-FC-17, V-FC-24, V-FC-32, S4. -/
theorem test_response_reasons :
    (parseResponse [0x00]).result = .protocol .protoBadStart ∧
    (parseResponse [0xDD, 3, 0, 0]).result = .protocol .protoShortRead ∧
    (parseResponse [0xDD, 3, 0, 0x41]).result = .protocol .protoOversize ∧
    (parseResponse ([0xDD, 3, 0, 0x1F] ++ List.replicate 31 0 ++ [0xFF, 0xE1, 0x77])).result =
      .protocol .protoChecksum ∧
    (parseResponse [0xDD, 3, 0x80, 0, 0xFF, 0x80, 0]).result = .protocol .protoBadStop := by decide
/-- The accessor table of 95: 0x0802 is IS_CELL_UNDERVOLTAGE and IS_IC_ERROR. -/
theorem test_accessors :
    resultOf (.isCellUndervoltage 0x0802) readyState = some (.flag true) ∧
    resultOf (.isIcError 0x0802) readyState = some (.flag true) ∧
    resultOf (.isCellOvervoltage 0x0802) readyState = some (.flag false) ∧
    resultOf (.isSoftwareLock 0xE000) readyState = some (.flag false) := by decide
theorem test_accessors_each :
    resultOf (.isPackOvervoltage 0xFFFB) readyState = some (.flag false) ∧
    resultOf (.isPackUndervoltage 0x0008) readyState = some (.flag true) ∧
    resultOf (.isChargeOvertemp 0x0010) readyState = some (.flag true) ∧
    resultOf (.isChargeUndertemp 0x0010) readyState = some (.flag false) ∧
    resultOf (.isDischargeOvertemp 0x0040) readyState = some (.flag true) ∧
    resultOf (.isDischargeUndertemp 0x0040) readyState = some (.flag false) ∧
    resultOf (.isChargeOvercurrent 0x0100) readyState = some (.flag true) ∧
    resultOf (.isDischargeOvercurrent 0x0200) readyState = some (.flag true) ∧
    resultOf (.isShortCircuit 0x0800) readyState = some (.flag false) := by decide

/-- R231's labels. -/
theorem test_error_codes :
    [ErrorReason.ok, .ioShortWrite, .ioShortReadHeader, .ioShortReadPayload, .ioShortReadTrailer, .ioBufferTooSmall,
      .protoBadStart, .protoOversize, .protoShortRead, .protoChecksum, .protoBadStop, .deviceError,
      .encPayloadTooLong].map (ErrorReason.code Config.defaultErrCodes) =
      [0x00, 0x11, 0x12, 0x13, 0x14, 0x15, 0x21, 0x22, 0x23, 0x24, 0x25, 0x30, 0x40] := by decide

/-! OPEN and the commands: one operation on a small state. -/

/-- Moves: time, the stream's answer to a write, the queue draining, bytes arriving. -/
def tick (ms : Nat) : EnvMove := { EnvMove.quiet with elapse := ms }
def accepts (n : Nat) : EnvMove := { EnvMove.quiet with accept := some n }
def drains (n : Nat) : EnvMove := { EnvMove.quiet with drain := n }
def arrives (bs : List Byte) : EnvMove := { EnvMove.quiet with arrive := bs }

/-- What is looked at after a command: phase, R_ERR, the result registers and the value returned. -/
def outcomeOf (i : Instr) (s : State) : Option (Phase × ErrorReason × Byte × Byte × Byte) :=
  match exec i s with
  | .next t => some (t.phase, t.res.err, t.res.echo, t.res.code, t.res.len)
  | _ => none

/-- The events of one operation. -/
def eventsOf (i : Instr) (s : State) : Option (List Event) :=
  match exec i s with
  | .next t => some t.history
  | _ => none

/-- R160's worked example. -/
theorem test_open : eventsOf (.openDriver true 500) State.reset = some [.dir false] := by decide
theorem test_open_without_line : eventsOf (.openDriver false 0) State.reset = some [] := by decide
/-- U14: a command and a pure operation before OPEN are refused. -/
theorem test_not_open :
    (match exec .getStatus State.reset with | .refused .notOpen => true | _ => false) = true ∧
    (match exec (.toHostOrder 0x1234) State.reset with | .refused .notOpen => true | _ => false) = true := by decide

/-- R162's worked example. -/
def setMosfetState : State :=
  openedState 0 0 990 [0xDD, 0xE1, 0, 0, 0, 0, 0x77] [tick 0, accepts 9, drains 9, tick 10]

theorem test_execute_outcome :
    outcomeOf (.execute 0x5A 0xE1 [0, 3] 0) setMosfetState = some (.idle, .ok, 0xE1, 0, 0) := by decide
theorem test_setMosfet_events : eventsOf (.setMosfet .both) setMosfetState =
    some [.dir true, .tx [0xDD, 0x5A, 0xE1, 0x02, 0x00, 0x03, 0xFF, 0x1A, 0x77] 9, .flush, .dir false,
      .rx [0xDD, 0xE1, 0, 0], .rx [0, 0, 0x77], .stamp 1000] := by decide
/-- V-TR-23: the response carries a payload and the capacity is 0. -/
theorem test_setMosfet_payload : outcomeOf (.setMosfet .both)
    { setMosfetState with line := { setMosfetState.line with rxq := [0xDD, 0xE1, 0, 2, 0xAA, 0xBB, 0xFE, 0x99, 0x77] } } =
    some (.idle, .ioBufferTooSmall, 0xE1, 0, 2) := by decide
/-- V-TR-24. -/
theorem test_execute_too_long : eventsOf (.execute 0x5A 0x10 (List.replicate 31 0) 64) setMosfetState =
    some [.stamp 990] := by decide

/-- The 34-byte Status response of P1. -/
def statusResponse : List Byte :=
  [0xDD, 0x03, 0x00, 0x1B, 0x0A, 0x5A, 0xFF, 0x6A, 0x13, 0x88, 0x27, 0x10, 0x00, 0x07, 0x31, 0x9F, 0x00, 0x05] ++
    [0x00, 0x00, 0x08, 0x02, 0x21, 0x32, 0x03, 0x08, 0x02, 0x0B, 0xB8, 0x0A, 0xAB, 0xFA, 0x88, 0x77]

/-- P1 step 2: the wait across the rollover, then the Status response. -/
def statusState : State :=
  openedState 500 0xFFFFFF00 0 [] [tick 0x20, tick 0xD4, accepts 7, drains 7, arrives statusResponse, tick 70]

/-- The Status record an operation leaves. -/
def statusOf (i : Instr) (s : State) : Option Status :=
  match exec i s with
  | .next t => some t.records.status
  | _ => none

theorem test_getStatus_fields :
    (statusOf .getStatus statusState).map
        (fun r => (signed16 r.current, r.date, r.soc, r.temps.take 2)) =
      some (-150, 0x319F, 50, [0xB80B, 0xAB0A]) := by decide
theorem test_getStatus_stamp :
    (match exec .getStatus statusState with | .next t => t.lastDone | _ => 0) = 0x13A := by decide

/-- V-CMD-7: the cell response of P2. -/
def cellState : State :=
  openedState 0 0 0
    [0xDD, 0x04, 0x00, 0x10, 0x0C, 0xE4, 0x0C, 0xE5, 0x0C, 0xE3, 0x0C, 0xE4, 0x0C, 0xE6, 0x0C, 0xE4, 0x0C, 0xE2, 0x0C,
      0xE4, 0xF8, 0x70, 0x77] [tick 0, accepts 7, drains 7]

theorem test_getCells : resultOf .getCells cellState =
    some (.cells [3300, 3301, 3299, 3300, 3302, 3300, 3298, 3300]) := by decide
/-- P4: bus echo makes the request its own answer. -/
theorem test_getCells_echo : outcomeOf .getCells
    (openedState 0 0 0 [0xDD, 0xA5, 0x04, 0x00, 0xFF, 0xFC, 0x77] [tick 0, accepts 7, drains 7]) =
    some (.idle, .deviceError, 0xA5, 4, 0) := by decide

/-- V-CMD-11, and P3 step 2 (one bit flipped in the id). -/
theorem test_getHardware : resultOf .getHardware
    (openedState 0 0 0 [0xDD, 0x05, 0x00, 0x0C, 0x4A, 0x42, 0x44, 0x2D, 0x53, 0x50, 0x30, 0x34, 0x53, 0x30, 0x32, 0x30,
      0xFD, 0x0B, 0x77] [tick 0, accepts 7, drains 7]) =
    some (.hardware [0x4A, 0x42, 0x44, 0x2D, 0x53, 0x50, 0x30, 0x34, 0x53, 0x30, 0x32, 0x30]) := by decide
theorem test_getHardware_flip : outcomeOf .getHardware
    (openedState 0 0 0 [0xDD, 0x05, 0x00, 0x0C, 0x4A, 0x42, 0x44, 0x2D, 0x57, 0x50, 0x30, 0x34, 0x53, 0x30, 0x32, 0x30,
      0xFD, 0x0B, 0x77] [tick 0, accepts 7, drains 7]) =
    some (.idle, .protoChecksum, 0x05, 0, 12) := by decide

/-- S9 and P3 step 3: 5 of 9 bytes accepted, nothing read. -/
theorem test_short_write : eventsOf (.setMosfet .charge)
    { openedState 0 0 0 [1, 2, 3, 4] [tick 0, accepts 5, drains 5] with
      cfg := { opened := true, dirPresent := false, cmdDelayMs := 0 } } =
    some [.tx [0xDD, 0x5A, 0xE1, 0x02, 0x00, 0x01, 0xFF, 0x1C, 0x77] 5, .flush, .stamp 0] := by decide
/-- V-TR-12: the stream times out with nothing received; without a timeout the command is held (R179). -/
theorem test_silent_device : outcomeOf .getStatus
    (openedState 0 0 0 [] [tick 0, accepts 7, drains 7, { EnvMove.quiet with timeout := true }]) =
    some (.idle, .ioShortReadHeader, 0, 0, 0) := by decide
theorem test_silent_device_held : outcomeOf .getStatus (openedState 0 0 0 [] [tick 0, accepts 7, drains 7]) =
    some (.receivingHeader, .ok, 0, 0, 0) := by decide

/-! Witnesses: for each obligation with hypotheses, states and operands that meet all of them together, at the
boundary values of each clause. -/

/-- A step or an operation that answers a next state with a property. -/
def goesTo (o : StepResult) (P : State → Bool) : Bool :=
  match o with
  | .next t => P t
  | _ => false

theorem exists_of_goesTo {o : StepResult} {P : State → Bool} (h : goesTo o P = true) :
    ∃ t, o = .next t ∧ P t = true := by
  cases o with
  | next t => exact ⟨t, rfl, h⟩
  | _ => cases h

/-- The same for one transition. -/
def movesTo (o : Progress) (P : State → Bool) : Bool :=
  match o with
  | .moved t => P t
  | _ => false

theorem exists_of_movesTo {o : Progress} {P : State → Bool} (h : movesTo o P = true) :
    ∃ t, o = .moved t ∧ P t = true := by
  cases o with
  | moved t => exact ⟨t, rfl, h⟩
  | _ => cases h

/-- The host's next request, pushed. -/
def requesting (s : State) (request : List Byte) : State := s.withRequests [request]

/-- An opened block whose environment answers the write with `accepted` bytes and then empties the queue. -/
def servedState (queue : List Byte) (accepted : Nat) : State :=
  openedState 0 0 0 queue [tick 0, accepts accepted, drains 37]

theorem canonical_opened (delay last clock : Millis) (queue : List Byte) (script : List EnvMove) (sp : Space) :
    ((openedState delay last clock queue script).buf.get sp).wf = true := by
  cases sp <;> rfl

/-- An opened, idle state is sane whatever the clock, the received bytes and the environment are. -/
theorem openedState_sane (delay last clock : Millis) (queue : List Byte) (script : List EnvMove) :
    Sane (openedState delay last clock queue script) where
  params := (by decide : Config.defaultParams.wf)
  canonical := canonical_opened _ _ _ _ _
  inBounds := by intro sp c hc; cases sp <;> cases hc
  opened := fun h => absurd rfl h
  lineAtRest := fun _ _ _ => rfl
  lineDriven := fun _ h => by cases h
  drained := fun _ => rfl
  plen := rfl
  cap := Nat.zero_le _
  txLen := Nat.zero_le _
  payloadFits := fun h => by cases h
  lengthFits := fun h => by rcases h with h | h | ⟨h, -⟩ <;> cases h
  waiting := fun _ h => by cases h
  hardwareCap := fun h => absurd rfl h
  temps := rfl
  cells := rfl
  hwid := rfl
  hwidLen := Nat.zero_le _

theorem served_serves {queue arrived : List Byte} {sent accepted : Nat} (h : arrived <+: queue) (hs : sent ≤ 37) :
    Serves (servedState queue accepted) sent accepted arrived (tick 0) (accepts accepted) (drains 37) [] where
  script := rfl
  spacing := BitVec.le_def.2 (Nat.zero_le _)
  accepts := rfl
  drains := by simpa [servedState, openedState, drains] using hs
  arrives := by simpa [servedState, openedState, tick, accepts, drains, EnvMove.quiet] using h

/-- A state in each phase: a GET_STATUS in progress, its response received. -/
def inPhase (p : Phase) : State :=
  { openedState 0 0 0 [0xDD, 3, 0, 0, 0, 0, 0x77] [accepts 0, drains 37] with
    phase := p
    dirLevel := transmitPhase p
    op := { dir := 0xA5, cmd := 3, plen := 0, payload := [], cap := 64 }
    res := { echo := 0, code := 0, len := if p = .receivingPayload then 1 else 0, err := .ok } }

theorem inPhase_sane (p : Phase) : Sane (inPhase p) where
  params := (by decide : Config.defaultParams.wf)
  canonical := by intro sp; cases sp <;> rfl
  inBounds := by intro sp c hc; cases sp <;> cases hc
  opened := fun _ => rfl
  lineAtRest := fun _ _ h => h
  lineDriven := fun _ h => h
  drained := fun _ => rfl
  plen := rfl
  cap := Nat.le_refl _
  txLen := Nat.zero_le _
  payloadFits := fun h => by cases h; decide
  lengthFits := fun h => by rcases h with h | h | ⟨h, -⟩ <;> cases h <;> decide
  waiting := fun _ h => by cases h
  hardwareCap := fun _ h => by cases h
  temps := rfl
  cells := rfl
  hwid := rfl
  hwidLen := Nat.zero_le _

/-! Requests. -/

theorem witness_RequestRoundTrip : std.wf ∧ ({ std with openDriver := 0x02, execute := 0x01 } : Config.OpSel).wf := by
  decide
theorem witness_RequestMeaningIsUnique : decode std [0x22, 0xFF, 0xFD] = .ok (.toWireOrder 0xFFFD) := by decide
theorem witness_UnassignedSelectorIsRefused :
    (requesting State.reset [0x00]).phase = .idle ∧ (requesting State.reset [0x00]).host.requests = [[0x00]] ∧
    (0x00 : Byte) ∉ (requesting State.reset [0x00]).params.opSel.values ∧
    (0x3D : Byte) ∉ (requesting State.reset [0x3D]).params.opSel.values := by decide
theorem witness_StepRunsTheDecodedOperation :
    (requesting readyState [0x22, 0xFF, 0xFD]).phase = .idle ∧
    (requesting readyState [0x22, 0xFF, 0xFD]).host.requests = [[0x22, 0xFF, 0xFD]] ∧
    decode (requesting readyState [0x22, 0xFF, 0xFD]).params.opSel [0x22, 0xFF, 0xFD] = .ok (.toWireOrder 0xFFFD) := by
  decide
theorem witness_FetchedWordRunsNext : State.reset.params.opSel = Config.defaultOpSel ∧
    decodeTableWord 8 0x10 = some .getStatus ∧ decodeTableWord 24 0x342121 = some (.toHostOrder 0x2134) := by decide
/-- The very next step after reset runs the word's operation. -/
theorem test_fetched_word :
    (match step (State.reset.withFetchWord 24 0x341221) with | .next t => t.host.result | _ => .none) =
      .word 0x3412 := by decide
theorem witness_BusMonitorReadsRequests :
    (0xDCA50300 : BitVec 32).toNat =
      (0xDC : Byte).toNat * 2 ^ 24 + (0xA5 : Byte).toNat * 2 ^ 16 + (0x03 : Byte).toNat * 2 ^ 8 + (0 : Byte).toNat ∧
    (0xDC : Byte) ≠ 0xDD ∧
    ¬ ((0xA5 : Byte) = 0xA5 ∧ ((0x06 : Byte) = 0x03 ∨ (0x06 : Byte) = 0x04 ∨ (0x06 : Byte) = 0x05) ∧ (0 : Byte) = 0) ∧
    ¬ ((0xA5 : Byte) = 0x5A ∧ (0x06 : Byte) = 0xE1 ∧ (0 : Byte) = 2) ∧
    ¬ ((0x5A : Byte) = 0x5A ∧ (0xE1 : Byte) = 0xE1 ∧ (3 : Byte) = 2) := by decide

/-! The checksum engine, the wire codec and the frame codec. -/

theorem witness_ChecksumReturnsNegatedSum_accepted :
    Ready readyState ∧ (∀ d ∈ some (List.replicate 30 (0xFF : Byte)), d.length = (30 : Byte).toNat) ∧
    ¬ (31 ≤ (30 : Byte).toNat ∨ (0 < (30 : Byte).toNat ∧ some (List.replicate 30 (0xFF : Byte)) = none)) := by decide
theorem witness_ChecksumReturnsNegatedSum_absent : (∀ d ∈ (none : Option (List Byte)), d.length = (0 : Byte).toNat) ∧
    ¬ (31 ≤ (0 : Byte).toNat ∨ (0 < (0 : Byte).toNat ∧ (none : Option (List Byte)) = none)) := by decide
theorem witness_ChecksumReturnsNegatedSum_rejected :
    (∀ d ∈ some (List.replicate 31 (0 : Byte)), d.length = (31 : Byte).toNat) ∧ 31 ≤ (31 : Byte).toNat ∧
    (∀ d ∈ (none : Option (List Byte)), d.length = (1 : Byte).toNat) ∧
    (0 < (1 : Byte).toNat ∧ (none : Option (List Byte)) = none) := by decide
theorem witness_ChecksumReturnsNegatedSum_length : ∃ d ∈ some ([1] : List Byte), d.length ≠ (2 : Byte).toNat :=
  ⟨[1], rfl, by decide⟩
theorem witness_ChecksumCancelsTheSum :
    checksum 0xFF (List.replicate 30 (0xFF : Byte)).length (some (List.replicate 30 0xFF)) = some 0xE101 ∧
    checksum 0 ([] : List Byte).length (some []) = some 0 ∧ ([2, 1] : List Byte).Perm [1, 2] := by decide
theorem witness_ChecksumDetectsOneChangedByte :
    (List.replicate 29 (0 : Byte)).length + ([] : List Byte).length < 30 ∧ (0 : Byte) ≠ 1 ∧
    (List.replicate 30 (0 : Byte)).length ≤ 30 ∧
    (List.replicate 30 (0 : Byte)).length ≤ 30 ∧ 30 < 255 ∧ 255 ≤ 255 := by decide
/-- For SwapExchangesTheBytes, DecodeDateCutsTheFields, DecodeTemperatureIsExact, DecodeResponseFollowsTheChecks and the
fault accessors. -/
theorem witness_pure : Ready readyState := by decide
theorem witness_EncodeRequestBuildsTheFrame :
    Ready readyState ∧ ((0xA5 : Byte) = 0xA5 ∨ (0xA5 : Byte) = 0x5A) ∧
    ((0x5A : Byte) = 0xA5 ∨ (0x5A : Byte) = 0x5A) ∧ (List.replicate 30 (0 : Byte)).length ≤ 30 ∧
    ¬ (List.replicate 31 (0 : Byte)).length ≤ 30 ∧ (List.replicate 31 (0 : Byte)).length ≤ 255 := by decide
theorem witness_ResponseRoundTrips :
    Ready readyState ∧ (List.replicate 30 (7 : Byte)).length ≤ 30 ∧ ([] : List Byte).length ≤ 30 := by decide
theorem witness_RequestParsesAsDeviceError :
    Ready readyState ∧ ([0, 3] : List Byte).length ≤ 30 ∧ (0xE1 : Byte) ≠ 0 := by
  decide
/-- A flip of each byte of the 9-byte response with payload [1, 2]: the sixth bit of the length makes it 66, the second
makes it 3 and is not covered when it makes it smaller. -/
theorem witness_OneFlippedBitIsReported :
    ([1, 2] : List Byte).length ≤ 30 ∧ 8 < 7 + ([1, 2] : List Byte).length ∧
    (let frame := responseFrame 3 0 [1, 2];
      ([1, 2] : List Byte).length < (frame.getD 3 0 ^^^ ((1 : Byte) <<< 6)).toNat ∧
      64 < (frame.getD 3 0 ^^^ ((1 : Byte) <<< 6)).toNat ∧
      ([1, 2] : List Byte).length < (frame.getD 3 0 ^^^ ((1 : Byte) <<< 0)).toNat ∧
      ¬ 64 < (frame.getD 3 0 ^^^ ((1 : Byte) <<< 0)).toNat) ∧
    4 ≤ 7 ∧ 7 < 6 + ([1, 2] : List Byte).length ∧ 8 = 6 + ([1, 2] : List Byte).length := by decide
theorem witness_LongResponsesNeverPass :
    31 ≤ (31 : Byte).toNat ∧ (64 : Byte).toNat ≤ 64 ∧ (31 : Byte).toNat + 3 ≤ (List.replicate 34 (0 : Byte)).length ∧
    (64 : Byte).toNat + 3 ≤ (List.replicate 67 (0 : Byte)).length ∧ 65 ≤ (65 : Byte).toNat := by decide

/-! OPEN and refusals. -/

/-- For OpenLatchesTheConfiguration and BusyBlockRefusesEveryOperation. -/
theorem witness_OpenLatchesTheConfiguration : State.reset.phase = .idle ∧ (inPhase .flush).phase ≠ .idle := by decide
/-- A command, a pure operation, and one with an operand outside its type. -/
theorem witness_CommandsBeforeOpenAreRefused : State.reset.phase = .idle ∧ State.reset.cfg.opened = false ∧
    (∀ p d, Instr.getStatus ≠ .openDriver p d) ∧ (∀ p d, Instr.decodeDate 0 ≠ .openDriver p d) ∧
    ∀ p d, Instr.execute 0 0 [] 65 ≠ .openDriver p d :=
  ⟨rfl, rfl, fun _ _ => (by simp), fun _ _ => (by simp), fun _ _ => (by simp)⟩
theorem witness_OperandsOutsideTheirTypeAreRefused :
    Ready (servedState [] 0) ∧ ¬ ((0x00 : Byte) = 0xA5 ∨ (0x00 : Byte) = 0x5A) ∧
    ((0x5A : Byte) = 0xA5 ∨ (0x5A : Byte) = 0x5A) ∧ 64 < (65 : Byte).toNat ∧
    (let s : State := { servedState [] 0 with params := { Config.defaultParams with rxbufSize := 27 } };
      Ready s ∧ s.params.rxbufSize < (28 : Byte).toNat) := by decide
theorem witness_OperandsOutsideTheirTypeAreRefused_payload : 255 < (List.replicate 256 (0 : Byte)).length :=
  Nat.lt_of_lt_of_eq (by decide : 255 < 256) List.length_replicate.symm

/-! The sequencer. -/

/-- A transition out of every phase but IDLE. -/
theorem witness_TransitionsFollowTheTable (p : Phase) (hp : p ≠ .idle) : Sane (inPhase p) ∧
    ∃ t, advance (inPhase p) = .moved t ∧ (t.phase != p) = true := by
  refine ⟨inPhase_sane p, exists_of_movesTo ?_⟩
  cases p <;> first | exact absurd rfl hp | decide
/-- The transitions to STAMP out of the phases that can end early. -/
theorem witness_TransitionsFollowTheTable_early :
    movesTo (advance { inPhase .encoding with op := { (inPhase .encoding).op with payload := List.replicate 31 0 } })
      (fun t => t.res.err == .encPayloadTooLong) ∧
    movesTo (advance { inPhase .directionSwitch with seq := { State.reset.seq with txLen := 7, txCount := 6 } })
      (fun t => t.res.err == .ioShortWrite) ∧
    movesTo (advance { inPhase .receivingHeader with line := { State.reset.line with rxq := [0xDD, 3, 0, 65] } })
      (fun t => t.res.err == .ioBufferTooSmall) ∧
    movesTo (advance { inPhase .receivingTrailer with line := State.reset.line,
                                                      script := [{ EnvMove.quiet with timeout := true }] })
      (fun t => t.res.err == .ioShortReadTrailer) := by decide

/-- The last row: DONE with a Status record, and FAILED. -/
theorem witness_TransitionsFollowTheTable_outcome :
    movesTo (advance { inPhase .stamp with seq := { State.reset.seq with pending := .getStatus } })
      (fun t => t.phase == .idle && (match t.host.result with | .status _ => true | _ => false)) ∧
    movesTo (advance { inPhase .stamp with res := { (inPhase .stamp).res with err := .protoBadStop } })
      (fun t => t.host.result == .failed .protoBadStop) := by decide

/-- A command in WAIT. -/
def waitingState (delay : Millis) (script : List EnvMove) : State :=
  { inPhase .wait with cfg := { opened := true, dirPresent := true, cmdDelayMs := delay }, script := script }

theorem waitingState_sane (delay : Millis) (script : List EnvMove) : Sane (waitingState delay script) :=
  let h := inPhase_sane .wait
  ⟨h.params, h.canonical, h.inBounds, fun _ => rfl, fun _ _ _ => rfl, fun _ h => (by cases h), fun _ => rfl, rfl,
    h.cap, h.txLen, h.payloadFits, h.lengthFits, fun _ h => (by cases h), h.hardwareCap, h.temps, h.cells, h.hwid,
    h.hwidLen⟩
theorem witness_WaitEnforcesTheSpacing_sane : Sane (waitingState 500 [tick 100, tick 399, tick 1]) :=
  waitingState_sane _ _
theorem witness_WaitEnforcesTheSpacing_held :
    (waitingState 500 [tick 100, tick 399, tick 1]).phase = .wait ∧
    (waitingState 500 [tick 100, tick 399, tick 1]).seq.waitStart = none ∧
    sub32 (100 : Millis) 0 < 500 ∧ (sub32 (100 : Millis) 0).toNat + (sub32 (500 : Millis) 100).toNat < 4294967296 ∧
    movesTo (advance (waitingState 500 [tick 100, tick 399, tick 1])) (fun t => t.line.clock == 500) := by decide
theorem witness_WaitEnforcesTheSpacing_elapsed :
    movesTo (advance (waitingState 500 [tick 500])) (fun t => t.line.clock == 500) ∧
    movesTo (advance (waitingState 0 [])) (fun t => t.line.clock == 0) := by decide

/-- WAIT taken up again with t0 remembered. -/
def resumedWait : State :=
  { inPhase .wait with
    cfg := { opened := true, dirPresent := true, cmdDelayMs := 500 }
    seq := { State.reset.seq with waitStart := some 100 }
    line := { State.reset.line with clock := 400 }
    script := [tick 100] }

theorem resumedWait_sane : Sane resumedWait :=
  let h := inPhase_sane .wait
  ⟨h.params, h.canonical, h.inBounds, fun _ => rfl, fun _ _ _ => rfl, fun _ h => (by cases h), fun _ => rfl, rfl,
    h.cap, h.txLen, h.payloadFits, h.lengthFits, fun _ h => (by cases h; decide), h.hardwareCap, h.temps, h.cells,
    h.hwid, h.hwidLen⟩
theorem witness_WaitEnforcesTheSpacing_resumed :
    Sane resumedWait ∧ resumedWait.phase = .wait ∧ resumedWait.seq.waitStart = some 100 ∧
    ∃ t, advance resumedWait = .moved t ∧ (t.line.clock == 500) = true :=
  ⟨resumedWait_sane, rfl, rfl, exists_of_movesTo (by decide)⟩

/-- Every phase in which a command can be held, with nothing to lift the hold. -/
def stuckState (p : Phase) : State :=
  { inPhase p with
    cfg := { opened := true, dirPresent := true, cmdDelayMs := 500 }
    line := { State.reset.line with txq := if p = .flush then [0x77] else [] }
    script := [] }

/-- For HoldsAreOnlyWhereAllowed and UnliftedHoldIsAHang. -/
theorem witness_HoldsAreOnlyWhereAllowed (p : Phase) (hp : p ≠ .idle) (hr : restingPhase p = true) :
    ∃ t, step (stuckState p) = .next t ∧ (t.phase == p) = true := by
  apply exists_of_goesTo
  cases p <;> first | exact absurd rfl hp | (cases hr; done) | decide

theorem witness_ShortReadsNeedATimeout :
    (let s : State := { inPhase .validating with params := { Config.defaultParams with streamTimeout := false } };
      s.params.streamTimeout = false ∧ movesTo (advance s) (fun t => t.phase == .stamp) = true) := by decide

/-! Commands. -/

/-- A request and a response of 30 bytes each. -/
def longState : State := servedState (responseFrame 3 0 (List.replicate 30 1)) 37

theorem witness_ExecuteCompletes :
    Ready longState ∧ (∀ sp, (longState.buf.get sp).wf = true) ∧ ((0xA5 : Byte) = 0xA5 ∨ (0xA5 : Byte) = 0x5A) ∧
    (List.replicate 30 (0 : Byte)).length ≤ 30 ∧ (30 : Byte).toNat ≤ 64 ∧
    (30 : Byte).toNat ≤ longState.params.rxbufSize ∧ (List.replicate 30 (1 : Byte)).length ≤ (30 : Byte).toNat ∧
    (List.replicate 30 (1 : Byte)).length ≤ 30 ∧ 7 + (List.replicate 30 (0 : Byte)).length ≤ 37 ∧
    Serves longState (7 + (List.replicate 30 (0 : Byte)).length) 37 (responseFrame 3 0 (List.replicate 30 1)) (tick 0)
      (accepts 37) (drains 37) [] :=
  ⟨by decide, canonical_opened _ _ _ _ _, by decide, by decide, by decide, by decide, by decide, by decide, by decide,
    served_serves (List.prefix_refl _) (by decide)⟩
/-- For GetStatusCompletes, GetCellsCompletes and GetHardwareCompletes: a 30-byte payload. -/
theorem witness_ReadCommandsComplete :
    Ready longState ∧ (∀ sp, (longState.buf.get sp).wf = true) ∧ longState.params.wf ∧
    (List.replicate 30 (1 : Byte)).length ≤ longState.params.capStatus ∧
    (List.replicate 30 (1 : Byte)).length ≤ longState.params.capCells ∧
    (List.replicate 30 (1 : Byte)).length ≤ longState.params.capHardware ∧
    (List.replicate 30 (1 : Byte)).length ≤ 30 ∧ 7 ≤ 37 ∧
    Serves longState 7 37 (responseFrame 3 0 (List.replicate 30 1)) (tick 0) (accepts 37) (drains 37) [] :=
  ⟨by decide, canonical_opened _ _ _ _ _, by decide, by decide, by decide, by decide, by decide, by decide,
    served_serves (List.prefix_refl _) (by decide)⟩
/-- For the same three and SetMosfetCompletes: a device error with no payload. -/
theorem witness_CommandsComplete_error :
    Ready (servedState (responseFrame 3 0x80 []) 9) ∧ (servedState (responseFrame 3 0x80 []) 9).params.wf ∧
    (∀ sp, ((servedState (responseFrame 3 0x80 []) 9).buf.get sp).wf = true) ∧ (0x80 : Byte) ≠ 0 ∧ 9 ≤ 9 ∧
    Serves (servedState (responseFrame 3 0x80 []) 9) 9 9 (responseFrame 3 0x80 []) (tick 0) (accepts 9) (drains 37) [] :=
  ⟨by decide, by decide, canonical_opened _ _ _ _ _, by decide, by decide,
    served_serves (List.prefix_refl _) (by decide)⟩
theorem witness_SetMosfetCompletes :
    Ready (servedState (responseFrame 0xE1 0 []) 9) ∧ (servedState (responseFrame 0xE1 0 []) 9).params.wf ∧
    (∀ sp, ((servedState (responseFrame 0xE1 0 []) 9).buf.get sp).wf = true) ∧ 9 ≤ 9 ∧
    Serves (servedState (responseFrame 0xE1 0 []) 9) 9 9 (responseFrame 0xE1 0 []) (tick 0) (accepts 9) (drains 37) [] :=
  ⟨by decide, by decide, canonical_opened _ _ _ _ _, by decide, served_serves (List.prefix_refl _) (by decide)⟩
/-- 64 payload bytes, the most a capacity admits. -/
def fullState : State := servedState ([0xDD, 3, 0, 64] ++ List.replicate 64 1 ++ [0, 0, 0x77]) 9

/-- GET_STATUS: the checksum cannot be computed. -/
theorem witness_FullResponseDecidesTheReason :
    commandIssue fullState .getStatus = some ⟨.getStatus, 0xA5, 0x03, [], 64⟩ ∧
    Ready fullState ∧ (∀ sp, (fullState.buf.get sp).wf = true) ∧ 64 ≤ fullState.params.rxbufSize ∧
    ([] : List Byte).length ≤ 30 ∧ (64 : Byte).toNat = (List.replicate 64 (1 : Byte)).length ∧
    (List.replicate 64 (1 : Byte)).length ≤ 64 ∧ ([0, 0, 0x77] : List Byte).length = 3 ∧
    7 + ([] : List Byte).length ≤ 9 ∧
    Serves fullState (7 + ([] : List Byte).length) 9 ([0xDD, 3, 0, 64] ++ List.replicate 64 1 ++ [0, 0, 0x77]) (tick 0)
      (accepts 9) (drains 37) [] ∧
    (decodeByIndex ([0xDD, 3, 0, 64] ++ List.replicate 64 1 ++ [0, 0, 0x77])).1.reason = .protoChecksum :=
  ⟨rfl, by decide, canonical_opened _ _ _ _ _, by decide, by decide, by decide, by decide, by decide, by decide,
    served_serves (List.prefix_refl _) (by decide), by decide⟩
/-- SET_MOSFET: the empty response, OK. -/
theorem witness_FullResponseDecidesTheReason_ok :
    (let s := servedState ([0xDD, 0xE1, 0, 0] ++ [] ++ [0, 0, 0x77]) 9
     commandIssue s (.setMosfet .both) = some ⟨.setMosfet, 0x5A, 0xE1, [0, 3], 0⟩ ∧ Ready s ∧
      (∀ sp, (s.buf.get sp).wf = true) ∧ 0 ≤ s.params.rxbufSize ∧ ([0, 3] : List Byte).length ≤ 30 ∧
      (0 : Byte).toNat = ([] : List Byte).length ∧ ([] : List Byte).length ≤ 0 ∧
      7 + ([0, 3] : List Byte).length ≤ 9 ∧
      Serves s (7 + ([0, 3] : List Byte).length) 9 ([0xDD, 0xE1, 0, 0] ++ [] ++ [0, 0, 0x77]) (tick 0) (accepts 9)
        (drains 37) []) ∧
    (decodeByIndex ([0xDD, 0xE1, 0, 0] ++ [] ++ [0, 0, 0x77])).1.reason = .ok :=
  ⟨⟨rfl, by decide, canonical_opened _ _ _ _ _, by decide, by decide, by decide, by decide, by decide,
    served_serves (List.prefix_refl _) (by decide)⟩, by decide⟩
/-- GET_STATUS with no byte accepted, SET_MOSFET with all but one. -/
theorem witness_ShortWriteReadsNothing :
    commandIssue (servedState [] 0) .getStatus = some ⟨.getStatus, 0xA5, 0x03, [], 64⟩ ∧
    commandIssue (servedState [] 8) (.setMosfet .both) = some ⟨.setMosfet, 0x5A, 0xE1, [0, 3], 0⟩ ∧
    Ready (servedState [] 0) ∧ Ready (servedState [] 8) ∧ (∀ sp, ((servedState [] 0).buf.get sp).wf = true) ∧
    (∀ sp, ((servedState [] 8).buf.get sp).wf = true) ∧ ([0, 3] : List Byte).length ≤ 30 ∧
    0 < 7 + ([] : List Byte).length ∧ 8 < 7 + ([0, 3] : List Byte).length ∧
    Serves (servedState [] 0) 0 0 [] (tick 0) (accepts 0) (drains 37) [] ∧
    Serves (servedState [] 8) 8 8 [] (tick 0) (accepts 8) (drains 37) [] :=
  ⟨rfl, rfl, by decide, by decide, canonical_opened _ _ _ _ _, canonical_opened _ _ _ _ _, by decide, by decide,
    by decide, served_serves (List.prefix_refl _) (by decide), served_serves (List.prefix_refl _) (by decide)⟩
theorem witness_TooLongPayloadFailsBeforeTheBus :
    Ready (servedState [] 0) ∧ ((0x5A : Byte) = 0xA5 ∨ (0x5A : Byte) = 0x5A) ∧
    31 ≤ (List.replicate 31 (0 : Byte)).length ∧ (List.replicate 31 (0 : Byte)).length ≤ 255 ∧
    (0 : Byte).toNat ≤ 64 ∧ (0 : Byte).toNat ≤ (servedState [] 0).params.rxbufSize := by decide
/-- One byte more than the capacity: 65 for GET_STATUS, 1 for SET_MOSFET. -/
theorem witness_OversizeHeaderStopsReading :
    (let s := servedState [0xDD, 3, 0, 65] 7
     commandIssue s .getStatus = some ⟨.getStatus, 0xA5, 0x03, [], 64⟩ ∧ Ready s ∧
      (∀ sp, (s.buf.get sp).wf = true) ∧ ([] : List Byte).length ≤ 30 ∧ 64 < (65 : Byte).toNat ∧
      7 + ([] : List Byte).length ≤ 7 ∧
      Serves s (7 + ([] : List Byte).length) 7 [0xDD, 3, 0, 65] (tick 0) (accepts 7) (drains 37) []) ∧
    (let s := servedState [0xDD, 0xE1, 0, 1] 9
     commandIssue s (.setMosfet .none) = some ⟨.setMosfet, 0x5A, 0xE1, [0, 0], 0⟩ ∧ Ready s ∧
      (∀ sp, (s.buf.get sp).wf = true) ∧ ([0, 0] : List Byte).length ≤ 30 ∧ 0 < (1 : Byte).toNat ∧
      7 + ([0, 0] : List Byte).length ≤ 9 ∧
      Serves s (7 + ([0, 0] : List Byte).length) 9 [0xDD, 0xE1, 0, 1] (tick 0) (accepts 9) (drains 37) []) :=
  ⟨⟨rfl, by decide, canonical_opened _ _ _ _ _, by decide, by decide, by decide,
    served_serves (List.prefix_refl _) (by decide)⟩,
   ⟨rfl, by decide, canonical_opened _ _ _ _ _, by decide, by decide, by decide,
    served_serves (List.prefix_refl _) (by decide)⟩⟩

/-! What every run keeps, and whole commands. -/

/-- A GET_STATUS response with no payload: OK. -/
def okState : State := servedState (responseFrame 3 0 []) 7

/-- For EveryStepEndsAtRest, EveryStepKeepsSane, SaneMachineNeverFaults, OnlyOpenConfigures, OnlyStampWritesLastDone,
ReceivedBytesAreConserved and TransmittedBytesAreConserved: a step from a sane state that runs a whole command, one that
runs OPEN, and one of an idle block. -/
theorem witness_steps :
    Sane okState ∧
    (∃ t, step (requesting okState [0x10]) = .next t ∧ (t.phase == .idle && t.res.err == .ok) = true) ∧
    (∃ t, step (requesting State.reset [0x01, 1, 0, 0, 0, 0]) = .next t ∧ t.cfg.opened = true) ∧
    (∃ t, step okState = .next t ∧ (t.phase == .idle) = true) :=
  ⟨openedState_sane _ _ _ _ _, exists_of_goesTo (by decide), exists_of_goesTo (by decide),
    exists_of_goesTo (by decide)⟩
theorem witness_IdleBlockOnlyQueues :
    okState.phase = .idle ∧ okState.host.requests = [] ∧ State.reset.host.requests = [] ∧ State.reset.script = [] := by
  decide
theorem witness_IdleBlockOnlyQueues_script : okState.script = tick 0 :: [accepts 7, drains 37] := rfl
theorem witness_ReadyOperationsAnswer : Sane okState ∧ Ready okState ∧
    (Instr.execute 0xA5 0x03 [] 64).wellFormed = true ∧ (64 : Byte).toNat ≤ okState.params.rxbufSize :=
  ⟨openedState_sane _ _ _ _ _, by decide, by decide, by decide⟩
/-- For CommandEndsWithOneStamp, OkCertifiesTheFrame, OfferedFramesAreWellFormed, CommandRegisterFrame and
CommandMemoryFrame: a command that ends OK. -/
theorem witness_command :
    Sane okState ∧ okState.params.wf ∧ commandIssue okState .getStatus = some ⟨.getStatus, 0xA5, 0x03, [], 64⟩ ∧
    ∃ t, exec .getStatus okState = .next t ∧ (t.phase == .idle && t.res.err == .ok) = true :=
  ⟨openedState_sane _ _ _ _ _, by decide, by decide, exists_of_goesTo (by decide)⟩
/-- The same for their clauses: a short write, a device error, a command that is held, one that writes its records. -/
theorem witness_command_clauses :
    (∃ t, exec .getStatus (servedState [] 6) = .next t ∧ (t.phase == .idle && t.res.err == .ioShortWrite) = true) ∧
    (∃ t, exec .getCells (servedState (responseFrame 4 0x80 []) 7) = .next t ∧
      (t.phase == .idle && t.res.err == .deviceError) = true) ∧
    (∃ t, exec .getHardware (servedState [] 7) = .next t ∧ (t.phase == .receivingHeader) = true) ∧
    (∃ t, exec (.execute 0xA5 3 (List.replicate 31 0) 0) (servedState [] 7) = .next t ∧
      (t.phase == .idle && t.res.err == .encPayloadTooLong) = true) ∧
    (∃ t, exec .getStatus (openedState 0 0 0 [] [tick 0, accepts 7, drains 7, { EnvMove.quiet with timeout := true }]) =
      .next t ∧ (t.phase == .idle && t.res.err == .ioShortReadHeader) = true) ∧
    ∃ t, exec .getHardware (servedState (responseFrame 5 0 [0x4A]) 7) = .next t ∧ (t.records.hwidLen == 1) = true :=
  ⟨exists_of_goesTo (by decide), exists_of_goesTo (by decide), exists_of_goesTo (by decide),
    exists_of_goesTo (by decide), exists_of_goesTo (by decide), exists_of_goesTo (by decide)⟩
theorem witness_PureOperationFrame :
    isPure (.toHostOrder 0x1234) = true ∧ usesChecksum (.toHostOrder 0x1234) = false ∧
    isPure (.decodeResponse []) = true ∧
    ∃ t, exec (.toHostOrder 0x1234) readyState = .next t ∧ (t.phase == .idle) = true :=
  ⟨rfl, rfl, rfl, exists_of_goesTo (by decide)⟩
/-- Two starts that differ in every register an earlier command writes. -/
def staleState : State :=
  { okState with
    res := { echo := 9, code := 9, len := 9, err := .protoBadStop }
    buf := { okState.buf with txbuf := [(0, 1)], rxbuf := [(1, 2)] }
    seq := { txLen := 9, txCount := 8, waitStart := none, pending := .getCells } }

theorem witness_NoCommandReadsStaleState : SameStart okState staleState ∧
    commandIssue okState .getStatus = some ⟨.getStatus, 0xA5, 0x03, [], 64⟩ ∧
    ∃ t, exec .getStatus okState = .next t ∧ (t.phase == .idle && t.res.err == .ok) = true :=
  ⟨⟨rfl, rfl, rfl, rfl, rfl, rfl, rfl, canonical_opened _ _ _ _ _, by intro sp; cases sp <;> rfl⟩, by decide,
    exists_of_goesTo (by decide)⟩
/-- A move of a helpful environment. -/
def helpful : EnvMove := { elapse := 1, arrive := [], drain := 37, accept := some 37, timeout := true }

theorem helpful_premises (delay : Millis) (n : Nat) (hn : delay.toNat + 8 ≤ n) :
    let s := openedState delay 0 0 [] (List.replicate n helpful)
    Sane s ∧ Ready s ∧ commandIssue s .getStatus = some ⟨.getStatus, 0xA5, 0x03, [], 64⟩ ∧
    s.params.streamTimeout = true ∧ (∀ m ∈ s.script, Helpful m) ∧ s.cfg.cmdDelayMs.toNat + 8 ≤ s.script.length :=
  ⟨openedState_sane _ _ _ _ _, ⟨rfl, rfl⟩, rfl, rfl, fun m hm => by rw [List.eq_of_mem_replicate hm]; decide,
    by simpa [openedState] using hn⟩

/-- The shortest scripts for a spacing of 0 and of 2 ms. -/
theorem witness_HelpfulEnvironmentCompletes :
    (let s := openedState 0 0 0 [] (List.replicate 8 helpful)
     Sane s ∧ Ready s ∧ commandIssue s .getStatus = some ⟨.getStatus, 0xA5, 0x03, [], 64⟩ ∧
      s.params.streamTimeout = true ∧ (∀ m ∈ s.script, Helpful m) ∧ s.cfg.cmdDelayMs.toNat + 8 ≤ s.script.length) ∧
    (let s := openedState 2 0 0 [] (List.replicate 10 helpful)
     Sane s ∧ Ready s ∧ commandIssue s .getStatus = some ⟨.getStatus, 0xA5, 0x03, [], 64⟩ ∧
      s.params.streamTimeout = true ∧ (∀ m ∈ s.script, Helpful m) ∧ s.cfg.cmdDelayMs.toNat + 8 ≤ s.script.length) :=
  ⟨helpful_premises 0 8 (by decide), helpful_premises 2 10 (by decide)⟩
/-- V-TR-12: on such a script the silent device's command ends by a time-out (R58, R169). -/
theorem test_helpful :
    outcomeOf .getStatus (openedState 2 0 0 [] (List.replicate 10 helpful)) =
      some (.idle, .ioShortReadHeader, 0, 0, 0) := by decide

/-! Records. -/

theorem witness_StatusFieldsComeFromTheirOffsets :
    Config.defaultParams.statusLayout = Config.defaultStatusLayout ∧ 2 ≤ (List.replicate 2 (1 : Byte)).length ∧
    ¬ 4 ≤ (List.replicate 2 (1 : Byte)).length ∧ 23 ≤ (List.replicate 23 (1 : Byte)).length ∧
    0 < min 1 (min Config.defaultParams.ntcMax (((List.replicate 25 (1 : Byte)).length - 23) / 2)) := by decide
theorem witness_CellsAreBigEndianWords : 0 < min 32 (([1, 2] : List Byte).length / 2) ∧
    31 < min 32 ((List.replicate 64 (1 : Byte)).length / 2) := by decide
theorem witness_FixedRequestFrames : State.reset.params.mosfetEnc = Config.defaultMosfetEnc := rfl

end Sys2Proof.Tests
end

/-! ## Reading a request back (30_encoding.md R94; O1) -/

namespace Sys2Proof

open Sys2Proof.Machine
open Config (OpSel)

/-- A u16 operand is read back from its two bytes, high byte first. -/
@[simp] theorem wordOperand_hi8_lo8 (make : Word → Instr) (v : Word) :
    wordOperand make [hi8 v, lo8 v] = some (make v) := by
  simp [wordOperand]

/-- A bool operand is read back from its byte. -/
theorem boolOfByte_ite (b : Bool) : boolOfByte (if b then 1 else 0) = some b := by
  cases b <;> rfl

/-- A mask state is read back from the byte that names it. -/
@[simp] theorem maskOfByte_byteOfMask (mask : MosfetMask) : maskOfByte (byteOfMask mask) = some mask := by
  cases mask <;> rfl

/-- OPEN's operands are read back from their five bytes. -/
theorem openOperands_operandBytes (present : Bool) (delay : Millis) :
    openOperands (Instr.openDriver present delay).operandBytes = some (.openDriver present delay) := by
  simp only [Instr.operandBytes, bytes32, openOperands, boolOfByte_ite, be32_bytes32, Option.map_some]

/-- CHECKSUM's operands are read back: the third byte says whether data is present, so absent data and empty data
differ. -/
theorem checksumOperands_operandBytes (byte length : Byte) (data : Option (List Byte)) :
    checksumOperands (Instr.checksum byte length data).operandBytes = some (.checksum byte length data) := by
  cases data with
  | none => rfl
  | some data => simp [Instr.operandBytes, checksumOperands]

/-- The table has a row for every operation: it stands under the operation's selector, and its reader gives the
operation back from its operand bytes. -/
theorem exists_row_reading (t : OpSel) (i : Instr) :
    ∃ row ∈ opTable t, row.selector = i.selector t ∧ row.operands i.operandBytes = some i := by
  cases i with
  | openDriver present delay =>
    exact ⟨_, List.mem_of_getElem? (i := 0) rfl, rfl, openOperands_operandBytes present delay⟩
  | execute dir cmd payload cap => exact ⟨_, List.mem_of_getElem? (i := 1) rfl, rfl, rfl⟩
  | getStatus => exact ⟨_, List.mem_of_getElem? (i := 2) rfl, rfl, rfl⟩
  | getCells => exact ⟨_, List.mem_of_getElem? (i := 3) rfl, rfl, rfl⟩
  | getHardware => exact ⟨_, List.mem_of_getElem? (i := 4) rfl, rfl, rfl⟩
  | setMosfet mask =>
    exact ⟨_, List.mem_of_getElem? (i := 5) rfl, rfl, by simp [Instr.operandBytes, maskOperand]⟩
  | checksum byte length data =>
    exact ⟨_, List.mem_of_getElem? (i := 6) rfl, rfl, checksumOperands_operandBytes byte length data⟩
  | toHostOrder v => exact ⟨_, List.mem_of_getElem? (i := 7) rfl, rfl, wordOperand_hi8_lo8 _ v⟩
  | toWireOrder v => exact ⟨_, List.mem_of_getElem? (i := 8) rfl, rfl, wordOperand_hi8_lo8 _ v⟩
  | decodeDate v => exact ⟨_, List.mem_of_getElem? (i := 9) rfl, rfl, wordOperand_hi8_lo8 _ v⟩
  | decodeTemperature raw => exact ⟨_, List.mem_of_getElem? (i := 10) rfl, rfl, wordOperand_hi8_lo8 _ raw⟩
  | encodeRequest dir cmd payload => exact ⟨_, List.mem_of_getElem? (i := 11) rfl, rfl, rfl⟩
  | decodeResponse bytes => exact ⟨_, List.mem_of_getElem? (i := 12) rfl, rfl, rfl⟩
  | isCellOvervoltage f => exact ⟨_, List.mem_of_getElem? (i := 13) rfl, rfl, wordOperand_hi8_lo8 _ f⟩
  | isCellUndervoltage f => exact ⟨_, List.mem_of_getElem? (i := 14) rfl, rfl, wordOperand_hi8_lo8 _ f⟩
  | isPackOvervoltage f => exact ⟨_, List.mem_of_getElem? (i := 15) rfl, rfl, wordOperand_hi8_lo8 _ f⟩
  | isPackUndervoltage f => exact ⟨_, List.mem_of_getElem? (i := 16) rfl, rfl, wordOperand_hi8_lo8 _ f⟩
  | isChargeOvertemp f => exact ⟨_, List.mem_of_getElem? (i := 17) rfl, rfl, wordOperand_hi8_lo8 _ f⟩
  | isChargeUndertemp f => exact ⟨_, List.mem_of_getElem? (i := 18) rfl, rfl, wordOperand_hi8_lo8 _ f⟩
  | isDischargeOvertemp f => exact ⟨_, List.mem_of_getElem? (i := 19) rfl, rfl, wordOperand_hi8_lo8 _ f⟩
  | isDischargeUndertemp f => exact ⟨_, List.mem_of_getElem? (i := 20) rfl, rfl, wordOperand_hi8_lo8 _ f⟩
  | isChargeOvercurrent f => exact ⟨_, List.mem_of_getElem? (i := 21) rfl, rfl, wordOperand_hi8_lo8 _ f⟩
  | isDischargeOvercurrent f => exact ⟨_, List.mem_of_getElem? (i := 22) rfl, rfl, wordOperand_hi8_lo8 _ f⟩
  | isShortCircuit f => exact ⟨_, List.mem_of_getElem? (i := 23) rfl, rfl, wordOperand_hi8_lo8 _ f⟩
  | isIcError f => exact ⟨_, List.mem_of_getElem? (i := 24) rfl, rfl, wordOperand_hi8_lo8 _ f⟩
  | isSoftwareLock f => exact ⟨_, List.mem_of_getElem? (i := 25) rfl, rfl, wordOperand_hi8_lo8 _ f⟩

/-- Under legal selectors a request with a row's selector means what that row reads from the operand bytes. -/
theorem decode_of_mem {t : OpSel} {row : OpRow} {ops : List Byte} {i : Instr} (ht : t.wf) (hm : row ∈ opTable t)
    (hr : row.operands ops = some i) : decode t (row.selector :: ops) = .ok i := by
  simp only [decode, rowOf_of_mem ht hm, hr]

/-- Settles O1: the row of an operation reads the operation back, and legal selectors lead to that row. -/
theorem requestRoundTrip : Obligations.RequestRoundTrip := by
  intro t i ht
  obtain ⟨row, hm, hsel, hread⟩ := exists_row_reading t i
  have hdec := decode_of_mem ht hm hread
  rw [hsel] at hdec
  exact hdec

end Sys2Proof

/-! ## What the operations answer (10_state.md R39; 70_reset_and_hazards.md R243) -/

namespace Sys2Proof.Machine

open Sys2Proof.Safety

/-- A pure operation is one issue check and what it guards: a next state in which CHK_OK, the counter of free values
and the value returned may be new, or, with an operand outside its type, a refusal. -/
theorem exec_pure_cases {i : Instr} (s : State) (hi : isPure i = true) :
    ∃ k, exec i s = whenReady s k ∧
      ((∃ chk draws r, k = .next ({ s with chkOk := chk, draws := draws }.answer r)) ∨
        (i.wellFormed = false ∧ ∃ r, k = .refused r)) := by
  cases i with
  | openDriver | execute | getStatus | getCells | getHardware | setMosfet => cases hi
  | checksum byte length data =>
    refine ⟨_, rfl, ?_⟩
    by_cases hd : legalData length data
    · rw [if_neg (not_not.2 hd)]
      cases checksum byte length.toNat data with
      | some value => exact .inl ⟨true, s.draws, _, rfl⟩
      | none => exact .inl ⟨false, s.draws + 1, _, rfl⟩
    · rw [if_pos hd]
      exact .inr ⟨decide_eq_false hd, _, rfl⟩
  | encodeRequest dir cmd payload =>
    refine ⟨_, rfl, ?_⟩
    by_cases hd : legalDirection dir
    · rw [if_neg (not_not.2 hd)]
      by_cases hp : legalPayload payload
      · rw [if_neg (not_not.2 hp)]
        cases encodeFrame dir cmd payload with
        | some frame => exact .inl ⟨true, s.draws, _, rfl⟩
        | none => exact .inl ⟨false, s.draws, _, rfl⟩
      · rw [if_pos hp]
        exact .inr ⟨decide_eq_false fun h => hp h.2, _, rfl⟩
    · rw [if_pos hd]
      exact .inr ⟨decide_eq_false fun h => hd h.1, _, rfl⟩
  | decodeResponse bytes => exact ⟨_, rfl, .inl ⟨_, s.draws, _, rfl⟩⟩
  | _ => exact ⟨_, rfl, .inl ⟨s.chkOk, s.draws, _, rfl⟩⟩

/-- In a ready block a pure operation with operands inside their types answers a next state. -/
theorem exec_pure_of_wellFormed {i : Instr} {s : State} (hs : Ready s) (hi : isPure i = true)
    (hw : i.wellFormed = true) : ∃ t, exec i s = .next t := by
  obtain ⟨k, hk, ⟨chk, draws, r, rfl⟩ | ⟨hn, -⟩⟩ := exec_pure_cases s hi
  · exact ⟨_, hk.trans (whenReady_of_ready hs _)⟩
  · rw [hw] at hn; cases hn

/-- A pure operation answers a next state only in a ready block, and changes at most CHK_OK, the counter of free values
and the value returned. -/
theorem exec_pure_next {i : Instr} {s t : State} (hi : isPure i = true) (h : exec i s = .next t) :
    Ready s ∧ ∃ chk draws r, t = { s with chkOk := chk, draws := draws }.answer r := by
  obtain ⟨k, hk, hcases⟩ := exec_pure_cases s hi
  rw [hk] at h
  obtain ⟨hs, rfl⟩ := whenReady_next h
  obtain ⟨chk, draws, r, ht⟩ | ⟨-, r, ht⟩ := hcases
  · cases ht
    exact ⟨hs, chk, draws, r, rfl⟩
  · cases ht

/-- OPEN ends where it began, in IDLE. -/
theorem execOpen_next_phase {present : Bool} {delay : Millis} {s t : State}
    (h : exec (.openDriver present delay) s = .next t) : t.phase = .idle := by
  obtain ⟨hidle, ht⟩ := whenIdle_next (h : execOpen present delay s = .next t)
  cases ht
  simpa using hidle

/-- In IDLE, OPEN answers a next state whatever its operands are. -/
theorem execOpen_of_idle {s : State} (hs : s.phase = .idle) (present : Bool) (delay : Millis) :
    ∃ t, exec (.openDriver present delay) s = .next t :=
  ⟨_, whenIdle_of_idle hs _⟩

/-- With operands inside their types an operation is pure, OPEN, or a command that is issued. -/
theorem wellFormed_cases {i : Instr} (s : State) (hw : i.wellFormed = true)
    (hcap : ∀ dir cmd payload cap, i = .execute dir cmd payload cap → cap.toNat ≤ s.params.rxbufSize) :
    isPure i = true ∨ (∃ present delay, i = .openDriver present delay) ∨ ∃ q, commandIssue s i = some q := by
  cases i with
  | openDriver present delay => exact .inr (.inl ⟨present, delay, rfl⟩)
  | execute dir cmd payload cap =>
    obtain ⟨hd, hp, hc⟩ := of_decide_eq_true hw
    exact .inr (.inr ⟨_, commandIssue_execute_of hd hp hc (hcap dir cmd payload cap rfl)⟩)
  | getStatus | getCells | getHardware | setMosfet => exact .inr (.inr ⟨_, rfl⟩)
  | _ => exact .inl rfl

/-! ## Where a step ends, and why it stays there (43_transport.md R179; O29) -/

/-- In IDLE, a step is one move of the environment or the operation the next request names; in any other phase the
command in progress goes on. -/
theorem step_next_cases {s t : State} (h : step s = .next t) :
    (s.phase = .idle ∧ t = s.envMove) ∨
      (∃ i later, s.phase = .idle ∧ exec i (s.withRequests later) = .next t) ∨
      (s.phase ≠ .idle ∧ s.proceed = .next t) := by
  unfold step at h
  split at h
  · rename_i hidle
    split at h
    · cases h
      exact .inl ⟨hidle, rfl⟩
    · split at h
      · cases h
      · exact .inr (.inl ⟨_, _, hidle, h⟩)
  · exact .inr (.inr ⟨‹_›, h⟩)

/-- In a phase other than IDLE a step is what the command in progress does. -/
theorem step_of_busy {s : State} (h : s.phase ≠ .idle) : step s = s.proceed := if_neg h

/-- An operation ends in IDLE, or at a hold that the environment has not lifted. -/
theorem exec_ends {i : Instr} {s t : State} (h : exec i s = .next t) :
    t.phase = .idle ∨ ∃ u, u.phase ≠ .idle ∧ advance u = .held t := by
  obtain hi | ⟨present, delay, rfl⟩ | ⟨q, hq⟩ := exec_next_cases h
  · obtain ⟨⟨hidle, -⟩, chk, draws, r, rfl⟩ := exec_pure_next hi h
    exact .inl hidle
  · exact .inl (execOpen_next_phase h)
  · exact State.proceed_ends (by simp) (exec_command_next hq h).2

/-- So does a step. -/
theorem step_ends {s t : State} (h : step s = .next t) :
    t.phase = .idle ∨ ∃ u, u.phase ≠ .idle ∧ advance u = .held t := by
  obtain ⟨hidle, rfl⟩ | ⟨i, later, -, hexec⟩ | ⟨hbusy, hrun⟩ := step_next_cases h
  · exact .inl (by simpa using hidle)
  · exact exec_ends hexec
  · exact State.proceed_ends hbusy hrun

/-! A phase with no move left, whose hold is not lifted, is held as it is. -/

theorem phaseWait_of_still {s : State} {t0 : Millis} (hs : s.script = []) (h0 : s.seq.waitStart = some t0)
    (hb : sub32 s.line.clock t0 < s.cfg.cmdDelayMs - sub32 t0 s.lastDone) : phaseWait s = .held s := by
  have hw : s.waitClock t0 (s.cfg.cmdDelayMs - sub32 t0 s.lastDone) = .held s :=
    State.hold_of_still hs (decide_eq_false (BitVec.not_le.2 hb))
  simp only [phaseWait, h0, waitRemaining, hw]
  rw [← h0]

/-- Only a move of the environment answers a write (R56). -/
theorem phaseTransmitting_of_still {s : State} {frame : List Byte} (hs : s.script = [])
    (hf : s.memRead .txbuf 0 s.seq.txLen = some frame) : phaseTransmitting s = .held s := by
  have hw : s.streamWrite frame = .held s := State.hold_of_still hs rfl
  simp only [phaseTransmitting, hf, hw]

theorem phaseFlush_of_still {s : State} (hs : s.script = []) (hq : s.line.txq ≠ []) : phaseFlush s = .held s := by
  have hw : s.streamFlush = .held s := State.hold_of_still hs (by simpa using hq)
  simp only [phaseFlush, hw]

/-- Only a move of the environment expires the timeout of a read (R58). -/
theorem State.streamRead_of_still {s : State} {n : Nat} (hs : s.script = []) (hn : s.line.rxq.length < n) :
    s.streamRead n = .held s :=
  State.hold_of_still hs (by simp [EnvMove.quiet, hn])

theorem phaseReceivingHeader_of_still {s : State} (hs : s.script = []) (hn : s.line.rxq.length < 4) :
    phaseReceivingHeader s = .held s := by
  simp only [phaseReceivingHeader, State.streamRead_of_still hs (show _ < Config.RSP_HDR from hn)]

theorem phaseReceivingPayload_of_still {s : State} (hs : s.script = []) (hn : s.line.rxq.length < s.res.len.toNat) :
    phaseReceivingPayload s = .held s := by
  simp only [phaseReceivingPayload, State.streamRead_of_still hs hn]

theorem phaseReceivingTrailer_of_still {s : State} (hs : s.script = []) (hn : s.line.rxq.length < 3) :
    phaseReceivingTrailer s = .held s := by
  simp only [phaseReceivingTrailer, State.streamRead_of_still hs (show _ < Config.RSP_TRL from hn)]

/-- TRANSMITTING is held only with its frame read from the buffer. -/
theorem phaseTransmitting_held_frame {s t : State} (h : phaseTransmitting s = .held t) :
    ∃ frame, s.memRead .txbuf 0 s.seq.txLen = some frame := by
  unfold phaseTransmitting at h
  split at h
  · cases h
  · exact ⟨_, ‹_›⟩

/-- A hold with no move left is the same hold again (R179): t0 is remembered, so WAIT does not sample it anew, and what
the other phases wait for is as far away as before. -/
theorem advance_of_held {s t : State} (h : advance s = .held t) : advance t = .held t := by
  cases hp : s.phase <;> simp only [advance, hp] at h
  case idle =>
    cases h
    simp only [advance, hp]
  case encoding => exact absurd h phaseEncoding_not_held
  case wait =>
    obtain ⟨t0, -, hb, rfl⟩ := phaseWait_held h
    simp only [advance, State.envAfter, hp]
    exact phaseWait_of_still rfl rfl hb
  case txEnable => cases h
  case transmitting =>
    obtain ⟨frame, hf⟩ := phaseTransmitting_held_frame h
    obtain rfl := phaseTransmitting_held h
    simp only [advance, State.envAfter, hp]
    exact phaseTransmitting_of_still rfl hf
  case flush =>
    obtain ⟨rfl, hq⟩ := phaseFlush_held h
    simp only [advance, State.envAfter, hp]
    exact phaseFlush_of_still rfl hq
  case directionSwitch =>
    unfold phaseDirectionSwitch at h
    dsimp only at h
    split at h <;> cases h
  case receivingHeader =>
    obtain ⟨rfl, hn⟩ := phaseReceivingHeader_held h
    simp only [advance, State.envAfter, hp]
    exact phaseReceivingHeader_of_still rfl hn
  case receivingPayload =>
    obtain ⟨rfl, hn⟩ := phaseReceivingPayload_held h
    simp only [advance, State.envAfter, hp]
    exact phaseReceivingPayload_of_still rfl hn
  case receivingTrailer =>
    obtain ⟨rfl, hn⟩ := phaseReceivingTrailer_held h
    simp only [advance, State.envAfter, hp]
    exact phaseReceivingTrailer_of_still rfl hn
  case validating => exact absurd h phaseValidating_not_held
  case stamp => exact absurd h phaseStamp_not_held

/-- A run ends with a hold. -/
theorem runPhases_of_held {n : Nat} {s t : State} (h : advance s = .held t) : runPhases (n + 1) s = .next t := by
  rw [runPhases, h]

/-- Settles O29: a step that ends outside IDLE ended at a hold, and the next step meets the same hold with no move of
the environment left to lift it. -/
theorem unliftedHoldIsAHang : Obligations.UnliftedHoldIsAHang := by
  intro s t h hbusy
  obtain hidle | ⟨u, -, hheld⟩ := step_ends h
  · exact absurd hidle hbusy
  · rw [step_of_busy hbusy]
    exact runPhases_of_held (advance_of_held hheld)

end Sys2Proof.Machine

/-! ## Operations in a ready block answer (20_memory.md R66; O42) -/

namespace Sys2Proof.Machine

open Sys2Proof.Safety

/-- The phases that index RXBUF with the declared length, and RECEIVING_TRAILER between them (R170 to R173). -/
def UsesLength (s : State) : Prop :=
  s.phase = .receivingPayload ∨ s.phase = .receivingTrailer ∨ s.phase = .validating ∨
    (s.phase = .stamp ∧ s.res.err = .ok)

/-- What keeps every buffer index of a command in its buffer (R66): the part of `Sane` that a command in progress needs
in order not to fault. -/
structure IndexBounded (s : State) : Prop where
  cap : s.op.cap ≤ s.params.rxbufSize
  txLen : s.seq.txLen ≤ Config.TXBUF_SIZE
  length : UsesLength s → s.res.len.toNat ≤ s.op.cap

/-- TXLEN is written by ENCODING alone, with the length of a frame that fits TXBUF (R51, R163). -/
theorem advance_moved_txLen {s t : State} (h : advance s = .moved t) (hs : s.seq.txLen ≤ Config.TXBUF_SIZE) :
    t.seq.txLen ≤ Config.TXBUF_SIZE := by
  cases hp : s.phase <;> simp only [advance, hp] at h
  case idle => cases h
  case encoding =>
    obtain ⟨-, rfl⟩ | ⟨frame, hf, rfl⟩ := phaseEncoding_moved h
    · exact hs
    · obtain ⟨hlen, hpay⟩ := encodeFrame_length hf
      simp only [State.goto_seq, Config.TXBUF_SIZE]
      omega
  case wait => obtain ⟨used, rest, -, ⟨-, -, -, rfl⟩ | ⟨t0, -, -, rfl⟩⟩ := phaseWait_moved h <;> exact hs
  case txEnable => simpa [phaseTxEnable_moved h] using hs
  case transmitting => obtain ⟨frame, n, used, rest, -, -, -, rfl⟩ := phaseTransmitting_moved h; exact hs
  case flush => obtain ⟨used, rest, -, -, rfl⟩ := phaseFlush_moved h; exact hs
  case directionSwitch => obtain ⟨-, rfl⟩ | ⟨-, rfl⟩ := phaseDirectionSwitch_moved h <;> simpa using hs
  case receivingHeader =>
    obtain ⟨bs, used, rest, rxq, -, ⟨-, rfl⟩ | ⟨a, b, c, d, -, rfl⟩⟩ := phaseReceivingHeader_moved h
    · exact hs
    · obtain ⟨-, he⟩ | ⟨-, he⟩ | ⟨-, -, he⟩ :=
        State.afterHeader_eq (((s.taken used rest rxq bs).stored .rxhdr bs).latchHeader b c d) d <;>
        rw [he] <;> exact hs
  case receivingPayload =>
    obtain ⟨bs, used, rest, rxq, -, -, ⟨-, rfl⟩ | ⟨-, rfl⟩⟩ := phaseReceivingPayload_moved h <;> exact hs
  case receivingTrailer =>
    obtain ⟨bs, used, rest, rxq, -, ⟨-, rfl⟩ | ⟨-, rfl⟩⟩ := phaseReceivingTrailer_moved h <;> exact hs
  case validating => obtain ⟨bytes, -, rfl⟩ := phaseValidating_moved h; exact hs
  case stamp =>
    obtain ⟨-, rfl⟩ | ⟨-, -, rfl⟩ := phaseStamp_moved h
    · simpa using hs
    · simpa [(State.deliver_same _ _).seq] using hs

/-- A length that is used was checked against the capacity when the header came (R169), and is not written after it. -/
theorem advance_moved_length {s t : State} (h : advance s = .moved t)
    (hs : UsesLength s → s.res.len.toNat ≤ s.op.cap) (ht : UsesLength t) : t.res.len.toNat ≤ s.op.cap := by
  cases hp : s.phase <;> simp only [advance, hp] at h
  case idle => cases h
  case encoding =>
    obtain ⟨-, rfl⟩ | ⟨frame, -, rfl⟩ := phaseEncoding_moved h <;> simp [UsesLength] at ht
  case wait =>
    obtain ⟨used, rest, -, ⟨-, -, -, rfl⟩ | ⟨t0, -, -, rfl⟩⟩ := phaseWait_moved h <;> simp [UsesLength] at ht
  case txEnable => simp [phaseTxEnable_moved h, UsesLength] at ht
  case transmitting =>
    obtain ⟨frame, n, used, rest, -, -, -, rfl⟩ := phaseTransmitting_moved h
    simp [UsesLength] at ht
  case flush =>
    obtain ⟨used, rest, -, -, rfl⟩ := phaseFlush_moved h
    simp [UsesLength] at ht
  case directionSwitch =>
    obtain ⟨-, rfl⟩ | ⟨-, rfl⟩ := phaseDirectionSwitch_moved h <;> simp [UsesLength] at ht
  case receivingHeader =>
    obtain ⟨bs, used, rest, rxq, -, ⟨-, rfl⟩ | ⟨a, b, c, d, -, rfl⟩⟩ := phaseReceivingHeader_moved h
    · simp [UsesLength] at ht
    · obtain ⟨rfl, he⟩ | ⟨-, he⟩ | ⟨-, hfits, he⟩ :=
        State.afterHeader_eq (((s.taken used rest rxq bs).stored .rxhdr bs).latchHeader b c d) d <;>
        rw [he] at ht ⊢
      · simp
      · simp [UsesLength] at ht
      · exact hfits
  case receivingPayload =>
    have hlen := hs (.inl hp)
    obtain ⟨bs, used, rest, rxq, -, -, ⟨-, rfl⟩ | ⟨-, rfl⟩⟩ := phaseReceivingPayload_moved h <;> exact hlen
  case receivingTrailer =>
    have hlen := hs (.inr (.inl hp))
    obtain ⟨bs, used, rest, rxq, -, ⟨-, rfl⟩ | ⟨-, rfl⟩⟩ := phaseReceivingTrailer_moved h <;> exact hlen
  case validating =>
    obtain ⟨bytes, -, rfl⟩ := phaseValidating_moved h
    exact hs (.inr (.inr (.inl hp)))
  case stamp =>
    obtain ⟨-, rfl⟩ | ⟨-, -, rfl⟩ := phaseStamp_moved h
    · simp [UsesLength] at ht
    · simp [UsesLength, (State.deliver_same _ _).phase] at ht

/-- Every transition keeps the indices bounded. -/
theorem IndexBounded.of_moved {s t : State} (hs : IndexBounded s) (h : advance s = .moved t) : IndexBounded t := by
  have hf := advance_moved_frame h
  refine ⟨?_, advance_moved_txLen h hs.txLen, fun ht => ?_⟩
  · rw [hf.op, hf.params]
    exact hs.cap
  · rw [hf.op]
    exact advance_moved_length h hs.length ht

/-- With bounded indices no transition is stopped. -/
theorem IndexBounded.not_stopped {s : State} (hs : IndexBounded s) (f : Fault) : advance s ≠ .stopped f := by
  intro h
  have hcap := hs.cap
  obtain ⟨-, htx⟩ | ⟨hlt, hphase⟩ := advance_stopped h
  · exact absurd hs.txLen (Nat.not_le.2 htx)
  · have huses : UsesLength s := by
      obtain hp | hp | hp := hphase
      · exact .inl hp
      · exact .inr (.inr (.inl hp))
      · exact .inr (.inr (.inr hp))
    have hlen := hs.length huses
    omega

/-- The indices of a sane machine are bounded. -/
theorem IndexBounded.of_sane {s : State} (hs : Sane s) : IndexBounded s where
  cap := hs.cap
  txLen := hs.txLen
  length := by
    rintro (hp | hp | hp | hp)
    · exact (hs.payloadFits hp).2
    · exact hs.lengthFits (.inl hp)
    · exact hs.lengthFits (.inr (.inl hp))
    · exact hs.lengthFits (.inr (.inr hp))

/-- A command in progress with bounded indices answers a next state. -/
theorem State.proceed_answers {s : State} (hs : IndexBounded s) (hbusy : s.phase ≠ .idle) :
    ∃ t, s.proceed = .next t := by
  cases hrun : s.proceed with
  | next t => exact ⟨t, rfl⟩
  | fault f =>
    exact absurd hrun (runPhases_fault (fun _ _ hu _ ha => hu.of_moved ha) (fun _ f hu _ => hu.not_stopped f)
      phaseCount hs hbusy f)
  | refused r => exact absurd hrun (runPhases_not_refused phaseCount s r)

/-- Issuing a command bounds its indices: the capacity fits the receive buffer, and ENCODING uses no length. -/
theorem IndexBounded.issue {i : Instr} {s : State} {q : Issue} (hs : IndexBounded s) (hw : s.params.wf)
    (hq : commandIssue s i = some q) : IndexBounded (s.issue q.command q.dir q.cmd q.payload q.cap) where
  cap := ((commandIssue_bounds hq).2.2 hw).2
  txLen := hs.txLen
  length := fun hu => by simp [UsesLength] at hu

/-- Settles O42: a pure operation is past its operand checks, OPEN has none, and a command runs within its buffers to
its end or to a hold. -/
theorem readyOperationsAnswer : Obligations.ReadyOperationsAnswer := by
  intro i s hsane hready hw hcap
  obtain hi | ⟨present, delay, rfl⟩ | ⟨q, hq⟩ := wellFormed_cases s hw hcap
  · exact exec_pure_of_wellFormed hready hi hw
  · exact execOpen_of_idle hready.1 present delay
  · rw [exec_of_commandIssue hq hready]
    exact State.proceed_answers ((IndexBounded.of_sane hsane).issue hsane.params hq) (by simp)

end Sys2Proof.Machine

/-! ## The issue checks and where a step rests (10_state.md R21, R24, R30, R34, R39; O5, O21, O22, O24, O27) -/

namespace Sys2Proof.Machine

open Sys2Proof.Safety

/-- Every operation but OPEN is one check, for IDLE and then for OPENED, of what it does (R39, R30). -/
theorem exec_eq_whenReady {i : Instr} (s : State) (hi : ∀ present delay, i ≠ .openDriver present delay) :
    ∃ k, exec i s = whenReady s k := by
  cases i with
  | openDriver present delay => exact absurd rfl (hi present delay)
  | _ => exact ⟨_, rfl⟩

/-- Settles O21: OPEN checks for IDLE first, and so does the check that every other operation begins with. -/
theorem busyBlockRefusesEveryOperation : Obligations.BusyBlockRefusesEveryOperation := by
  intro i s hbusy
  by_cases hi : ∃ present delay, i = .openDriver present delay
  · obtain ⟨present, delay, rfl⟩ := hi
    exact whenIdle_of_busy hbusy _
  · obtain ⟨k, hk⟩ := exec_eq_whenReady s fun present delay h => hi ⟨present, delay, h⟩
    exact hk.trans (whenReady_of_busy hbusy k)

/-- Settles O22: in IDLE the check that every operation but OPEN begins with turns it away before OPEN. -/
theorem commandsBeforeOpenAreRefused : Obligations.CommandsBeforeOpenAreRefused := by
  intro i s hidle hclosed hi
  obtain ⟨k, hk⟩ := exec_eq_whenReady s hi
  exact hk.trans (whenReady_of_not_open hidle hclosed k)

/-- In IDLE a step is the operation that the host's next request names. -/
theorem step_of_decode {s : State} {request : List Byte} {later : List (List Byte)} {i : Instr}
    (hidle : s.phase = .idle) (hreq : s.host.requests = request :: later)
    (hdec : decode s.params.opSel request = .ok i) : step s = exec i (s.withRequests later) := by
  simp only [step, if_pos hidle, hreq, hdec]

/-- Settles O5: taking the request off the list is all a step does before it runs the operation. -/
theorem stepRunsTheDecodedOperation : Obligations.StepRunsTheDecodedOperation :=
  fun _ _ _ _ hidle hreq hdec => step_of_decode hidle hreq hdec

/-- Settles O27: a step ends in IDLE or at a hold, and only the phases of R179 hold. -/
theorem everyStepEndsAtRest : Obligations.EveryStepEndsAtRest := by
  intro s t h
  obtain hidle | ⟨u, -, hheld⟩ := step_ends h
  · rw [hidle]; rfl
  · exact advance_held_resting hheld

/-- The reset state is sane: its parameters are the defaults, its buffers and queues are empty, nothing is in progress,
and before OPEN no level of the line is asked for. -/
theorem State.reset_sane : Sane State.reset where
  params := (by decide : Config.defaultParams.wf)
  canonical := State.reset_canonical
  inBounds := by intro sp c hc; cases sp <;> cases hc
  opened := fun hbusy => absurd rfl hbusy
  lineAtRest := fun hopened => by cases hopened
  lineDriven := fun hpresent => by cases hpresent
  drained := fun _ => rfl
  plen := rfl
  cap := Nat.zero_le _
  txLen := Nat.zero_le _
  payloadFits := fun hp => by cases hp
  lengthFits := fun hp => by obtain hp | hp | ⟨hp, -⟩ := hp <;> cases hp
  waiting := fun _ hwait => by cases hwait
  hardwareCap := fun hbusy => absurd rfl hbusy
  temps := rfl
  cells := rfl
  hwid := rfl
  hwidLen := Nat.zero_le _

/-- Settles O24. -/
theorem resetIsSane : Obligations.ResetIsSane := ⟨State.reset_sane, rfl, rfl⟩

end Sys2Proof.Machine

/-! ## What writes the configuration (10_state.md R26, R27, R30; O43) -/

namespace Sys2Proof.Machine

open Sys2Proof.Safety

/-- In IDLE a step with a next state is one move of the environment, with no request, or the operation that the next
request decodes to. -/
theorem step_next_of_idle {s t : State} (hidle : s.phase = .idle) (h : step s = .next t) :
    t = s.envMove ∨ ∃ request later i, s.host.requests = request :: later ∧
      decode s.params.opSel request = .ok i ∧ exec i (s.withRequests later) = .next t := by
  cases hreq : s.host.requests with
  | nil =>
    simp only [step, if_pos hidle, hreq] at h
    cases h
    exact .inl rfl
  | cons request later =>
    cases hdec : decode s.params.opSel request with
    | error e =>
      simp only [step, if_pos hidle, hreq, hdec] at h
      cases h
    | ok i =>
      rw [step_of_decode hidle hreq hdec] at h
      exact .inr ⟨request, later, i, rfl, hdec, h⟩

/-- What OPEN writes: the configuration registers hold its operands, OPENED is set, the parameters stay (R160). -/
theorem execOpen_next_cfg {present : Bool} {delay : Millis} {s t : State}
    (h : exec (.openDriver present delay) s = .next t) :
    t.params = s.params ∧ t.cfg = { opened := true, dirPresent := present, cmdDelayMs := delay } := by
  obtain ⟨-, ht⟩ := whenIdle_next (h : execOpen present delay s = .next t)
  cases ht
  simp

/-- A command changes nothing that `Frame` names, but for the operands and the record decoder latched at its issue. -/
theorem exec_command_frame {i : Instr} {s t : State} {q : Issue} (hq : commandIssue s i = some q)
    (h : exec i s = .next t) : Frame (s.issue q.command q.dir q.cmd q.payload q.cap) t :=
  runPhases_frame (by simp) (exec_command_next hq h).2

/-- An operation leaves the parameters alone, and the configuration too unless it is OPEN. -/
theorem exec_next_cfg {i : Instr} {s t : State} (h : exec i s = .next t) :
    t.params = s.params ∧ (t.cfg = s.cfg ∨ ∃ present delay, i = .openDriver present delay ∧
      t.cfg = { opened := true, dirPresent := present, cmdDelayMs := delay }) := by
  obtain hi | ⟨present, delay, rfl⟩ | ⟨q, hq⟩ := exec_next_cases h
  · obtain ⟨-, chk, draws, r, rfl⟩ := exec_pure_next hi h
    exact ⟨rfl, .inl rfl⟩
  · obtain ⟨hparams, hcfg⟩ := execOpen_next_cfg h
    exact ⟨hparams, .inr ⟨present, delay, rfl, hcfg⟩⟩
  · have hframe := exec_command_frame hq h
    exact ⟨hframe.params, .inl hframe.cfg⟩

/-- Settles O43: a move of the environment and a command in progress write neither; an operation that writes the
configuration is OPEN, and it is the one the next request decodes to. -/
theorem onlyOpenConfigures : Obligations.OnlyOpenConfigures := by
  intro s t h
  by_cases hidle : s.phase = .idle
  · obtain rfl | ⟨request, later, i, hreq, hdec, hexec⟩ := step_next_of_idle hidle h
    · exact ⟨s.envMove_params, .inl s.envMove_cfg⟩
    · obtain ⟨hparams, hcfg | ⟨present, delay, rfl, hcfg⟩⟩ := exec_next_cfg hexec
      · exact ⟨hparams, .inl hcfg⟩
      · exact ⟨hparams, .inr ⟨request, later, present, delay, hidle, hreq, hdec, hcfg⟩⟩
  · rw [step_of_busy hidle] at h
    have hframe := runPhases_frame hidle h
    exact ⟨hframe.params, .inl hframe.cfg⟩

end Sys2Proof.Machine

/-! ## Two runs from the same start (10_state.md R20, R38; O54)

A command is run in two states that agree on what R38 lets it depend on. Both runs go through the same phases, and in
each phase they agree on the registers and buffers that the command has written by then (`SameWritten`): no phase reads
another one. -/

namespace Sys2Proof.Machine

open Sys2Proof.Safety

/-! What two runs have in common. -/

/-- What R38 lets a command depend on, with what the command has latched and returned; every other register and buffer
is as at reset. -/
def State.basis (s : State) : State :=
  { State.reset with
    params := s.params
    cfg := s.cfg
    phase := s.phase
    lastDone := s.lastDone
    op := s.op
    seq := { s.seq with txLen := 0, txCount := 0 }
    line := s.line
    script := s.script
    host := { requests := [], result := s.host.result }
    draws := s.draws }

/-- Every buffer is in canonical form. -/
def State.Canonical (s : State) : Prop := ∀ sp, (s.buf.get sp).wf = true

/-- The same frame in TXBUF (R163). -/
def SameFrame (s s' : State) : Prop :=
  s'.seq.txLen = s.seq.txLen ∧
    s'.buf.txbuf.readRange 0 s.seq.txLen = s.buf.txbuf.readRange 0 s.seq.txLen

/-- The same accepted count, of a frame of the same length (R166). -/
def SameCount (s s' : State) : Prop := s'.seq.txLen = s.seq.txLen ∧ s'.seq.txCount = s.seq.txCount

/-- The same header, latched and stored (R169). -/
def SameHeader (s s' : State) : Prop :=
  s'.res = { s.res with err := s'.res.err } ∧ s'.buf.rxhdr.readRange 0 4 = s.buf.rxhdr.readRange 0 4

/-- The same payload in RXBUF (R170). -/
def SamePayload (s s' : State) : Prop :=
  s'.buf.rxbuf.readRange 0 s.res.len.toNat = s.buf.rxbuf.readRange 0 s.res.len.toNat

/-- The same trailer in RXTRL (R171). -/
def SameTrailer (s s' : State) : Prop := s'.buf.rxtrl.readRange 0 3 = s.buf.rxtrl.readRange 0 3

/-- The same reason, and after OK the same result registers and payload (R172, R23). -/
def SameReason (s s' : State) : Prop :=
  s'.res.err = s.res.err ∧ (s.res.err = .ok → s'.res = s.res ∧ SamePayload s s')

/-- The registers and buffers that a command has written when it comes to a phase and may still read. -/
def SameWritten (s s' : State) : Phase → Prop
  | .encoding => True
  | .wait => SameFrame s s'
  | .txEnable => SameFrame s s'
  | .transmitting => SameFrame s s'
  | .flush => SameCount s s'
  | .directionSwitch => SameCount s s'
  | .receivingHeader => True
  | .receivingPayload => SameHeader s s'
  | .receivingTrailer => SameHeader s s' ∧ SamePayload s s'
  | .validating => SameHeader s s' ∧ SamePayload s s' ∧ SameTrailer s s'
  | .stamp => SameReason s s'
  | .idle => SameReason s s'

/-- Two runs, begun in `o` and `o'`, that have come to `s` and `s'` alike. -/
structure Alike (o o' s s' : State) : Prop where
  basis : s'.basis = s.basis
  canonical : s.Canonical
  canonical' : s'.Canonical
  events : ∃ es, s.history = o.history ++ es ∧ s'.history = o'.history ++ es
  chkOk : s.phase ≠ .encoding → s'.chkOk = s.chkOk
  written : SameWritten s s' s.phase

/-- Two transitions that do the same: to alike states, held in alike states, or stopped by the same fault. -/
inductive Progress.Both (R : State → State → Prop) : Progress → Progress → Prop
  | moved {s s' : State} (h : R s s') : Both R (.moved s) (.moved s')
  | held {s s' : State} (h : R s s') : Both R (.held s) (.held s')
  | stopped (f : Fault) : Both R (.stopped f) (.stopped f)

section

variable {o o' s s' : State}

theorem Alike.params (h : Alike o o' s s') : s'.params = s.params := (congrArg State.params h.basis :)
theorem Alike.cfg (h : Alike o o' s s') : s'.cfg = s.cfg := (congrArg State.cfg h.basis :)
theorem Alike.phase (h : Alike o o' s s') : s'.phase = s.phase := (congrArg State.phase h.basis :)
theorem Alike.lastDone (h : Alike o o' s s') : s'.lastDone = s.lastDone := (congrArg State.lastDone h.basis :)
theorem Alike.op (h : Alike o o' s s') : s'.op = s.op := (congrArg State.op h.basis :)
theorem Alike.waitStart (h : Alike o o' s s') : s'.seq.waitStart = s.seq.waitStart :=
  (congrArg (·.seq.waitStart) h.basis :)
theorem Alike.line (h : Alike o o' s s') : s'.line = s.line := (congrArg State.line h.basis :)
theorem Alike.script (h : Alike o o' s s') : s'.script = s.script := (congrArg State.script h.basis :)
theorem Alike.result (h : Alike o o' s s') : s'.host.result = s.host.result := (congrArg (·.host.result) h.basis :)
theorem Alike.draws (h : Alike o o' s s') : s'.draws = s.draws := (congrArg State.draws h.basis :)

/-- What is written in a phase, with the phase named. -/
theorem Alike.written_at (h : Alike o o' s s') {p : Phase} (hp : s.phase = p) : SameWritten s s' p := hp ▸ h.written

/-! The updates keep two states alike. -/

theorem Alike.withEnv (h : Alike o o' s s') (l : Line) (script : List EnvMove) :
    Alike o o' { s with line := l, script := script } { s' with line := l, script := script } :=
  ⟨congrArg (fun b => { b with line := l, script := script }) h.basis, h.canonical, h.canonical', h.events, h.chkOk,
    h.written⟩

theorem Alike.withChkOk (h : Alike o o' s s') (b : Bool) : Alike o o' { s with chkOk := b } { s' with chkOk := b } :=
  ⟨h.basis, h.canonical, h.canonical', h.events, fun _ => rfl, h.written⟩

theorem Alike.withWaitStart (h : Alike o o' s s') (t0 : Option Millis) :
    Alike o o' { s with seq := { s.seq with waitStart := t0 } } { s' with seq := { s'.seq with waitStart := t0 } } :=
  ⟨congrArg (fun b => { b with seq := { b.seq with waitStart := t0 } }) h.basis, h.canonical, h.canonical', h.events,
    h.chkOk, h.written⟩

theorem Alike.emit (h : Alike o o' s s') (e : Event) : Alike o o' (s.emit e) (s'.emit e) := by
  obtain ⟨es, hs, hs'⟩ := h.events
  exact ⟨h.basis, h.canonical, h.canonical', ⟨es ++ [e], by simp [hs], by simp [hs']⟩, h.chkOk, h.written⟩

theorem Alike.answer (h : Alike o o' s s') (r : OpResult) : Alike o o' (s.answer r) (s'.answer r) :=
  ⟨congrArg (fun b => b.answer r) h.basis, h.canonical, h.canonical', h.events, h.chkOk, h.written⟩

/-- Going on to a phase whose registers and buffers are written. -/
theorem Alike.goto (h : Alike o o' s s') {p : Phase} (hchk : s'.chkOk = s.chkOk) (hw : SameWritten s s' p) :
    Alike o o' (s.goto p) (s'.goto p) :=
  ⟨congrArg (fun b => b.goto p) h.basis, h.canonical, h.canonical', h.events, fun _ => hchk, hw⟩

/-- Taking the same error, or OK for the same response. -/
theorem Alike.raise (h : Alike o o' s s') (r : ErrorReason) (hchk : s'.chkOk = s.chkOk)
    (hok : r = .ok → SameHeader s s' ∧ SamePayload s s') : Alike o o' (s.raise r) (s'.raise r) := by
  refine ⟨congrArg (fun b => b.goto .stamp) h.basis, h.canonical, h.canonical', h.events, fun _ => hchk, rfl,
    fun hr => ?_⟩
  obtain ⟨⟨hres, -⟩, hpay⟩ := hok hr
  exact ⟨congrArg (fun q => { q with err := r }) hres, hpay⟩

theorem State.Canonical.stored (h : s.Canonical) (sp : Space) (bs : List Byte) : (s.stored sp bs).Canonical := by
  intro sp'
  by_cases hsp : sp' = sp
  · subst hsp
    simpa [State.stored] using Memory.wf_writeRange (h sp') 0 bs
  · simpa [State.stored, Buffers.get_set_of_ne _ _ hsp] using h sp'

/-- What was stored is read back. -/
theorem State.Canonical.readRange_stored (h : s.Canonical) (sp : Space) (bs : List Byte) :
    ((s.stored sp bs).buf.get sp).readRange 0 bs.length = bs := by
  simpa [State.stored] using Memory.readRange_writeRange (h sp) 0 bs

/-- After the same store, the same bytes are read back. -/
theorem Alike.readRange_stored (h : Alike o o' s s') (sp : Space) {bs : List Byte} {n : Nat} (hn : bs.length = n) :
    ((s'.stored sp bs).buf.get sp).readRange 0 n = ((s.stored sp bs).buf.get sp).readRange 0 n := by
  rw [← hn, h.canonical'.readRange_stored, h.canonical.readRange_stored]

theorem Alike.stored (h : Alike o o' s s') (sp : Space) (bs : List Byte)
    (hw : SameWritten (s.stored sp bs) (s'.stored sp bs) s.phase) :
    Alike o o' (s.stored sp bs) (s'.stored sp bs) :=
  ⟨h.basis, h.canonical.stored sp bs, h.canonical'.stored sp bs, h.events, h.chkOk, hw⟩

/-- Both store the same bytes and go on, or both are stopped: the sizes of the buffers are parameters. -/
theorem Alike.storing (h : Alike o o' s s') {sp : Space} {bs : List Byte} {k : State → State}
    (hk : Alike o o' (k (s.stored sp bs)) (k (s'.stored sp bs))) :
    Progress.Both (Alike o o') (s.storing sp bs k) (s'.storing sp bs k) := by
  by_cases hb : bs.length ≤ sp.size s.params
  · rw [State.storing_of_le k hb, State.storing_of_le k (h.params ▸ hb)]
    exact .moved hk
  · have hn : s.memWrite sp 0 bs = none := State.memWrite_eq_none.2 (by omega)
    have hn' : s'.memWrite sp 0 bs = none := State.memWrite_eq_none.2 (by rw [h.params]; omega)
    simp only [State.storing, hn, hn']
    exact .stopped _

/-- The same read, of a range that holds the same bytes. -/
theorem Alike.memRead (h : Alike o o' s s') {sp : Space} {n : Nat}
    (hb : (s'.buf.get sp).readRange 0 n = (s.buf.get sp).readRange 0 n) :
    s'.memRead sp 0 n = s.memRead sp 0 n := by
  simp only [State.memRead, h.params, hb]

/-- A hold depends on the line and the script alone. -/
theorem Alike.hold {α : Type} (h : Alike o o' s s') (ready : EnvMove → Line → Bool)
    (finish : EnvMove → Line → α × Line) :
    (∃ l, s.hold ready finish = .held { s with line := l, script := [] } ∧
      s'.hold ready finish = .held { s' with line := l, script := [] }) ∨
    ∃ a l script, s.hold ready finish = .done a { s with line := l, script := script } ∧
      s'.hold ready finish = .done a { s' with line := l, script := script } := by
  unfold State.hold
  rw [h.line, h.script]
  cases awaitLine ready EnvMove.quiet s.line s.script with
  | held l => exact .inl ⟨l, rfl, rfl⟩
  | lifted m l script => exact .inr ⟨_, _, _, rfl, rfl⟩

/-- So does a read of the stream, but for the parameter STREAM_TIMEOUT. -/
theorem Alike.streamRead (h : Alike o o' s s') (n : Nat) :
    (∃ l, s.streamRead n = .held { s with line := l, script := [] } ∧
      s'.streamRead n = .held { s' with line := l, script := [] }) ∨
    ∃ bs l script, s.streamRead n = .done bs { s with line := l, script := script } ∧
      s'.streamRead n = .done bs { s' with line := l, script := script } := by
  unfold State.streamRead
  rw [show s'.params.streamTimeout = s.params.streamTimeout by rw [h.params]]
  exact h.hold _ _

/-- Now() makes the same move in both. -/
theorem Alike.now (h : Alike o o' s s') : Alike o o' s.now s'.now := by
  rw [State.now_eq s, State.now_eq s', h.line, h.script]
  exact h.withEnv _ _

/-- The line is driven in both or in neither; its level may differ before. -/
theorem Alike.dirDrive (h : Alike o o' s s') (level : Bool) : Alike o o' (s.dirDrive level) (s'.dirDrive level) := by
  have hlevel : Alike o o' { s with dirLevel := level } { s' with dirLevel := level } :=
    ⟨h.basis, h.canonical, h.canonical', h.events, h.chkOk, h.written⟩
  unfold State.dirDrive
  rw [show s'.cfg.dirPresent = s.cfg.dirPresent by rw [h.cfg]]
  split
  · exact hlevel.emit (.dir level)
  · exact h

/-! One lemma per phase: alike states do the same in it. -/

/-- ENCODING reads the operands and writes the frame, TXLEN and CHK_OK (R163). -/
theorem Alike.phaseEncoding (h : Alike o o' s s') (hp : s.phase = .encoding) :
    Progress.Both (Alike o o') (phaseEncoding s) (phaseEncoding s') := by
  unfold Machine.phaseEncoding
  rw [show encodeFrame s'.op.dir s'.op.cmd s'.op.payload = encodeFrame s.op.dir s.op.cmd s.op.payload by rw [h.op]]
  cases encodeFrame s.op.dir s.op.cmd s.op.payload with
  | none => exact .moved ((h.withChkOk false).raise .encPayloadTooLong rfl nofun)
  | some frame =>
    have hstored := (h.withChkOk true).stored .txbuf frame (by rw [hp]; trivial)
    refine (h.withChkOk true).storing ?_
    exact ⟨congrArg (fun b => b.goto .wait) h.basis, hstored.canonical, hstored.canonical', h.events, fun _ => rfl,
      rfl, (h.withChkOk true).readRange_stored .txbuf rfl⟩

/-- The rest of WAIT reads the configuration, LAST_DONE and the clock (R164). -/
theorem Alike.waitRemaining (h : Alike o o' s s') (hp : s.phase = .wait) (t0 : Millis) :
    Progress.Both (Alike o o') (waitRemaining s t0) (waitRemaining s' t0) := by
  have hchk := h.chkOk (by simp [hp])
  unfold Machine.waitRemaining State.waitClock
  rw [h.cfg, h.lastDone]
  obtain ⟨l, e, e'⟩ | ⟨_, l, script, e, e'⟩ :=
    h.hold (fun _ l => decide (s.cfg.cmdDelayMs - sub32 t0 s.lastDone ≤ sub32 l.clock t0)) (fun _ l => ((), l)) <;>
    rw [e, e']
  · exact .held ((h.withEnv l []).withWaitStart (some t0))
  · exact .moved (((h.withEnv l script).withWaitStart none).goto hchk (h.written_at hp :))

/-- WAIT samples the same t0, or has it remembered (R164). -/
theorem Alike.phaseWait (h : Alike o o' s s') (hp : s.phase = .wait) :
    Progress.Both (Alike o o') (phaseWait s) (phaseWait s') := by
  unfold Machine.phaseWait
  rw [h.waitStart]
  cases s.seq.waitStart with
  | some t0 => exact h.waitRemaining hp t0
  | none =>
    have hnow := h.now
    have hpn : s.now.phase = .wait := (State.now_phase s).trans hp
    rw [hnow.line, h.lastDone, h.cfg]
    dsimp only
    split
    · exact hnow.waitRemaining hpn _
    · exact .moved (hnow.goto (hnow.chkOk (by simp [hp])) (hnow.written_at hpn :))

/-- TX_ENABLE drives the line (R165). -/
theorem Alike.phaseTxEnable (h : Alike o o' s s') (hp : s.phase = .txEnable) :
    Progress.Both (Alike o o') (phaseTxEnable s) (phaseTxEnable s') := by
  unfold Machine.phaseTxEnable
  rw [h.params]
  have hdriven := h.dirDrive s.params.dirTxLevel
  have hpd : (s.dirDrive s.params.dirTxLevel).phase = .txEnable := (State.dirDrive_phase _ _).trans hp
  exact .moved (hdriven.goto (hdriven.chkOk (by simp [hp])) (hdriven.written_at hpd :))

/-- TRANSMITTING reads the frame back from TXBUF and writes the accepted count (R166). -/
theorem Alike.phaseTransmitting (h : Alike o o' s s') (hp : s.phase = .transmitting) :
    Progress.Both (Alike o o') (phaseTransmitting s) (phaseTransmitting s') := by
  have hchk := h.chkOk (by simp [hp])
  obtain ⟨hlen, hframe⟩ : SameFrame s s' := h.written_at hp
  unfold Machine.phaseTransmitting
  rw [hlen, h.memRead (sp := .txbuf) hframe]
  cases s.memRead .txbuf 0 s.seq.txLen with
  | none => exact .stopped _
  | some frame =>
    unfold State.streamWrite
    dsimp only
    obtain ⟨l, e, e'⟩ | ⟨n, l, script, e, e'⟩ := h.hold (fun m _ => m.accept.isSome) (fun m l =>
      (min (m.accept.getD 0) frame.length,
        { l with txq := l.txq ++ frame.take (min (m.accept.getD 0) frame.length) })) <;> rw [e, e']
    · exact .held (h.withEnv l [])
    · have hsent := (h.withEnv l script).emit (.tx frame n)
      exact .moved ⟨congrArg (fun b => b.goto .flush) hsent.basis, h.canonical, h.canonical', hsent.events,
        fun _ => hchk, hlen, rfl⟩

/-- FLUSH waits for the stream (R167). -/
theorem Alike.phaseFlush (h : Alike o o' s s') (hp : s.phase = .flush) :
    Progress.Both (Alike o o') (phaseFlush s) (phaseFlush s') := by
  have hchk := h.chkOk (by simp [hp])
  unfold Machine.phaseFlush State.streamFlush
  obtain ⟨l, e, e'⟩ | ⟨_, l, script, e, e'⟩ := h.hold (fun _ l => l.txq.isEmpty) (fun _ l => ((), l)) <;> rw [e, e']
  · exact .held (h.withEnv l [])
  · exact .moved (((h.withEnv l script).emit .flush).goto hchk (h.written_at hp :))

/-- DIRECTION_SWITCH compares the accepted count with TXLEN (R168). -/
theorem Alike.phaseDirectionSwitch (h : Alike o o' s s') (hp : s.phase = .directionSwitch) :
    Progress.Both (Alike o o') (phaseDirectionSwitch s) (phaseDirectionSwitch s') := by
  obtain ⟨hlen, hcount⟩ : SameCount s s' := h.written_at hp
  have hdriven := h.dirDrive (!s.params.dirTxLevel)
  have hchk := hdriven.chkOk (by simp [hp])
  unfold Machine.phaseDirectionSwitch
  rw [h.params, hlen, hcount]
  dsimp only
  split
  · exact .moved (hdriven.raise .ioShortWrite hchk nofun)
  · exact .moved (hdriven.goto hchk trivial)

/-- A full header leads both to the same phase: the capacity is an operand. -/
theorem Alike.afterHeader (h : Alike o o' s s') (hchk : s'.chkOk = s.chkOk) (hh : SameHeader s s') :
    Alike o o' (s.afterHeader s.res.len) (s'.afterHeader s.res.len) := by
  unfold State.afterHeader
  rw [h.op]
  split
  · rename_i hlen
    exact h.goto hchk ⟨hh, by rw [SamePayload, hlen]; rfl⟩
  · split
    · exact h.raise .ioBufferTooSmall hchk nofun
    · exact h.goto hchk hh

/-- RECEIVING_HEADER writes RXHDR and the result registers from the bytes read (R169). -/
theorem Alike.phaseReceivingHeader (h : Alike o o' s s') (hp : s.phase = .receivingHeader) :
    Progress.Both (Alike o o') (phaseReceivingHeader s) (phaseReceivingHeader s') := by
  have hchk := h.chkOk (by simp [hp])
  unfold Machine.phaseReceivingHeader
  obtain ⟨l, e, e'⟩ | ⟨bs, l, script, e, e'⟩ := h.streamRead Config.RSP_HDR <;> rw [e, e']
  · exact .held (h.withEnv l [])
  · have hread := (h.withEnv l script).emit (.rx bs)
    have hstored := hread.stored .rxhdr bs (by rw [show State.phase _ = Phase.receivingHeader from hp]; trivial)
    refine hread.storing ?_
    split
    · rename_i start echo code len
      have hhdr := hread.readRange_stored .rxhdr (bs := [start, echo, code, len]) (n := 4) rfl
      refine Alike.afterHeader (s := State.latchHeader _ echo code len) (s' := State.latchHeader _ echo code len)
        ?_ hchk ⟨rfl, hhdr⟩
      exact ⟨hstored.basis, hstored.canonical, hstored.canonical', hstored.events, hstored.chkOk,
        by rw [show State.phase _ = Phase.receivingHeader from hp]; trivial⟩
    · exact hstored.raise .ioShortReadHeader hchk nofun

/-- RECEIVING_PAYLOAD reads R_LEN, which the header gave, and writes that many bytes of RXBUF (R170). -/
theorem Alike.phaseReceivingPayload (h : Alike o o' s s') (hp : s.phase = .receivingPayload) :
    Progress.Both (Alike o o') (phaseReceivingPayload s) (phaseReceivingPayload s') := by
  have hchk := h.chkOk (by simp [hp])
  have hh : SameHeader s s' := h.written_at hp
  unfold Machine.phaseReceivingPayload
  rw [show s'.res.len = s.res.len by rw [hh.1]]
  obtain ⟨l, e, e'⟩ | ⟨bs, l, script, e, e'⟩ := h.streamRead s.res.len.toNat <;> rw [e, e']
  · exact .held (h.withEnv l [])
  · have hread := (h.withEnv l script).emit (.rx bs)
    have hstored := hread.stored .rxbuf bs (by rw [show State.phase _ = Phase.receivingPayload from hp]; exact hh)
    refine hread.storing ?_
    split
    · exact hstored.raise .ioShortReadPayload hchk nofun
    · rename_i hlen
      exact hstored.goto hchk ⟨hh, hread.readRange_stored .rxbuf (not_not.1 hlen)⟩

/-- RECEIVING_TRAILER writes RXTRL (R171). -/
theorem Alike.phaseReceivingTrailer (h : Alike o o' s s') (hp : s.phase = .receivingTrailer) :
    Progress.Both (Alike o o') (phaseReceivingTrailer s) (phaseReceivingTrailer s') := by
  have hchk := h.chkOk (by simp [hp])
  have hw : SameHeader s s' ∧ SamePayload s s' := h.written_at hp
  unfold Machine.phaseReceivingTrailer
  obtain ⟨l, e, e'⟩ | ⟨bs, l, script, e, e'⟩ := h.streamRead Config.RSP_TRL <;> rw [e, e']
  · exact .held (h.withEnv l [])
  · have hread := (h.withEnv l script).emit (.rx bs)
    have hstored := hread.stored .rxtrl bs (by rw [show State.phase _ = Phase.receivingTrailer from hp]; exact hw)
    refine hread.storing ?_
    split
    · exact hstored.raise .ioShortReadTrailer hchk nofun
    · rename_i hlen
      exact hstored.goto hchk ⟨hw.1, hw.2, hread.readRange_stored .rxtrl (not_not.1 hlen)⟩

/-- VALIDATING reads the response where the receiving phases stored it, and no byte beyond it (R172). -/
theorem Alike.phaseValidating (h : Alike o o' s s') (hp : s.phase = .validating) :
    Progress.Both (Alike o o') (phaseValidating s) (phaseValidating s') := by
  have hchk := h.chkOk (by simp [hp])
  obtain ⟨hh, hpay, htrl⟩ : SameHeader s s' ∧ SamePayload s s' ∧ SameTrailer s s' := h.written_at hp
  have hresp : s'.response = s.response := by
    unfold State.response
    rw [show s'.res.len = s.res.len by rw [hh.1], h.memRead (sp := .rxhdr) (n := Config.RSP_HDR) hh.2,
      h.memRead (sp := .rxbuf) hpay, h.memRead (sp := .rxtrl) (n := Config.RSP_TRL) htrl]
  unfold Machine.phaseValidating
  rw [hresp, hchk]
  cases s.response with
  | none => exact .stopped _
  | some bytes => exact .moved ((h.withChkOk _).raise _ rfl fun _ => ⟨hh, hpay⟩)

/-! The end of a command: the time stamp, the reason, and the delivery of the record. -/

/-- LAST_DONE takes the same clock reading in both (R174). -/
theorem Alike.stampAndReturn (h : Alike o o' s s') (hp : s.phase = .stamp) :
    Alike o o' s.stampAndReturn s'.stampAndReturn := by
  have hnow := h.now
  have hpn : s.now.phase = .stamp := (State.now_phase s).trans hp
  have hstamped : Alike o o' { s.now with lastDone := s.now.line.clock } { s'.now with lastDone := s.now.line.clock } :=
    ⟨congrArg (fun b => { b with lastDone := s.now.line.clock }) hnow.basis, hnow.canonical, hnow.canonical',
      hnow.events, hnow.chkOk, hnow.written⟩
  unfold State.stampAndReturn
  rw [hnow.line]
  exact (hstamped.emit _).goto (hnow.chkOk (by simp [hp])) (hnow.written_at hpn :)

/-- A delivery reads the operation in progress, the parameters and the counter of free values, which are in the basis,
the return code and the payload. -/
theorem State.deliver_basis (s : State) (payload : List Byte) :
    (s.deliver payload).basis = ({ s.basis with res := s.res }.deliver payload).basis := by
  unfold State.deliver
  rw [show ({ s.basis with res := s.res } : State).seq.pending = s.seq.pending from rfl]
  cases s.seq.pending <;> rfl

/-- The same payload, return code and operation in progress deliver the same result. -/
theorem Alike.deliver (h : Alike o o' s s') (hp : s.phase = .idle) (hres : s'.res = s.res) (hpay : SamePayload s s')
    (payload : List Byte) : Alike o o' (s.deliver payload) (s'.deliver payload) := by
  have hd := s.deliver_same payload
  have hd' := s'.deliver_same payload
  refine ⟨?_, ?_, ?_, ?_, ?_, ?_⟩
  · rw [s'.deliver_basis, s.deliver_basis, h.basis, hres]
  · rw [State.Canonical, hd.buf]; exact h.canonical
  · rw [State.Canonical, hd'.buf]; exact h.canonical'
  · rw [hd.history, hd'.history]; exact h.events
  · rw [hd.phase, hd.chkOk, hd'.chkOk]; exact h.chkOk
  · rw [hd.phase, hp]
    simp only [SameWritten, SameReason, SamePayload, hd.res, hd'.res, hd.buf, hd'.buf]
    exact ⟨by rw [hres], fun _ => ⟨hres, hpay⟩⟩

/-- STAMP reads the reason, and after OK the result registers and the payload (R174, R190). -/
theorem Alike.phaseStamp (h : Alike o o' s s') (hp : s.phase = .stamp) :
    Progress.Both (Alike o o') (phaseStamp s) (phaseStamp s') := by
  obtain ⟨herr, hok⟩ : SameReason s s' := h.written_at hp
  have hstamped := h.stampAndReturn hp
  unfold Machine.phaseStamp
  rw [herr]
  dsimp only
  split
  · rename_i hs
    obtain ⟨hres, hpay⟩ := hok hs
    rw [hres, hstamped.memRead (sp := .rxbuf) (by simpa [Buffers.get, SamePayload] using hpay)]
    cases s.stampAndReturn.memRead .rxbuf 0 s.res.len.toNat with
    | none => exact .stopped _
    | some payload =>
      exact .moved (hstamped.deliver rfl (by simpa using hres) (by simpa [SamePayload] using hpay) payload)
  · exact .moved (hstamped.answer _)

/-- Alike states do the same in every phase. -/
theorem Alike.advance (h : Alike o o' s s') : Progress.Both (Alike o o') (advance s) (advance s') := by
  unfold Machine.advance
  rw [h.phase]
  cases hp : s.phase with
  | idle => exact .held h
  | encoding => exact h.phaseEncoding hp
  | wait => exact h.phaseWait hp
  | txEnable => exact h.phaseTxEnable hp
  | transmitting => exact h.phaseTransmitting hp
  | flush => exact h.phaseFlush hp
  | directionSwitch => exact h.phaseDirectionSwitch hp
  | receivingHeader => exact h.phaseReceivingHeader hp
  | receivingPayload => exact h.phaseReceivingPayload hp
  | receivingTrailer => exact h.phaseReceivingTrailer hp
  | validating => exact h.phaseValidating hp
  | stamp => exact h.phaseStamp hp

end

/-- Runs from alike states end in alike states. -/
theorem Alike.runPhases {o o' : State} (n : Nat) {s s' t : State} (h : Alike o o' s s')
    (hrun : runPhases n s = .next t) :
    ∃ t', runPhases n s' = .next t' ∧ Alike o o' t t' := by
  induction n generalizing s s' with
  | zero => cases hrun; exact ⟨s', rfl, h⟩
  | succ n ih =>
    have hadv := h.advance
    unfold Machine.runPhases at hrun ⊢
    generalize Machine.advance s = p, Machine.advance s' = p' at hadv hrun ⊢
    cases hadv with
    | stopped f => cases hrun
    | held hu => cases hrun; exact ⟨_, rfl, hu⟩
    | moved hu =>
      dsimp only at hrun ⊢
      rw [hu.phase]
      split at hrun
      · rename_i hidle; cases hrun; exact ⟨_, if_pos hidle, hu⟩
      · rename_i hbusy; rw [if_neg hbusy]; exact ih hu hrun

/-- Alike states outside ENCODING are the same outcome for the host, the bus and the next command. -/
theorem Alike.sameOutcome {s s' t t' : State} (h : Alike s s' t t') (hne : t.phase ≠ .encoding) :
    SameOutcome s s' t t' where
  phase := h.phase
  lastDone := h.lastDone
  line := h.line
  script := h.script
  op := h.op
  chkOk := h.chkOk hne
  draws := h.draws
  result := h.result
  reason hidle := (h.written_at hidle : SameReason t t').1
  results hidle := (h.written_at hidle : SameReason t t').2
  events := h.events

/-- A command issued from the same start is alike: the issue latches its operands and returns nothing yet. -/
theorem Alike.of_issue {s s' : State} (h : SameStart s s') (q : Issue) :
    Alike s s' (s.issue q.command q.dir q.cmd q.payload q.cap) (s'.issue q.command q.dir q.cmd q.payload q.cap) where
  basis := by simp [State.basis, h.params, h.cfg, h.lastDone, h.line, h.script, h.draws]
  canonical := h.canonical
  canonical' := h.canonical'
  events := ⟨[], by simp, by simp⟩
  chkOk hne := absurd rfl hne
  written := trivial

/-- What a command expands to depends on its operands and the parameters. -/
theorem commandIssue_of_params {s s' : State} (h : s'.params = s.params) (i : Instr) :
    commandIssue s' i = commandIssue s i := by
  cases i <;> simp only [commandIssue, h]

/-- Settles O54: both starts issue the same command; its runs stay alike, phase by phase, and end where they rest,
which ENCODING is not. -/
theorem noCommandReadsStaleState : Obligations.NoCommandReadsStaleState := by
  intro i s s' t q hstart hq hexec
  obtain ⟨⟨hidle, hopen⟩, hrun⟩ := exec_command_next hq hexec
  obtain ⟨t', hrun', halike⟩ := (Alike.of_issue hstart q).runPhases _ hrun
  have hready' : Ready s' := ⟨hstart.phase.trans hidle, by rw [hstart.cfg, hopen]⟩
  have hq' : commandIssue s' i = some q := (commandIssue_of_params hstart.params i).trans hq
  refine ⟨t', (exec_of_commandIssue hq' hready').trans hrun', halike.sameOutcome ?_⟩
  obtain hend | ⟨u, -, hheld⟩ := State.proceed_ends (by simp) hrun
  · simp [hend]
  · intro henc
    have hrest := advance_held_resting hheld
    rw [henc] at hrest
    cases hrest

end Sys2Proof.Machine

/-! ## Bytes on the two queues of the stream (20_memory.md R56 to R58, R64; O45, O46) -/

namespace Sys2Proof.Machine

open Sys2Proof.Safety

theorem rxBytes_append (es es' : List Event) : rxBytes (es ++ es') = rxBytes es ++ rxBytes es' := by
  induction es with
  | nil => rfl
  | cons e es ih => cases e <;> simp [rxBytes, ih]

theorem txBytes_append (es es' : List Event) : txBytes (es ++ es') = txBytes es ++ txBytes es' := by
  induction es with
  | nil => rfl
  | cons e es ih => cases e <;> simp [txBytes, ih]

/-- From `s` to `t` the environment made the moves `moves` and the block the events `es`, and no byte of either queue
was lost, duplicated or reordered: the receive queue lost the bytes of the RX events and gained what arrived, and what
the TX events say was accepted joined the transmit queue, out of which bytes go onto the wire only. -/
structure ConservedBy (moves : List EnvMove) (es : List Event) (s t : State) : Prop where
  script : s.script = moves ++ t.script
  history : t.history = s.history ++ es
  received : rxBytes es ++ t.line.rxq = s.line.rxq ++ moves.flatMap EnvMove.arrive
  transmitted : t.line.wire ++ t.line.txq = s.line.wire ++ s.line.txq ++ txBytes es

/-- Some moves and events account for every byte. -/
def Conserved (s t : State) : Prop := ∃ moves es, ConservedBy moves es s t

theorem ConservedBy.trans {ms ms' : List EnvMove} {es es' : List Event} {s t u : State}
    (h : ConservedBy ms es s t) (h' : ConservedBy ms' es' t u) : ConservedBy (ms ++ ms') (es ++ es') s u where
  script := by rw [h.script, h'.script, List.append_assoc]
  history := by rw [h'.history, h.history, List.append_assoc]
  received := by
    rw [rxBytes_append, List.append_assoc, h'.received, ← List.append_assoc, h.received, List.flatMap_append,
      List.append_assoc]
  transmitted := by rw [h'.transmitted, h.transmitted, txBytes_append, List.append_assoc (_ ++ _)]

theorem Conserved.trans {s t u : State} (h : Conserved s t) (h' : Conserved t u) : Conserved s u := by
  obtain ⟨ms, es, h⟩ := h
  obtain ⟨ms', es', h'⟩ := h'
  exact ⟨_, _, h.trans h'⟩

/-- Moves of the environment and events that are neither RX nor TX conserve every byte (R36, R57). -/
theorem Conserved.of_after {s t : State} {used : List EnvMove} {es : List Event} (hs : s.script = used ++ t.script)
    (hl : t.line = s.line.after used) (hh : t.history = s.history ++ es) (hrx : rxBytes es = [])
    (htx : txBytes es = []) : Conserved s t :=
  ⟨used, es, hs, hh, by rw [hrx, hl, Line.after_rxq, List.nil_append],
    by rw [htx, hl, Line.after_wire_txq, List.append_nil]⟩

/-- Registers and buffers are no part of the stream. -/
theorem Conserved.of_same {s t : State} (hs : t.script = s.script) (hl : t.line = s.line)
    (hh : t.history = s.history) : Conserved s t :=
  .of_after (used := []) (es := []) hs.symm hl (by simpa using hh) rfl rfl

/-- The bytes a read takes are those of its RX event (R58). -/
theorem Conserved.of_taken {s : State} {n : Nat} {bs rxq : List Byte} {used rest : List EnvMove}
    (h : ReadOf s n bs rxq used rest) : Conserved s (s.taken used rest rxq bs) :=
  ⟨used, [.rx bs], h.script, rfl, by simp [rxBytes, State.taken, ← h.queue, Line.after_rxq],
    by simp [txBytes, State.taken, Line.after_wire_txq]⟩

/-- The bytes the stream accepts are those of the TX event (R56). -/
theorem Conserved.of_accepted {s t : State} {frame : List Byte} {n : Nat} {used : List EnvMove}
    (hs : s.script = used ++ t.script)
    (hl : t.line = { s.line.after used with txq := (s.line.after used).txq ++ frame.take n })
    (hh : t.history = s.history ++ [.tx frame n]) : Conserved s t :=
  ⟨used, [.tx frame n], hs, hh, by simp [rxBytes, hl, Line.after_rxq],
    by simp [txBytes, hl, ← List.append_assoc, Line.after_wire_txq]⟩

/-- A clock reading is at most one move (R35). -/
theorem State.now_conserved (s : State) : Conserved s s.now := by
  obtain ⟨first, later, hs, -, hn⟩ := s.now_cases
  rw [hn]
  exact .of_after hs rfl (List.append_nil _).symm rfl rfl

/-- Driving the line is an event, or nothing, and touches no queue (R55). -/
theorem State.dirDrive_conserved (s : State) (level : Bool) : Conserved s (s.dirDrive level) := by
  unfold State.dirDrive
  split
  · exact .of_after (used := []) rfl rfl rfl rfl rfl
  · exact .of_same rfl rfl rfl

/-- The time stamp is a clock reading and an event (R174). -/
theorem State.stampAndReturn_conserved (s : State) : Conserved s s.stampAndReturn :=
  s.now_conserved.trans (.of_after (used := []) (es := [.stamp s.now.line.clock]) rfl rfl rfl rfl rfl)

/-- Every transition accounts for every byte: a read takes what its RX event says, a write adds what its TX event says,
and the others touch no queue. -/
theorem advance_moved_conserved {s t : State} (h : advance s = .moved t) : Conserved s t := by
  cases hp : s.phase <;> simp only [advance, hp] at h
  case idle => cases h
  case encoding => obtain ⟨-, rfl⟩ | ⟨frame, -, rfl⟩ := phaseEncoding_moved h <;> exact .of_same rfl rfl rfl
  case wait =>
    obtain ⟨used, rest, hs, ⟨-, -, -, rfl⟩ | ⟨t0, -, -, rfl⟩⟩ := phaseWait_moved h <;>
      exact .of_after hs rfl (List.append_nil _).symm rfl rfl
  case txEnable =>
    obtain rfl := phaseTxEnable_moved h
    exact (s.dirDrive_conserved _).trans (.of_same rfl rfl rfl)
  case transmitting =>
    obtain ⟨frame, n, used, rest, -, -, hs, rfl⟩ := phaseTransmitting_moved h
    exact .of_accepted hs rfl rfl
  case flush =>
    obtain ⟨used, rest, hs, -, rfl⟩ := phaseFlush_moved h
    exact .of_after hs rfl rfl rfl rfl
  case directionSwitch =>
    obtain ⟨-, rfl⟩ | ⟨-, rfl⟩ := phaseDirectionSwitch_moved h <;>
      exact (s.dirDrive_conserved _).trans (.of_same rfl rfl rfl)
  case receivingHeader =>
    obtain ⟨bs, used, rest, rxq, hr, ⟨-, rfl⟩ | ⟨start, echo, code, len, -, rfl⟩⟩ := phaseReceivingHeader_moved h
    · exact (Conserved.of_taken hr).trans (.of_same rfl rfl rfl)
    · refine (Conserved.of_taken hr).trans ?_
      obtain ⟨-, he⟩ | ⟨-, he⟩ | ⟨-, -, he⟩ := State.afterHeader_eq
        (((s.taken used rest rxq bs).stored .rxhdr bs).latchHeader echo code len) len <;>
        rw [he] <;> exact .of_same rfl rfl rfl
  case receivingPayload =>
    obtain ⟨bs, used, rest, rxq, hr, -, ⟨-, rfl⟩ | ⟨-, rfl⟩⟩ := phaseReceivingPayload_moved h <;>
      exact (Conserved.of_taken hr).trans (.of_same rfl rfl rfl)
  case receivingTrailer =>
    obtain ⟨bs, used, rest, rxq, hr, ⟨-, rfl⟩ | ⟨-, rfl⟩⟩ := phaseReceivingTrailer_moved h <;>
      exact (Conserved.of_taken hr).trans (.of_same rfl rfl rfl)
  case validating =>
    obtain ⟨bytes, -, rfl⟩ := phaseValidating_moved h
    exact .of_same rfl rfl rfl
  case stamp =>
    obtain ⟨-, rfl⟩ | ⟨-, -, rfl⟩ := phaseStamp_moved h
    · exact s.stampAndReturn_conserved.trans (.of_same rfl rfl rfl)
    · have hd := s.stampAndReturn.deliver_same (s.buf.rxbuf.readRange 0 s.res.len.toNat)
      exact s.stampAndReturn_conserved.trans (.of_same hd.script hd.line hd.history)

/-- A hold is moves of the environment and no event. -/
theorem advance_held_conserved {s t : State} (h : advance s = .held t) : Conserved s t := by
  obtain ⟨-, rfl⟩ | ⟨-, t0, rfl⟩ | ⟨-, -, -, rfl⟩ := advance_held h
  · exact .of_same rfl rfl rfl
  all_goals exact .of_after (List.append_nil _).symm rfl (List.append_nil _).symm rfl rfl

theorem runPhases_conserved {n : Nat} {s t : State} (hbusy : s.phase ≠ .idle) (h : runPhases n s = .next t) :
    Conserved s t :=
  runPhases_keeps (P := Conserved s) (fun _ _ hu _ ha => hu.trans (advance_moved_conserved ha))
    (fun _ _ hu _ ha => hu.trans (advance_held_conserved ha)) n (.of_same rfl rfl rfl) hbusy h

/-- OPEN drives the line and touches no queue (R160). -/
theorem execOpen_conserved {present : Bool} {delay : Millis} {s t : State}
    (h : exec (.openDriver present delay) s = .next t) : Conserved s t := by
  obtain ⟨-, ht⟩ := whenIdle_next (h : execOpen present delay s = .next t)
  cases ht
  have hlatched : Conserved s { s with cfg := { s.cfg with dirPresent := present, cmdDelayMs := delay } } :=
    .of_same rfl rfl rfl
  exact (hlatched.trans (State.dirDrive_conserved _ _)).trans (.of_same rfl rfl rfl)

theorem exec_conserved {i : Instr} {s t : State} (h : exec i s = .next t) : Conserved s t := by
  obtain hi | ⟨present, delay, rfl⟩ | ⟨q, hq⟩ := exec_next_cases h
  · obtain ⟨-, chk, draws, r, rfl⟩ := exec_pure_next hi h
    exact .of_same rfl rfl rfl
  · exact execOpen_conserved h
  · have hissued : Conserved s (s.issue q.command q.dir q.cmd q.payload q.cap) := .of_same rfl rfl rfl
    exact hissued.trans (runPhases_conserved (by simp) (exec_command_next hq h).2)

/-- A step accounts for every byte that arrived, was taken, was accepted or left. -/
theorem step_conserved {s t : State} (h : step s = .next t) : Conserved s t := by
  obtain ⟨-, rfl⟩ | ⟨i, later, -, hexec⟩ | ⟨hbusy, hrun⟩ := step_next_cases h
  · exact s.now_conserved
  · have htaken : Conserved s (s.withRequests later) := .of_same rfl rfl rfl
    exact htaken.trans (exec_conserved hexec)
  · exact runPhases_conserved hbusy hrun

/-- Settles O45: the moves and events that account for every byte of a step. -/
theorem receivedBytesAreConserved : Obligations.ReceivedBytesAreConserved := by
  intro s t h
  obtain ⟨moves, es, hc⟩ := step_conserved h
  exact ⟨moves, es, hc.script, hc.history, hc.received⟩

/-- Settles O46: the same events account for what was accepted. -/
theorem transmittedBytesAreConserved : Obligations.TransmittedBytesAreConserved := by
  intro s t h
  obtain ⟨moves, es, hc⟩ := step_conserved h
  exact ⟨es, hc.history, hc.transmitted⟩

end Sys2Proof.Machine

/-! ## Short reads and faults (20_memory.md R58, R66; O30, O41) -/

namespace Sys2Proof.Machine

open Sys2Proof.Safety

/-- The three reasons of a read that came up short (R231). -/
def ErrorReason.isShortRead : ErrorReason → Bool
  | .ioShortReadHeader => true
  | .ioShortReadPayload => true
  | .ioShortReadTrailer => true
  | _ => false

theorem ErrorReason.isShortRead_eq_false {r : ErrorReason} : r.isShortRead = false ↔
    r ≠ .ioShortReadHeader ∧ r ≠ .ioShortReadPayload ∧ r ≠ .ioShortReadTrailer := by
  cases r <;> simp [isShortRead]

/-- Short reads are I/O errors (R231). -/
theorem ErrorReason.class_of_isShortRead {r : ErrorReason} (h : r.isShortRead = true) :
    r.errorClass = some .ioError := by
  unfold isShortRead at h
  split at h
  · rfl
  · rfl
  · rfl
  · cases h

/-! The parser has the bytes in hand: none of its reasons is an I/O error (R142, R231). -/

theorem checkTrailer_class (echo code : Byte) (payload : List Byte) (hi lo stop : Byte) :
    (checkTrailer echo code payload hi lo stop).result.reason.errorClass ≠ some .ioError := by
  unfold checkTrailer
  split
  · nofun
  · dsimp only
    split
    · nofun
    · split
      · nofun
      · split <;> nofun

theorem checkBody_class (echo code len : Byte) (rest : List Byte) :
    (checkBody echo code len rest).result.reason.errorClass ≠ some .ioError := by
  unfold checkBody
  split
  · nofun
  · split
    · nofun
    · split
      · exact checkTrailer_class _ _ _ _ _ _
      · nofun

theorem parseResponse_class (bytes : List Byte) :
    (parseResponse bytes).result.reason.errorClass ≠ some .ioError := by
  unfold parseResponse
  split
  · nofun
  · split
    · nofun
    · split
      · exact checkBody_class _ _ _ _
      · nofun

/-- A transition to STAMP carries a short-read reason only from a receiving phase on a stream that times out: in the
other phases the reason is a fixed one or the parser's. -/
theorem advance_moved_shortRead {s t : State} (h : advance s = .moved t) (ht : t.phase = .stamp)
    (hr : t.res.err.isShortRead = true) : s.params.streamTimeout = true := by
  cases hp : s.phase <;> simp only [advance, hp] at h
  case idle => cases h
  case encoding =>
    obtain ⟨-, rfl⟩ | ⟨frame, -, rfl⟩ := phaseEncoding_moved h
    · cases hr
    · cases ht
  case wait => obtain ⟨used, rest, -, ⟨-, -, -, rfl⟩ | ⟨t0, -, -, rfl⟩⟩ := phaseWait_moved h <;> cases ht
  case txEnable => obtain rfl := phaseTxEnable_moved h; cases ht
  case transmitting => obtain ⟨frame, n, used, rest, -, -, -, rfl⟩ := phaseTransmitting_moved h; cases ht
  case flush => obtain ⟨used, rest, -, -, rfl⟩ := phaseFlush_moved h; cases ht
  case directionSwitch =>
    obtain ⟨-, rfl⟩ | ⟨-, rfl⟩ := phaseDirectionSwitch_moved h
    · cases hr
    · cases ht
  case receivingHeader =>
    obtain ⟨bs, used, rest, rxq, hread, ⟨hshort, -⟩ | ⟨start, echo, code, len, -, rfl⟩⟩ := phaseReceivingHeader_moved h
    · exact hread.short hshort
    · obtain ⟨-, he⟩ | ⟨-, he⟩ | ⟨-, -, he⟩ := State.afterHeader_eq
        (((s.taken used rest rxq bs).stored .rxhdr bs).latchHeader echo code len) len <;> rw [he] at ht hr
      · cases ht
      · cases hr
      · cases ht
  case receivingPayload =>
    obtain ⟨bs, used, rest, rxq, hread, -, ⟨hshort, -⟩ | ⟨-, rfl⟩⟩ := phaseReceivingPayload_moved h
    · exact hread.short hshort
    · cases ht
  case receivingTrailer =>
    obtain ⟨bs, used, rest, rxq, hread, ⟨hshort, -⟩ | ⟨-, rfl⟩⟩ := phaseReceivingTrailer_moved h
    · exact hread.short hshort
    · cases ht
  case validating =>
    obtain ⟨bytes, -, rfl⟩ := phaseValidating_moved h
    exact absurd (ErrorReason.class_of_isShortRead hr) (parseResponse_class bytes)
  case stamp =>
    obtain ⟨-, rfl⟩ | ⟨-, -, rfl⟩ := phaseStamp_moved h
    · cases ht
    · rw [(State.deliver_same _ _).phase] at ht
      cases ht

/-- Settles O30: a short-read reason would mean that the stream times out. -/
theorem shortReadsNeedATimeout : Obligations.ShortReadsNeedATimeout := by
  intro s t hs h ht
  rw [← ErrorReason.isShortRead_eq_false, ← Bool.not_eq_true]
  intro hr
  rw [advance_moved_shortRead h ht hr] at hs
  cases hs

/-- A command in progress with bounded indices does not fault. -/
theorem State.proceed_no_fault {s : State} (hs : IndexBounded s) (hbusy : s.phase ≠ .idle) (f : Fault) :
    s.proceed ≠ .fault f := by
  obtain ⟨t, ht⟩ := State.proceed_answers hs hbusy
  rw [ht]
  exact nofun

/-- The issue check faults only where what it guards does. -/
theorem whenReady_fault {s : State} {k : StepResult} {f : Fault} (h : whenReady s k = .fault f) :
    Ready s ∧ k = .fault f := by
  unfold whenReady whenIdle whenOpen at h
  split at h
  · split at h
    · exact ⟨⟨‹_›, ‹_›⟩, h⟩
    · cases h
  · cases h

/-- A pure operation indexes no buffer. -/
theorem exec_pure_no_fault {i : Instr} (s : State) (hi : isPure i = true) (f : Fault) : exec i s ≠ .fault f := by
  intro h
  obtain ⟨k, hk, hcases⟩ := exec_pure_cases s hi
  rw [hk] at h
  obtain ⟨-, rfl⟩ := whenReady_fault h
  obtain ⟨chk, draws, r, hnext⟩ | ⟨-, r, hrefused⟩ := hcases
  · cases hnext
  · cases hrefused

/-- Nor does OPEN. -/
theorem execOpen_no_fault (present : Bool) (delay : Millis) (s : State) (f : Fault) :
    execOpen present delay s ≠ .fault f := by
  unfold execOpen whenIdle
  split <;> exact nofun

/-- EXECUTE faults only with operands inside their types, in its phases. -/
theorem execExecute_fault {dir cmd cap : Byte} {payload : List Byte} {s : State} {f : Fault}
    (h : execExecute dir cmd payload cap s = .fault f) :
    commandIssue s (.execute dir cmd payload cap) = some ⟨.execute, dir, cmd, payload, cap.toNat⟩ ∧
      runCommand .execute dir cmd payload cap.toNat s = .fault f := by
  obtain ⟨-, h⟩ := whenReady_fault h
  split at h
  · cases h
  · rename_i hdir
    split at h
    · cases h
    · rename_i hpay
      split at h
      · cases h
      · rename_i hcap
        obtain ⟨hmax, hbuf⟩ := not_not.1 hcap
        exact ⟨commandIssue_execute_of (not_not.1 hdir) (not_not.1 hpay) hmax hbuf, h⟩

/-- An operation faults only if it is a command, in the phases after its issue. -/
theorem exec_fault {i : Instr} {s : State} {f : Fault} (h : exec i s = .fault f) :
    ∃ q, commandIssue s i = some q ∧ (s.issue q.command q.dir q.cmd q.payload q.cap).proceed = .fault f := by
  cases i with
  | openDriver present delay => exact absurd h (execOpen_no_fault present delay s f)
  | execute dir cmd payload cap =>
    obtain ⟨hq, hrun⟩ := execExecute_fault h
    exact ⟨_, hq, hrun⟩
  | getStatus | getCells | getHardware | setMosfet => exact ⟨_, rfl, (whenReady_fault h).2⟩
  | _ => exact absurd h (exec_pure_no_fault s rfl f)

/-- In IDLE a step faults only where the operation that the next request names does. -/
theorem step_fault {s : State} {f : Fault} (h : step s = .fault f) :
    (∃ i later, exec i (s.withRequests later) = .fault f) ∨ (s.phase ≠ .idle ∧ s.proceed = .fault f) := by
  unfold step at h
  split at h
  · split at h
    · cases h
    · split at h
      · cases h
      · exact .inl ⟨_, _, h⟩
  · exact .inr ⟨‹_›, h⟩

/-- Settles O41: an idle block faults only in a command it issues, and the indices of a command are bounded from its
issue on. -/
theorem saneMachineNeverFaults : Obligations.SaneMachineNeverFaults := by
  intro s f hsane h
  have hs := IndexBounded.of_sane hsane
  obtain ⟨i, later, hexec⟩ | ⟨hbusy, hrun⟩ := step_fault h
  · obtain ⟨q, hq, hrun⟩ := exec_fault hexec
    have htaken : IndexBounded (s.withRequests later) := ⟨hs.cap, hs.txLen, hs.length⟩
    exact State.proceed_no_fault (htaken.issue hsane.params hq) (by simp) f hrun
  · exact State.proceed_no_fault hs hbusy f hrun

end Sys2Proof.Machine

/-! ## The bytes a command writes (20_memory.md R50 to R52; O52) -/

namespace Sys2Proof.Machine

open Sys2Proof.Safety

/-! What one transition stores. -/

/-- The phase that stores into a buffer (R163, R169 to R171). -/
def Space.storedIn : Space → Phase
  | .txbuf => .encoding
  | .rxhdr => .receivingHeader
  | .rxbuf => .receivingPayload
  | .rxtrl => .receivingTrailer

/-- How many bytes that phase stores at most (R51, R52). -/
def State.storeBound (s : State) : Space → Nat
  | .txbuf => 7 + s.op.payload.length
  | .rxhdr => 4
  | .rxbuf => s.res.len.toNat
  | .rxtrl => 3

/-- What a transition does to the buffers: nothing, or its phase's store from index 0 on. A payload too long for a frame
is not stored (R141). -/
theorem advance_moved_buf {s t : State} (h : advance s = .moved t) :
    t.buf = s.buf ∨ ∃ sp bs, s.phase = sp.storedIn ∧ bs.length ≤ s.storeBound sp ∧
      (sp = .txbuf → s.op.payload.length < 31) ∧ t.buf = (s.stored sp bs).buf := by
  cases hp : s.phase <;> simp only [advance, hp] at h
  case idle => cases h
  case encoding =>
    obtain ⟨-, rfl⟩ | ⟨frame, hf, rfl⟩ := phaseEncoding_moved h
    · exact .inl rfl
    · obtain ⟨hlen, hpay⟩ := encodeFrame_length hf
      exact .inr ⟨.txbuf, frame, rfl, hlen.le, fun _ => hpay, rfl⟩
  case wait => obtain ⟨used, rest, -, ⟨-, -, -, rfl⟩ | ⟨t0, -, -, rfl⟩⟩ := phaseWait_moved h <;> exact .inl rfl
  case txEnable => obtain rfl := phaseTxEnable_moved h; exact .inl (by simp)
  case transmitting => obtain ⟨frame, n, used, rest, -, -, -, rfl⟩ := phaseTransmitting_moved h; exact .inl rfl
  case flush => obtain ⟨used, rest, -, -, rfl⟩ := phaseFlush_moved h; exact .inl rfl
  case directionSwitch => obtain ⟨-, rfl⟩ | ⟨-, rfl⟩ := phaseDirectionSwitch_moved h <;> exact .inl (by simp)
  case receivingHeader =>
    obtain ⟨bs, used, rest, rxq, hr, ⟨-, rfl⟩ | ⟨start, echo, code, len, -, rfl⟩⟩ := phaseReceivingHeader_moved h
    · exact .inr ⟨.rxhdr, bs, rfl, hr.bound, nofun, rfl⟩
    · refine .inr ⟨.rxhdr, bs, rfl, hr.bound, nofun, ?_⟩
      obtain ⟨-, he⟩ | ⟨-, he⟩ | ⟨-, -, he⟩ := State.afterHeader_eq
        (((s.taken used rest rxq bs).stored .rxhdr bs).latchHeader echo code len) len <;> rw [he] <;> rfl
  case receivingPayload =>
    obtain ⟨bs, used, rest, rxq, hr, -, ⟨-, rfl⟩ | ⟨-, rfl⟩⟩ := phaseReceivingPayload_moved h <;>
      exact .inr ⟨.rxbuf, bs, rfl, hr.bound, nofun, rfl⟩
  case receivingTrailer =>
    obtain ⟨bs, used, rest, rxq, hr, ⟨-, rfl⟩ | ⟨-, rfl⟩⟩ := phaseReceivingTrailer_moved h <;>
      exact .inr ⟨.rxtrl, bs, rfl, hr.bound, nofun, rfl⟩
  case validating => obtain ⟨bytes, -, rfl⟩ := phaseValidating_moved h; exact .inl rfl
  case stamp =>
    obtain ⟨-, rfl⟩ | ⟨-, -, rfl⟩ := phaseStamp_moved h
    · exact .inl (by simp)
    · exact .inl (by simp [(State.deliver_same _ _).buf])

/-- R_LEN is written by RECEIVING_HEADER alone (R169). -/
theorem advance_moved_len {s t : State} (h : advance s = .moved t) (hne : s.phase ≠ .receivingHeader) :
    t.res.len = s.res.len := by
  cases hp : s.phase <;> simp only [advance, hp] at h
  case idle => cases h
  case encoding => obtain ⟨-, rfl⟩ | ⟨frame, -, rfl⟩ := phaseEncoding_moved h <;> rfl
  case wait => obtain ⟨used, rest, -, ⟨-, -, -, rfl⟩ | ⟨t0, -, -, rfl⟩⟩ := phaseWait_moved h <;> rfl
  case txEnable => obtain rfl := phaseTxEnable_moved h; simp
  case transmitting => obtain ⟨frame, n, used, rest, -, -, -, rfl⟩ := phaseTransmitting_moved h; rfl
  case flush => obtain ⟨used, rest, -, -, rfl⟩ := phaseFlush_moved h; rfl
  case directionSwitch => obtain ⟨-, rfl⟩ | ⟨-, rfl⟩ := phaseDirectionSwitch_moved h <;> simp
  case receivingHeader => exact absurd hp hne
  case receivingPayload =>
    obtain ⟨bs, used, rest, rxq, -, -, ⟨-, rfl⟩ | ⟨-, rfl⟩⟩ := phaseReceivingPayload_moved h <;> rfl
  case receivingTrailer =>
    obtain ⟨bs, used, rest, rxq, -, ⟨-, rfl⟩ | ⟨-, rfl⟩⟩ := phaseReceivingTrailer_moved h <;> rfl
  case validating => obtain ⟨bytes, -, rfl⟩ := phaseValidating_moved h; rfl
  case stamp =>
    obtain ⟨-, rfl⟩ | ⟨-, -, rfl⟩ := phaseStamp_moved h
    · simp
    · simp [(State.deliver_same _ _).res]

/-- A store leaves the other buffers alone, and its own beyond the bytes stored. -/
theorem State.Canonical.read_stored {s : State} (hs : s.Canonical) {sp sp' : Space} {bs : List Byte} {a : Nat}
    (h : sp' = sp → bs.length ≤ a) : ((s.stored sp bs).buf.get sp').read a = (s.buf.get sp').read a := by
  by_cases hsp : sp' = sp
  · subst hsp
    rw [State.stored, Buffers.get_set_self]
    exact Memory.read_writeRange_of_outside (hs sp') (.inr (by simpa using h rfl))
  · rw [State.stored, Buffers.get_set_of_ne _ _ hsp]

/-! What a command has stored when it has come to a state. -/

/-- The addresses of a buffer that a command which has come to `u` has not written: TXBUF beyond the frame, or all of it
without a frame; RXBUF beyond the declared length and beyond the capacity. -/
def Spared (u : State) (a : Nat) : Space → Prop
  | .txbuf => 7 + u.op.payload.length ≤ a ∨ 31 ≤ u.op.payload.length
  | .rxhdr => 4 ≤ a
  | .rxbuf => u.res.len.toNat ≤ a ∨ u.op.cap ≤ a
  | .rxtrl => 3 ≤ a

/-- A command issued in `o` has come to `u` with its indices bounded, and has written no spared byte; until the payload
is read, whatever length the header will declare, no byte of RXBUF at all. -/
structure WritesWithin (o u : State) : Prop where
  bounded : IndexBounded u
  canonical : u.Canonical
  unread : 4 ≤ u.phase.remaining → u.buf.rxbuf = o.buf.rxbuf
  spared : ∀ sp a, Spared u a sp → (u.buf.get sp).read a = (o.buf.get sp).read a

/-- What a transition stores does not reach a byte that is spared before it: the payload read is not longer than
declared, and the declared length fits the capacity (R169, R170). -/
theorem IndexBounded.storeBound_le {s : State} (hs : IndexBounded s) {sp : Space} {a : Nat}
    (hp : s.phase = sp.storedIn) (htx : sp = .txbuf → s.op.payload.length < 31) (ha : Spared s a sp) :
    s.storeBound sp ≤ a := by
  cases sp with
  | txbuf =>
    obtain ha | ha := ha
    · exact ha
    · exact absurd (htx rfl) (Nat.not_lt.2 ha)
  | rxbuf =>
    have hfits := hs.length (.inl hp)
    obtain ha | ha := ha
    · exact ha
    · exact hfits.trans ha
  | rxhdr | rxtrl => exact ha

/-- The store of a transition writes no spared byte. -/
theorem IndexBounded.read_of_moved {s t : State} (hs : IndexBounded s) (hc : s.Canonical) (h : advance s = .moved t)
    {sp : Space} {a : Nat} (ha : Spared s a sp) : (t.buf.get sp).read a = (s.buf.get sp).read a := by
  obtain hbuf | ⟨sp', bs, hp, hbound, htx, hbuf⟩ := advance_moved_buf h
  · rw [hbuf]
  · rw [hbuf]
    refine hc.read_stored fun hsp => ?_
    subst hsp
    exact hbound.trans (hs.storeBound_le hp htx ha)

/-- Only RECEIVING_PAYLOAD stores into RXBUF (R170). -/
theorem advance_moved_rxbuf {s t : State} (h : advance s = .moved t) (hne : s.phase ≠ .receivingPayload) :
    t.buf.rxbuf = s.buf.rxbuf := by
  obtain hbuf | ⟨sp, bs, hp, -, -, hbuf⟩ := advance_moved_buf h
  · rw [hbuf]
  · rw [hbuf]
    cases sp with
    | rxbuf => exact absurd hp hne
    | txbuf | rxhdr | rxtrl => rfl

theorem advance_moved_canonical {s t : State} (h : advance s = .moved t) (hs : s.Canonical) : t.Canonical := by
  obtain hbuf | ⟨sp, bs, -, -, -, hbuf⟩ := advance_moved_buf h
  · rw [State.Canonical, hbuf]; exact hs
  · rw [State.Canonical, hbuf]; exact hs.stored sp bs

/-- Every transition writes within bounds: what is spared after it was spared before it, except in RXBUF when the header
has just declared the length, and then no byte of RXBUF is written yet. -/
theorem WritesWithin.of_moved {o s t : State} (hs : WritesWithin o s) (h : advance s = .moved t) :
    WritesWithin o t where
  bounded := hs.bounded.of_moved h
  canonical := advance_moved_canonical h hs.canonical
  unread hrem := by
    have hlt := advance_moved_remaining h
    rw [advance_moved_rxbuf h fun hp => ?_, hs.unread (by omega)]
    rw [hp] at hlt
    exact absurd hlt (Nat.not_lt.2 hrem)
  spared sp a ha := by
    have hop := (advance_moved_frame h).op
    by_cases hheader : sp = .rxbuf ∧ s.phase = .receivingHeader
    · obtain ⟨rfl, hp⟩ := hheader
      have hmoved := advance_moved_rxbuf h (by simp [hp])
      have hunread := hs.unread (by simp [hp, Phase.remaining])
      exact congrArg (Memory.read · a) (hmoved.trans hunread)
    · have hbefore : Spared s a sp := by
        cases sp with
        | rxbuf =>
          have hlen := advance_moved_len h fun hp => hheader ⟨rfl, hp⟩
          simpa only [Spared, hop, hlen] using ha
        | txbuf | rxhdr | rxtrl => simpa only [Spared, hop] using ha
      rw [hs.bounded.read_of_moved hs.canonical h hbefore, hs.spared sp a hbefore]

/-- A hold writes nothing. -/
theorem WritesWithin.of_held {o s t : State} (hs : WritesWithin o s) (h : advance s = .held t) :
    WritesWithin o t := by
  obtain ⟨hcap, htx, hlen⟩ := hs.bounded
  obtain ⟨-, rfl⟩ | ⟨-, t0, rfl⟩ | ⟨-, -, -, rfl⟩ := advance_held h <;>
    exact ⟨⟨hcap, htx, hlen⟩, hs.canonical, hs.unread, hs.spared⟩

/-- A command has written nothing at its issue. -/
theorem WritesWithin.of_issue {i : Instr} {s : State} {q : Issue} (hs : Sane s) (hq : commandIssue s i = some q) :
    WritesWithin s (s.issue q.command q.dir q.cmd q.payload q.cap) where
  bounded := (IndexBounded.of_sane hs).issue hs.params hq
  canonical := hs.canonical
  unread _ := rfl
  spared _ _ _ := rfl

/-- A command of a sane machine writes no spared byte, whatever its outcome. -/
theorem exec_command_writesWithin {i : Instr} {s t : State} {q : Issue} (hs : Sane s)
    (hq : commandIssue s i = some q) (h : exec i s = .next t) : WritesWithin s t :=
  runPhases_keeps (P := WritesWithin s) (fun _ _ hu _ ha => hu.of_moved ha) (fun _ _ hu _ ha => hu.of_held ha)
    phaseCount (.of_issue hs hq) (by simp) (exec_command_next hq h).2

/-- Settles O52: the bytes it names are the spared ones of the four buffers, with the operands the command latched. -/
theorem commandMemoryFrame : Obligations.CommandMemoryFrame := by
  intro i s t q hsane hq h a
  have hspared := (exec_command_writesWithin hsane hq h).spared
  have hop : t.op = ⟨q.dir, q.cmd, BitVec.ofNat 8 q.payload.length, q.payload, q.cap⟩ := (exec_command_frame hq h).op
  refine ⟨fun ha => hspared .txbuf a ?_, hspared .rxhdr a, fun ha => hspared .rxbuf a ?_, hspared .rxtrl a⟩ <;>
    simpa only [Spared, hop] using ha

end Sys2Proof.Machine

/-! ## What a request means, and what is refused (30_encoding.md R94, R96, R97; O2, O3, O4, O6) -/

namespace Sys2Proof

open Sys2Proof.Machine
open Config (OpSel)

/-- Under legal selectors the bytes that encode an operation mean it. -/
theorem decode_of_encode {t : OpSel} {i : Instr} {bytes : List Byte} (ht : t.wf) (h : encode t i = bytes) :
    decode t bytes = .ok i :=
  h ▸ requestRoundTrip t i ht

/-- A request under a selector that is not assigned is that decode error, whatever its operand bytes are. -/
theorem decode_of_unassigned {t : OpSel} {sel : Byte} (h : sel ∉ t.values) (ops : List Byte) :
    decode t (sel :: ops) = .error (.unassignedSelector sel) := by
  simp only [decode, rowOf_eq_none.2 h]

/-- A request means an operation only by a row of the table: under the row's selector, as the row reads the operand
bytes. -/
theorem decode_ok {t : OpSel} {bytes : List Byte} {i : Instr} (h : decode t bytes = .ok i) :
    ∃ row ∈ opTable t, ∃ ops, bytes = row.selector :: ops ∧ row.operands ops = some i := by
  cases bytes with
  | nil => cases h
  | cons sel ops =>
    simp only [decode] at h
    split at h
    · cases h
    · rename_i row hrow
      obtain ⟨hm, rfl⟩ := rowOf_some hrow
      split at h
      · cases h
      · rename_i j hread
        cases h
        exact ⟨row, hm, ops, rfl, hread⟩

/-- A row reads only encodings: what it reads an operation from is that operation's selector and operand bytes. -/
def OpRow.Faithful (t : OpSel) (row : OpRow) : Prop :=
  ∀ ops i, row.operands ops = some i → i.selector t = row.selector ∧ i.operandBytes = ops

section Rows

variable {t : OpSel} {sel : Byte} {n : Nat}

/-- A row without operands reads only its operation, from no bytes. -/
theorem faithful_noOperands {i : Instr} (hsel : i.selector t = sel) (hbytes : i.operandBytes = []) :
    OpRow.Faithful t ⟨sel, n, noOperands i⟩ := by
  intro ops j h
  cases ops with
  | nil => cases h; exact ⟨hsel, hbytes⟩
  | cons => cases h

/-- A row with a u16 operand reads only two bytes, which are those of the word it reads. -/
theorem faithful_wordOperand {make : Word → Instr} (hsel : ∀ v, (make v).selector t = sel)
    (hbytes : ∀ v, (make v).operandBytes = [hi8 v, lo8 v]) : OpRow.Faithful t ⟨sel, n, wordOperand make⟩ := by
  intro ops i h
  match ops, h with
  | [hi, lo], h =>
    cases h
    exact ⟨hsel _, by rw [hbytes, hi8_be16, lo8_be16]⟩

end Rows

/-- Only 0 and 1 are read as a bool, and each is the byte of what it is read as. -/
theorem boolOfByte_some {b : Byte} {p : Bool} (h : boolOfByte b = some p) : (if p then 1 else 0) = b := by
  unfold boolOfByte at h
  split at h
  · cases h; symm; assumption
  · split at h
    · cases h; symm; assumption
    · cases h

/-- Only 0 to 3 are read as a mask state, and each names what it is read as. -/
theorem maskOfByte_some {b : Byte} {mask : MosfetMask} (h : maskOfByte b = some mask) : byteOfMask mask = b := by
  unfold maskOfByte at h
  repeat' split at h
  all_goals cases h
  all_goals exact Eq.symm ‹_›

/-- A 32-bit operand as a number: its first byte is the most significant. -/
theorem be32_toNat (a b c d : Byte) :
    (be32 a b c d).toNat = a.toNat * 2 ^ 24 + b.toNat * 2 ^ 16 + c.toNat * 2 ^ 8 + d.toNat := by
  have := b.isLt
  have := c.isLt
  have := d.isLt
  simp only [be32, BitVec.toNat_append]
  rw [← Nat.shiftLeft_add_eq_or_of_lt (by omega), ← Nat.shiftLeft_add_eq_or_of_lt (by omega),
    ← Nat.shiftLeft_add_eq_or_of_lt (by omega)]
  simp only [Nat.shiftLeft_eq]
  omega

/-- A 32-bit operand gives its four bytes back. -/
@[simp] theorem bytes32_be32 (a b c d : Byte) : bytes32 (be32 a b c d) = [a, b, c, d] := by
  have := a.isLt
  have := b.isLt
  have := c.isLt
  have := d.isLt
  simp only [bytes32, List.cons.injEq, ← BitVec.toNat_inj, BitVec.extractLsb'_toNat, be32_toNat,
    Nat.shiftRight_eq_div_pow, and_true]
  omega

theorem faithful_openOperands (t : OpSel) : OpRow.Faithful t ⟨t.openDriver, 5, openOperands⟩ := by
  intro ops i h
  match ops, h with
  | [p, a, b, c, d], h =>
    obtain ⟨present, hp, rfl⟩ := Option.map_eq_some_iff.1 h
    exact ⟨rfl, by rw [Instr.operandBytes, boolOfByte_some hp, bytes32_be32]⟩

theorem faithful_executeOperands (t : OpSel) : OpRow.Faithful t ⟨t.execute, 3, executeOperands⟩ := by
  intro ops i h
  match ops, h with
  | dir :: cmd :: cap :: payload, h => cases h; exact ⟨rfl, rfl⟩

theorem faithful_maskOperand (t : OpSel) : OpRow.Faithful t ⟨t.setMosfet, 1, maskOperand⟩ := by
  intro ops i h
  match ops, h with
  | [m], h =>
    obtain ⟨mask, hm, rfl⟩ := Option.map_eq_some_iff.1 h
    exact ⟨rfl, by rw [Instr.operandBytes, maskOfByte_some hm]⟩

/-- Absent data is read only from a third byte 0 with nothing after it, present data only from a third byte 1. -/
theorem faithful_checksumOperands (t : OpSel) : OpRow.Faithful t ⟨t.checksum, 3, checksumOperands⟩ := by
  intro ops i h
  match ops, h with
  | byte :: length :: present :: data, h =>
    simp only [checksumOperands] at h
    split at h
    · rename_i hpresent
      split at h
      · rename_i hdata
        cases h
        subst hpresent hdata
        exact ⟨rfl, rfl⟩
      · cases h
    · split at h
      · rename_i hpresent
        cases h
        subst hpresent
        exact ⟨rfl, rfl⟩
      · cases h

theorem faithful_encodeRequestOperands (t : OpSel) :
    OpRow.Faithful t ⟨t.encodeRequest, 2, encodeRequestOperands⟩ := by
  intro ops i h
  match ops, h with
  | dir :: cmd :: payload, h => cases h; exact ⟨rfl, rfl⟩

theorem faithful_decodeResponse (t : OpSel) :
    OpRow.Faithful t ⟨t.decodeResponse, 0, fun s => some (.decodeResponse s)⟩ := by
  intro ops i h
  cases h
  exact ⟨rfl, rfl⟩

/-- Every row of the operation table reads only encodings. -/
theorem opTable_faithful (t : OpSel) : ∀ row ∈ opTable t, row.Faithful t := by
  simp only [opTable, List.forall_mem_append, List.forall_mem_cons, List.not_mem_nil, false_imp_iff, implies_true,
    and_true]
  refine ⟨⟨faithful_openOperands t, faithful_executeOperands t, faithful_noOperands rfl rfl,
    faithful_noOperands rfl rfl, faithful_noOperands rfl rfl, faithful_maskOperand t, faithful_checksumOperands t,
    ?_, ?_, ?_, ?_, faithful_encodeRequestOperands t, faithful_decodeResponse t⟩,
    ?_, ?_, ?_, ?_, ?_, ?_, ?_, ?_, ?_, ?_, ?_, ?_, ?_⟩
  all_goals exact faithful_wordOperand (fun _ => rfl) (fun _ => rfl)

/-- Settles O2: the row that reads the request reads only encodings. -/
theorem requestMeaningIsUnique : Obligations.RequestMeaningIsUnique := by
  intro t bytes i h
  obtain ⟨row, hm, ops, rfl, hread⟩ := decode_ok h
  obtain ⟨hsel, hbytes⟩ := opTable_faithful t row hm ops i hread
  rw [encode, hsel, hbytes]

/-- Settles O3: each of the eight requests is the encoding of the operation it names, under R94's selectors (the
operand bytes are notes/assumptions/1.md). -/
theorem selectorsNameTheirOperations : Obligations.SelectorsNameTheirOperations := by
  have hstd : Config.defaultOpSel.wf := by decide
  exact ⟨decode_of_encode hstd rfl, decode_of_encode hstd rfl, decode_of_encode hstd rfl, decode_of_encode hstd rfl,
    decode_of_encode hstd rfl, decode_of_encode hstd rfl, decode_of_encode hstd rfl, decode_of_encode hstd rfl⟩

/-- The operation of a table word is what its request means under OPSEL's default. -/
theorem decode_of_decodeTableWord {nbits w : Nat} {i : Instr} (h : decodeTableWord nbits w = some i) :
    decode Config.defaultOpSel (tableRequest nbits w) = .ok i := by
  unfold decodeTableWord at h
  cases hdec : decode Config.defaultOpSel (tableRequest nbits w) with
  | error e => rw [hdec] at h; cases h
  | ok j => rw [hdec] at h; cases h; rfl

end Sys2Proof

namespace Sys2Proof.Machine

open Sys2Proof.Safety

/-- In IDLE a step refuses a request that names no operation. -/
theorem step_of_decode_error {s : State} {request : List Byte} {later : List (List Byte)} {e : DecodeError}
    (hidle : s.phase = .idle) (hreq : s.host.requests = request :: later)
    (hdec : decode s.params.opSel request = .error e) : step s = .refused (refusalOf e) := by
  simp only [step, if_pos hidle, hreq, hdec]

/-- Settles O4: a selector without a row is a decode error, and the step names it before it looks at OPENED. -/
theorem unassignedSelectorIsRefused : Obligations.UnassignedSelectorIsRefused :=
  ⟨fun _ _ operands _ hidle hreq hsel => step_of_decode_error hidle hreq (decode_of_unassigned hsel operands), rfl⟩

/-- Taking the placed word off the list again leaves the state as it was, in IDLE and opened. -/
theorem State.withFetchWord_withRequests (s : State) (nbits w : Nat) :
    (s.withFetchWord nbits w).withRequests s.host.requests =
      { s with phase := .idle, cfg := { s.cfg with opened := true } } := rfl

/-- Settles O6: the word's request is the next one, and the step takes it off the list before it runs its operation. -/
theorem fetchedWordRunsNext : Obligations.FetchedWordRunsNext := by
  intro s nbits w i hsel hword
  have hdec : decode (s.withFetchWord nbits w).params.opSel (tableRequest nbits w) = .ok i :=
    (congrArg (decode · _) hsel).trans (decode_of_decodeTableWord hword)
  rw [step_of_decode (s := s.withFetchWord nbits w) rfl rfl hdec, s.withFetchWord_withRequests]

end Sys2Proof.Machine

/-! ## Request frames on the bus (30_encoding.md R93, R95, R98; O7, O58) -/

namespace Sys2Proof

open Sys2Proof.Machine

/-- W is its four bytes: two words of R80 are the same exactly when their bytes are. -/
theorem be32_inj {a b c d a' b' c' d' : Byte} :
    be32 a b c d = be32 a' b' c' d' ↔ a = a' ∧ b = b' ∧ c = c' ∧ d = d' := by
  constructor
  · intro h
    simpa using congrArg bytes32 h
  · rintro ⟨rfl, rfl, rfl, rfl⟩
    rfl

/-- The monitor's test for a frame looks at byte 0 of W only. -/
theorem be32_and_startMask (start dir cmd len : Byte) :
    be32 start dir cmd len &&& 0xFF000000 = 0xDD000000 ↔ start = 0xDD := by
  have hmask : be32 start dir cmd len &&& be32 0xFF 0 0 0 = be32 start 0 0 0 := by
    have hones : start &&& 0xFF = start := BitVec.and_allOnes
    have hzeros (b : Byte) : b &&& 0 = 0 := BitVec.and_zero
    rw [be32, be32, BitVec.and_append, BitVec.and_append, BitVec.and_append, hones, hzeros, hzeros, hzeros, be32]
  calc be32 start dir cmd len &&& 0xFF000000 = 0xDD000000
      ↔ be32 start 0 0 0 = be32 0xDD 0 0 0 := by rw [← hmask]; rfl
    _ ↔ start = 0xDD := by simp [be32_inj]

/-- A word whose byte 0 is not the start byte is no frame. -/
theorem busRequest_of_start_ne {start : Byte} (h : start ≠ 0xDD) (dir cmd len : Byte) (payload : List Byte) :
    busRequest (be32 start dir cmd len) payload = .notAFrame :=
  if_pos fun hmask => h ((be32_and_startMask start dir cmd len).1 hmask)

/-- A word that begins a frame, has a direction code and is none of the four fixed patterns is a generic request. -/
theorem busRequest_of_generic {dir cmd len : Byte} (payload : List Byte) (hdir : legalDirection dir)
    (hread : ¬ (dir = 0xA5 ∧ (cmd = 0x03 ∨ cmd = 0x04 ∨ cmd = 0x05) ∧ len = 0))
    (hmosfet : ¬ (dir = 0x5A ∧ cmd = 0xE1 ∧ len = 2)) :
    busRequest (be32 0xDD dir cmd len) payload = .generic dir cmd len := by
  have hstart := (be32_and_startMask 0xDD dir cmd len).2 rfl
  have hne_read (c : Byte) (hc : c = 0x03 ∨ c = 0x04 ∨ c = 0x05) :
      be32 0xDD dir cmd len ≠ be32 0xDD 0xA5 c 0 := fun h => by
    obtain ⟨-, hd, rfl, hl⟩ := be32_inj.1 h
    exact hread ⟨hd, hc, hl⟩
  have hstatus : be32 0xDD dir cmd len ≠ 0xDDA50300 := hne_read 0x03 (.inl rfl)
  have hcells : be32 0xDD dir cmd len ≠ 0xDDA50400 := hne_read 0x04 (.inr (.inl rfl))
  have hhardware : be32 0xDD dir cmd len ≠ 0xDDA50500 := hne_read 0x05 (.inr (.inr rfl))
  have hset : be32 0xDD dir cmd len ≠ 0xDD5AE102 := fun h =>
    hmosfet (be32_inj.1 (show _ = be32 0xDD 0x5A 0xE1 2 from h)).2
  have hbytes := bytes32_be32 0xDD dir cmd len
  simp only [bytes32, List.cons.injEq, and_true] at hbytes
  obtain ⟨-, hd, hc, hl⟩ := hbytes
  simp only [busRequest, hstart, hstatus, hcells, hhardware, hset, hd, hc, hl, hdir, ne_eq, not_true_eq_false,
    if_true, if_false]

/-- Settles O7: W is its four bytes, the fixed patterns are four words, and the rest is read from the bytes. -/
theorem busMonitorReadsRequests : Obligations.BusMonitorReadsRequests := by
  refine ⟨fun start dir cmd len payload w hw => ?_, fun _ => ⟨rfl, rfl, rfl⟩, fun _ _ => rfl,
    fun dir cmd len payload hdir hread hmosfet => busRequest_of_generic payload hdir hread hmosfet⟩
  obtain rfl : w = be32 start dir cmd len := BitVec.eq_of_toNat_eq (hw.trans (be32_toNat start dir cmd len).symm)
  exact ⟨rfl, fun hstart => busRequest_of_start_ne hstart dir cmd len payload⟩

end Sys2Proof

namespace Sys2Proof.Machine

open Sys2Proof.Safety

/-- With the mask numbers of D19 a mask state goes on the bus as the byte that names it in a request. -/
theorem zext8_maskBits_default (mask : MosfetMask) :
    zext8 (maskBits Config.defaultMosfetEnc mask) = byteOfMask mask := by
  cases mask <;> rfl

/-- With the mask numbers of D19 the frame of SET_MOSFET carries the payload 00 and the byte of its mask state. -/
theorem commandIssue_setMosfet_frame {s : State} (h : s.params.mosfetEnc = Config.defaultMosfetEnc)
    (mask : MosfetMask) :
    (commandIssue s (.setMosfet mask)).map (fun q => requestFrame q.dir q.cmd q.payload) =
      some (requestFrame 0x5A 0xE1 [0x00, byteOfMask mask]) := by
  rw [commandIssue, h, zext8_maskBits_default, Option.map_some]

/-- Settles O58: what each command issues (R98), and the bytes and checksum of its frame (R80, R93). -/
theorem fixedRequestFrames : Obligations.FixedRequestFrames := by
  intro s h
  simp only [commandIssue_setMosfet_frame h]
  simp only [commandIssue, Option.map_some]
  decide

end Sys2Proof.Machine

/-! ## The checksum engine (40_checksum.md; O8, O9, O10) -/

namespace Sys2Proof.Machine

open Sys2Proof.Safety

/-! What CHECKSUM answers (R110). -/

/-- When there is no checksum: a length from 31, or absent data for a non-zero length (R110). -/
theorem checksum_eq_none {byte : Byte} {length : Nat} {data : Option (List Byte)} :
    checksum byte length data = none ↔ 31 ≤ length ∨ (0 < length ∧ data = none) := by
  rw [Option.eq_none_iff_forall_ne_some]
  constructor
  · intro h
    by_contra hc
    obtain ⟨hlen, hdata⟩ := not_or.1 hc
    exact h _ (checksum_eq_some.2
      ⟨by omega, (Nat.eq_zero_or_pos length).imp_right fun hpos hnone => hdata ⟨hpos, hnone⟩, rfl⟩)
  · intro h v hv
    obtain ⟨hlen, hdata, -⟩ := checksum_eq_some.1 hv
    obtain hlong | ⟨hpos, hnone⟩ := h
    · omega
    · exact hdata.elim (by omega) (· hnone)

/-- Present data of the declared length is summed in full, absent data as no data. -/
theorem checksumSum_of_legalData (byte : Byte) {length : Byte} {data : Option (List Byte)}
    (h : legalData length data) :
    checksumSum byte length.toNat (data.getD []) =
      (byte.toNat + length.toNat + byteSum (data.getD [])) % 65536 := by
  have hlen : (data.getD []).length ≤ length.toNat := by
    cases data with
    | none => simp
    | some d => exact (h d rfl).le
  rw [checksumSum, List.take_of_length_le hlen]

/-- CHECKSUM refuses data of another length than declared (D30). -/
theorem exec_checksum_of_not_legalData {s : State} (hs : Ready s) (byte : Byte) {length : Byte}
    {data : Option (List Byte)} (h : ¬ legalData length data) :
    exec (.checksum byte length data) s = .refused .dataLength :=
  (whenReady_of_ready hs _).trans (if_pos h)

/-- CHECKSUM returns the engine's value and sets CHK_OK. -/
theorem exec_checksum_of_some {s : State} (hs : Ready s) {byte length : Byte} {data : Option (List Byte)}
    {value : Word} (h : legalData length data) (hv : checksum byte length.toNat data = some value) :
    exec (.checksum byte length data) s = .next (returning { s with chkOk := true } (.checksum true value)) := by
  refine (whenReady_of_ready hs _).trans ((if_neg (not_not.2 h)).trans ?_)
  rw [hv]
  rfl

/-- CHECKSUM reports a rejection, clears CHK_OK and returns a free value (D4). -/
theorem exec_checksum_of_none {s : State} (hs : Ready s) {byte length : Byte} {data : Option (List Byte)}
    (h : legalData length data) (hv : checksum byte length.toNat data = none) :
    exec (.checksum byte length data) s =
      .next (returning { s with chkOk := false, draws := s.draws + 1 }
        (.checksum false (Config.freeWord s.draws))) := by
  refine (whenReady_of_ready hs _).trans ((if_neg (not_not.2 h)).trans ?_)
  rw [hv]
  rfl

/-- Settles O8: the operands are legal or refused, and the engine rejects legal ones or gives their sum negated. -/
theorem checksumReturnsNegatedSum : Obligations.ChecksumReturnsNegatedSum := by
  intro s byte length data hs
  refine ⟨fun hlegal => ?_, fun ⟨d, hd, hlen⟩ => ?_⟩
  · split
    next hrej => exact ⟨_, _, exec_checksum_of_none hs hlegal (checksum_eq_none.2 hrej)⟩
    next hacc =>
      obtain ⟨value, hv⟩ := Option.ne_none_iff_exists'.1 (mt checksum_eq_none.1 hacc)
      obtain ⟨-, -, rfl⟩ := checksum_eq_some.1 hv
      rw [exec_checksum_of_some hs hlegal hv, checksumSum_of_legalData byte hlegal, neg16]
  · exact exec_checksum_of_not_legalData hs byte fun hlegal => hlen (hlegal d hd)

/-! The laws of the sum (R112, R115). -/

/-- Under the engine's limit the checksum of data is its sum negated: nothing wraps. -/
theorem checksum_payload_eq_some {byte : Byte} {data : List Byte} {v : Word} :
    checksum byte data.length (some data) = some v ↔
      data.length < 31 ∧ v = neg16 (byte.toNat + data.length + byteSum data) := by
  rw [checksum_eq_some]
  constructor
  · rintro ⟨hlen, -, rfl⟩
    exact ⟨hlen, congrArg neg16 (checksumSum_eq byte hlen le_rfl)⟩
  · rintro ⟨hlen, rfl⟩
    exact ⟨hlen, .inr nofun, congrArg neg16 (checksumSum_eq byte hlen le_rfl).symm⟩

/-- The largest sum under the engine's limit is 255 + 30 + 30 * 255. -/
theorem payloadSum_le (byte : Byte) {data : List Byte} (h : data.length < 31) :
    byte.toNat + data.length + byteSum data ≤ 7935 := by
  have hbyte := byte.isLt
  have hdata := byteSum_le data
  omega

/-- The order of the bytes does not matter to their sum. -/
theorem byteSum_perm {data data' : List Byte} (h : data'.Perm data) : byteSum data' = byteSum data :=
  (h.map BitVec.toNat).sum_eq

/-- Settles O9: the value is the negated sum, and the sum is small enough that negating it is subtracting it. -/
theorem checksumCancelsTheSum : Obligations.ChecksumCancelsTheSum := by
  intro byte data v hv
  obtain ⟨hlen, hval⟩ := checksum_payload_eq_some.1 hv
  have hle := payloadSum_le byte hlen
  have hnat : v.toNat = if byte.toNat + data.length + byteSum data = 0 then 0
      else 65536 - (byte.toNat + data.length + byteSum data) := by
    rw [hval, neg16_toNat_of_lt (by omega)]
  have hzero : v = 0 ↔ v.toNat = 0 := BitVec.toNat_eq
  refine ⟨hle, ?_, ?_, ?_, fun data' hperm => ?_⟩
  · split at hnat <;> omega
  · rw [hzero]
    split at hnat <;> omega
  · rw [ne_eq, hzero]
    split at hnat <;> omega
  · refine checksum_payload_eq_some.2 ⟨hperm.length_eq ▸ hlen, ?_⟩
    rw [hval, hperm.length_eq, byteSum_perm hperm]

/-- Computable data with one checksum has one sum. -/
theorem payloadSum_eq_of_checksum_eq {byte byte' : Byte} {data data' : List Byte} (h : data.length < 31)
    (heq : checksum byte data.length (some data) = checksum byte' data'.length (some data')) :
    byte.toNat + data.length + byteSum data = byte'.toNat + data'.length + byteSum data' := by
  have hv := heq.symm.trans (checksum_payload_eq_some.2 ⟨h, rfl⟩)
  obtain ⟨h', hneg⟩ := checksum_payload_eq_some.1 hv
  have hle := payloadSum_le byte h
  have hle' := payloadSum_le byte' h'
  exact neg16_inj (by omega) (by omega) hneg

/-- Settles O10: one changed summand changes the sum, by less than 65536, and with it the value. -/
theorem checksumDetectsOneChangedByte : Obligations.ChecksumDetectsOneChangedByte := by
  refine ⟨fun byte x y before after hlen hne heq => ?_, fun byte byte' data hlen hne heq => ?_,
    fun byte data n m hn hnm hm heq => ?_⟩
  · have hsum := payloadSum_eq_of_checksum_eq (by simp; omega) heq
    simp only [byteSum_append, byteSum_cons, List.length_append, List.length_cons] at hsum
    exact hne (BitVec.eq_of_toNat_eq (by omega))
  · have hsum := payloadSum_eq_of_checksum_eq (by omega) heq
    exact hne (BitVec.eq_of_toNat_eq (by omega))
  · have hsum := neg16_inj (Nat.mod_lt _ (by decide)) (Nat.mod_lt _ (by decide)) heq
    rw [List.take_of_length_le hn, List.take_of_length_le (by omega)] at hsum
    omega

end Sys2Proof.Machine

/-! ## The wire codec (41_wirecodec.md; O11, O12, O13) -/

namespace Sys2Proof.Machine

open Sys2Proof.Safety

/-- In a ready block an operation that only answers returns its value and changes nothing else. -/
theorem whenReady_answer {s : State} (hs : Ready s) (r : OpResult) :
    whenReady s (.next (s.answer r)) = .next (returning s r) :=
  whenReady_of_ready hs _

/-! The exchange of the two bytes (R120). -/

/-- R120's mask clears nothing: a shift by a byte has left the low byte empty. -/
theorem shiftLeft_and_highByte (v : Word) : (v <<< 8) &&& 0xFF00 = v <<< 8 :=
  calc (v <<< 8) &&& 0xFF00
    _ = (v <<< 8) &&& (BitVec.allOnes 16 <<< 8) := by congr 1
    _ = v <<< 8 := by rw [← BitVec.shiftLeft_and_distrib, BitVec.and_allOnes]

/-- SWAP16 is the word whose high byte is the low one and whose low byte is the high one: the two shifted halves do not
overlap, so OR adds them. -/
theorem swap16_eq_be16 (v : Word) : swap16 v = be16 (lo8 v) (hi8 v) := by
  have hv := v.isLt
  have hleft : (v.toNat <<< 8) % 2 ^ 16 = (v.toNat % 256) <<< 8 := by
    simp only [Nat.shiftLeft_eq]
    omega
  have hright : v.toNat >>> 8 = v.toNat / 256 := Nat.shiftRight_eq_div_pow _ 8
  apply BitVec.eq_of_toNat_eq
  rw [swap16, shiftLeft_and_highByte, BitVec.toNat_or, BitVec.toNat_shiftLeft, BitVec.toNat_ushiftRight, hleft, hright,
    ← Nat.shiftLeft_add_eq_or_of_lt (by omega), Nat.shiftLeft_eq, be16_toNat, lo8_toNat, hi8_toNat]

/-- Settles O11: both operations return SWAP16 of their word. -/
theorem swapExchangesTheBytes : Obligations.SwapExchangesTheBytes := by
  intro s v hs
  rw [← swap16_eq_be16]
  exact ⟨whenReady_answer hs _, whenReady_answer hs _⟩

/-! The fields of a packed date (R124). -/

/-- The year field has the seven top bits: nothing of the word is above it. -/
theorem dateYear_eq (v : Word) : dateYear v = 2000 + v.toNat / 512 := by
  have hv := v.isLt
  rw [dateYear, BitVec.extractLsb'_toNat, Nat.shiftRight_eq_div_pow]
  omega

theorem dateMonth_eq (v : Word) : dateMonth v = v.toNat / 32 % 16 := by
  rw [dateMonth, BitVec.extractLsb'_toNat, Nat.shiftRight_eq_div_pow]

theorem dateDay_eq (v : Word) : dateDay v = v.toNat % 32 := by
  rw [dateDay, BitVec.extractLsb'_toNat, Nat.shiftRight_zero]

/-- Settles O12: DECODE_DATE returns the three fields, and each is cut from the word by division. -/
theorem decodeDateCutsTheFields : Obligations.DecodeDateCutsTheFields := by
  intro s v hs
  rw [← dateYear_eq, ← dateMonth_eq, ← dateDay_eq]
  exact whenReady_answer hs _

/-! The temperature (R125). -/

/-- TEMP_OFFSET is exactly 2731 (R126). -/
theorem decicelsius_eq (raw : Word) : decicelsius raw = (raw.toNat : Int) - 2731 := rfl

/-- Settles O13: DECODE_TEMPERATURE subtracts on the integers, where nothing wraps. -/
theorem decodeTemperatureIsExact : Obligations.DecodeTemperatureIsExact := by
  intro s raw hs
  rw [← decicelsius_eq]
  exact whenReady_answer hs _

end Sys2Proof.Machine

/-! ## The request encoder (42_framecodec.md R140, R141; O14) -/

namespace Sys2Proof.Machine

open Sys2Proof.Safety

/-- ENCODE_REQUEST returns the frame the encoder builds and sets CHK_OK. -/
theorem exec_encodeRequest_of_some {s : State} (hs : Ready s) {dir cmd : Byte} {payload frame : List Byte}
    (hdir : legalDirection dir) (hlen : legalPayload payload) (hframe : encodeFrame dir cmd payload = some frame) :
    exec (.encodeRequest dir cmd payload) s = .next (returning { s with chkOk := true } (.frame frame)) := by
  refine (whenReady_of_ready hs _).trans ((if_neg (not_not.2 hdir)).trans ((if_neg (not_not.2 hlen)).trans ?_))
  rw [hframe]
  rfl

/-- ENCODE_REQUEST returns ENC_PAYLOAD_TOO_LONG where the encoder builds no frame, and clears CHK_OK. -/
theorem exec_encodeRequest_of_none {s : State} (hs : Ready s) {dir cmd : Byte} {payload : List Byte}
    (hdir : legalDirection dir) (hlen : legalPayload payload) (hframe : encodeFrame dir cmd payload = none) :
    exec (.encodeRequest dir cmd payload) s =
      .next (returning { s with chkOk := false } (.failed .encPayloadTooLong)) := by
  refine (whenReady_of_ready hs _).trans ((if_neg (not_not.2 hdir)).trans ((if_neg (not_not.2 hlen)).trans ?_))
  rw [hframe]
  rfl

/-- Settles O14: the encoder builds a frame exactly for the payloads the checksum engine takes. -/
theorem encodeRequestBuildsTheFrame : Obligations.EncodeRequestBuildsTheFrame := by
  intro s dir cmd payload hs hdir hlen
  by_cases hshort : payload.length ≤ 30
  · rw [if_pos hshort]
    exact exec_encodeRequest_of_some hs hdir hlen
      ((encodeFrame_eq dir cmd payload).trans (if_pos (Nat.lt_succ_of_le hshort)))
  · rw [if_neg hshort]
    exact exec_encodeRequest_of_none hs hdir hlen
      ((encodeFrame_eq dir cmd payload).trans (if_neg (by omega)))

end Sys2Proof.Machine

/-! ## The response parser (42_framecodec.md R142 to R146; O15, O19) -/

namespace Sys2Proof.Machine

open Sys2Proof.Safety

/-! The checks, one at a time. -/

theorem parseResponse_of_start_ne {start : Byte} (h : start ≠ Config.START) (rest : List Byte) :
    parseResponse (start :: rest) = ⟨.protocol .protoBadStart, none⟩ := if_pos h

theorem parseResponse_header (echo code len : Byte) (body : List Byte) :
    parseResponse (Config.START :: echo :: code :: len :: body) = checkBody echo code len body := rfl

theorem checkBody_of_oversize {len : Byte} (h : 64 < len.toNat) (echo code : Byte) (rest : List Byte) :
    checkBody echo code len rest = ⟨.protocol .protoOversize, none⟩ := if_pos h

/-- Bytes missing from the payload or from the trailer give one reason (R144). -/
theorem checkBody_of_short {len : Byte} {rest : List Byte} (hmax : len.toNat ≤ 64)
    (h : rest.length < len.toNat + 3) (echo code : Byte) :
    checkBody echo code len rest = ⟨.protocol .protoShortRead, none⟩ := by
  refine (if_neg (Nat.not_lt.2 hmax)).trans ?_
  by_cases hpayload : 0 < len.toNat ∧ rest.length < len.toNat
  · exact if_pos hpayload
  · refine (if_neg hpayload).trans ?_
    have htrailer : (rest.drop len.toNat).length < 3 := by
      rw [List.length_drop]
      omega
    match rest.drop len.toNat, htrailer with
    | [], _ | [_], _ | [_, _], _ => rfl

/-- With the payload and the trailer there, the trailer decides; what follows it is ignored. -/
theorem checkBody_of_complete {len : Byte} {payload : List Byte} (hmax : len.toNat ≤ 64)
    (hlen : payload.length = len.toNat) (echo code hi lo stop : Byte) (tail : List Byte) :
    checkBody echo code len (payload ++ hi :: lo :: stop :: tail) = checkTrailer echo code payload hi lo stop := by
  have hshort : ¬ (0 < len.toNat ∧ (payload ++ hi :: lo :: stop :: tail).length < len.toNat) := by
    rw [List.length_append]
    omega
  refine (if_neg (Nat.not_lt.2 hmax)).trans ((if_neg hshort).trans ?_)
  rw [List.drop_left' hlen, List.take_left' hlen]

/-- Enough bytes for a payload and a trailer are a payload and a trailer. -/
theorem exists_trailer {n : Nat} {rest : List Byte} (h : n + 3 ≤ rest.length) :
    ∃ payload hi lo stop tail, payload.length = n ∧ rest = payload ++ hi :: lo :: stop :: tail := by
  have hpayload : (rest.take n).length = n := List.length_take_of_le (by omega)
  have htrailer : 3 ≤ (rest.drop n).length := by
    rw [List.length_drop]
    omega
  match hdrop : rest.drop n, htrailer with
  | hi :: lo :: stop :: tail, _ =>
    exact ⟨rest.take n, hi, lo, stop, tail, hpayload, by rw [← hdrop, List.take_append_drop]⟩

/-- With no checksum to compare with, check (d) fails (D5). -/
theorem checkTrailer_of_none {code : Byte} {payload : List Byte}
    (h : checksum code payload.length (some payload) = none) (echo hi lo stop : Byte) :
    checkTrailer echo code payload hi lo stop = ⟨.protocol .protoChecksum, some false⟩ := by
  rw [checkTrailer, h]

/-- With a checksum, checks (d) and (e) and the return code, in this order (R143). -/
theorem checkTrailer_of_some {code : Byte} {payload : List Byte} {c : Word}
    (h : checksum code payload.length (some payload) = some c) (echo hi lo stop : Byte) :
    checkTrailer echo code payload hi lo stop =
      ⟨if be16 hi lo ≠ c then .protocol .protoChecksum
        else if stop ≠ Config.STOP then .protocol .protoBadStop
        else if code ≠ Config.RC_OK then .device code
        else .ok echo code payload, some true⟩ := by
  rw [checkTrailer, h]

/-- A checksum that does not match is reported, whatever the other bytes are. -/
theorem checkTrailer_result_of_checksum_ne {code hi lo : Byte} {payload : List Byte}
    (h : checksum code payload.length (some payload) ≠ some (be16 hi lo)) (echo stop : Byte) :
    (checkTrailer echo code payload hi lo stop).result = .protocol .protoChecksum := by
  cases hc : checksum code payload.length (some payload) with
  | none => rw [checkTrailer_of_none hc]
  | some c =>
    rw [checkTrailer_of_some hc]
    exact if_pos fun heq : be16 hi lo = c => h (heq ▸ hc)

/-! The parser against R142's lines, which read the bytes by index. -/

theorem decodeByIndex_of_start_ne {start : Byte} (h : start ≠ Config.START) (rest : List Byte) :
    decodeByIndex (start :: rest) = (.protocol .protoBadStart, none) := if_pos h

theorem decodeByIndex_of_oversize {len : Byte} (h : 64 < len.toNat) (echo code : Byte) (rest : List Byte) :
    decodeByIndex (Config.START :: echo :: code :: len :: rest) = (.protocol .protoOversize, none) := if_pos h

/-- The two lines of R142 that look for the payload and for the trailer, as one. -/
theorem decodeByIndex_of_short {len : Byte} {rest : List Byte} (hmax : len.toNat ≤ 64)
    (h : rest.length < len.toNat + 3) (echo code : Byte) :
    decodeByIndex (Config.START :: echo :: code :: len :: rest) = (.protocol .protoShortRead, none) := by
  have hlength : (Config.START :: echo :: code :: len :: rest).length < 7 + len.toNat := by
    simp only [List.length_cons]
    omega
  refine (if_neg (Nat.not_lt.2 hmax)).trans ?_
  exact ite_eq_left_iff.2 fun _ => if_pos hlength

/-- The bytes after the four header bytes. -/
theorem getD_after_header (start echo code len : Byte) (body : List Byte) (j : Nat) :
    (start :: echo :: code :: len :: body).getD (4 + j) 0 = body.getD j 0 := by
  rw [Nat.add_comm 4 j]
  rfl

/-- The bytes after the four header bytes and the payload. -/
theorem getD_after_payload {payload : List Byte} {i k : Nat} (hi : i = 4 + payload.length + k)
    (start echo code len : Byte) (rest : List Byte) :
    (start :: echo :: code :: len :: (payload ++ rest)).getD i 0 = rest.getD k 0 := by
  rw [hi, Nat.add_assoc, getD_after_header, List.getD_append_right _ _ _ _ (Nat.le_add_right _ _),
    Nat.add_sub_cancel_left]

/-- On a sequence with a payload and a trailer R142's indices are those of the trailer. -/
theorem decodeByIndex_of_complete {len : Byte} {payload : List Byte} (hmax : len.toNat ≤ 64)
    (hlen : payload.length = len.toNat) (echo code hi lo stop : Byte) (tail : List Byte) :
    decodeByIndex (Config.START :: echo :: code :: len :: (payload ++ hi :: lo :: stop :: tail)) =
      ((checkTrailer echo code payload hi lo stop).result, (checkTrailer echo code payload hi lo stop).chk) := by
  generalize hbytes : Config.START :: echo :: code :: len :: (payload ++ hi :: lo :: stop :: tail) = bytes
  have hlength : 7 + len.toNat ≤ bytes.length := by
    simp only [← hbytes, List.length_cons, List.length_append]
    omega
  have hpayload : (bytes.drop 4).take len.toNat = payload := by
    rw [← hbytes]
    exact List.take_left' hlen
  have hstart : bytes.getD 0 0 = 0xDD := by rw [← hbytes]; rfl
  have hecho : bytes.getD 1 0 = echo := by rw [← hbytes]; rfl
  have hcode : bytes.getD 2 0 = code := by rw [← hbytes]; rfl
  have hdeclared : bytes.getD 3 0 = len := by rw [← hbytes]; rfl
  have hhi : bytes.getD (4 + len.toNat) 0 = hi := by
    rw [← hbytes, getD_after_payload (k := 0) (by omega)]
    rfl
  have hlo : bytes.getD (5 + len.toNat) 0 = lo := by
    rw [← hbytes, getD_after_payload (k := 1) (by omega)]
    rfl
  have hstop : bytes.getD (6 + len.toNat) 0 = stop := by
    rw [← hbytes, getD_after_payload (k := 2) (by omega)]
    rfl
  have hnonempty : ¬ bytes.length = 0 := by omega
  have hheader : ¬ bytes.length < 4 := by omega
  have hover : ¬ 64 < len.toNat := by omega
  have hshort : ¬ (0 < len.toNat ∧ bytes.length < 4 + len.toNat) := by omega
  have htrailer : ¬ bytes.length < 7 + len.toNat := by omega
  simp only [decodeByIndex, hstart, hecho, hcode, hdeclared, hhi, hlo, hstop, hpayload, hnonempty, hheader, hover,
    hshort, htrailer, if_false, ne_eq, not_true_eq_false]
  rw [← hlen]
  cases hc : checksum code payload.length (some payload) with
  | none => rw [checkTrailer_of_none hc]
  | some c =>
    rw [checkTrailer_of_some hc]
    simp only [apply_ite (Prod.mk · (some true))]
    rfl

/-- The parser, which takes the bytes off the front, answers what R142's lines answer by index. -/
theorem parseResponse_eq_decodeByIndex (bytes : List Byte) :
    parseResponse bytes = ⟨(decodeByIndex bytes).1, (decodeByIndex bytes).2⟩ := by
  cases bytes with
  | nil => rfl
  | cons start rest =>
    by_cases hstart : start = Config.START
    · subst hstart
      match rest with
      | [] | [_] | [_, _] => rfl
      | echo :: code :: len :: body =>
        rw [parseResponse_header]
        by_cases hover : 64 < len.toNat
        · rw [checkBody_of_oversize hover, decodeByIndex_of_oversize hover]
        · have hmax := Nat.not_lt.1 hover
          by_cases hshort : body.length < len.toNat + 3
          · rw [checkBody_of_short hmax hshort, decodeByIndex_of_short hmax hshort]
          · obtain ⟨payload, hi, lo, stop, tail, hlen, rfl⟩ := exists_trailer (Nat.not_lt.1 hshort)
            rw [checkBody_of_complete hmax hlen, decodeByIndex_of_complete hmax hlen]
    · rw [parseResponse_of_start_ne hstart, decodeByIndex_of_start_ne hstart]

/-- In a ready block DECODE_RESPONSE returns what the parser answers, and CHK_OK takes the outcome of its CHECKSUM
evaluation if there was one. -/
theorem exec_decodeResponse {s : State} (hs : Ready s) (bytes : List Byte) :
    exec (.decodeResponse bytes) s =
      .next (returning { s with chkOk := (parseResponse bytes).chk.getD s.chkOk }
        (responseResult (parseResponse bytes).result)) :=
  whenReady_of_ready hs _

/-- Settles O15: the parser, which takes the bytes off the front, answers what R142's lines answer by index. -/
theorem decodeResponseFollowsTheChecks : Obligations.DecodeResponseFollowsTheChecks := by
  intro s bytes hs
  rw [exec_decodeResponse hs, parseResponse_eq_decodeByIndex]

/-- Settles O19: a longer length fails check (b); up to 64 the bytes are there, and no checksum is computed. -/
theorem longResponsesNeverPass : Obligations.LongResponsesNeverPass := by
  refine fun echo code len rest => ⟨fun hlong hmax hrest => ?_, fun hover => ?_⟩
  · obtain ⟨payload, hi, lo, stop, tail, hlen, rfl⟩ := exists_trailer hrest
    calc (parseResponse (Config.START :: echo :: code :: len :: (payload ++ hi :: lo :: stop :: tail))).result
      _ = (checkTrailer echo code payload hi lo stop).result := by
        rw [parseResponse_header, checkBody_of_complete hmax hlen]
      _ = .protocol .protoChecksum := by
        rw [checkTrailer_of_none (checksum_none code (some payload) (hlen ▸ hlong))]
  · exact congrArg Parse.result (checkBody_of_oversize hover echo code rest)

end Sys2Proof.Machine

/-! ## Framed responses (30_encoding.md R80, R81; 42_framecodec.md R149, R151; O16, O18) -/

namespace Sys2Proof.Machine

open Sys2Proof.Safety

theorem length_ofNat_toNat {payload : List Byte} (h : payload.length ≤ 255) :
    (BitVec.ofNat 8 payload.length : Byte).toNat = payload.length := by
  rw [BitVec.toNat_ofNat]
  omega

/-- A whole frame after its start byte is judged by its trailer. -/
theorem parseResponse_framed {payload : List Byte} (h : payload.length ≤ 30) (echo code hi lo stop : Byte) :
    parseResponse (responseHeader echo code payload ++ payload ++ [hi, lo, stop]) =
      checkTrailer echo code payload hi lo stop := by
  have hlen := length_ofNat_toNat (payload := payload) (by omega)
  rw [List.append_assoc]
  exact checkBody_of_complete (by omega) hlen.symm echo code hi lo stop []

/-- The bytes of a matching trailer pass check (d), for any stop byte. -/
theorem checkTrailer_of_matching {code : Byte} {payload : List Byte} (h : payload.length ≤ 30) (echo stop : Byte) :
    checkTrailer echo code payload (hi8 (neg16 (checksumSum code payload.length payload)))
        (lo8 (neg16 (checksumSum code payload.length payload))) stop =
      ⟨if stop ≠ Config.STOP then .protocol .protoBadStop
        else if code ≠ Config.RC_OK then .device code
        else .ok echo code payload, some true⟩ := by
  rw [checkTrailer_of_some (checksum_some code (Nat.lt_succ_of_le h)), be16_hi8_lo8, if_neg (not_not.2 rfl)]

/-- A framed response passes the five checks, and its return code decides (R148). -/
theorem parseResponse_responseFrame {payload : List Byte} (h : payload.length ≤ 30) (echo code : Byte) :
    parseResponse (responseFrame echo code payload) =
      ⟨if code ≠ Config.RC_OK then .device code else .ok echo code payload, some true⟩ := by
  rw [responseFrame, responseTrailer, parseResponse_framed h, checkTrailer_of_matching h, if_neg (not_not.2 rfl)]

theorem parseResponse_responseFrame_ok {payload : List Byte} (h : payload.length ≤ 30) (echo : Byte) :
    parseResponse (responseFrame echo 0x00 payload) = ⟨.ok echo 0x00 payload, some true⟩ :=
  parseResponse_responseFrame h echo Config.RC_OK

theorem parseResponse_responseFrame_device {payload : List Byte} (h : payload.length ≤ 30) (echo : Byte) {code : Byte}
    (hcode : code ≠ Config.RC_OK) :
    parseResponse (responseFrame echo code payload) = ⟨.device code, some true⟩ := by
  rw [parseResponse_responseFrame h, if_pos hcode]

/-- Settles O16: with return code 0 a framed response is accepted. -/
theorem responseRoundTrips : Obligations.ResponseRoundTrips := by
  intro s echo payload hs hlen
  rw [exec_decodeResponse hs, parseResponse_responseFrame_ok hlen]
  rfl

/-- A request frame is the response frame with the direction code for its echo and the command for its return code
(R151). -/
theorem requestFrame_eq_responseFrame (dir cmd : Byte) (payload : List Byte) :
    requestFrame dir cmd payload = responseFrame dir cmd payload := rfl

/-- Settles O18: the response that a request frame is carries the command as a return code other than OK. -/
theorem requestParsesAsDeviceError : Obligations.RequestParsesAsDeviceError := by
  intro s dir cmd payload hs hlen hcmd
  rw [exec_decodeResponse hs, requestFrame_eq_responseFrame, parseResponse_responseFrame_device hlen _ hcmd]
  rfl

end Sys2Proof.Machine

/-! ## One changed byte of a valid response (42_framecodec.md R150; O17)

The rows of R150's table hold for any other value of the byte, not only for one flipped bit. -/

namespace Sys2Proof.Machine

open Sys2Proof.Safety

/-! The frame, byte by byte. -/

/-- A framed response as a header, and the bytes after it. -/
theorem responseFrame_eq_cons (echo code : Byte) (payload : List Byte) :
    responseFrame echo code payload =
      Config.START :: echo :: code :: BitVec.ofNat 8 payload.length :: (payload ++ responseTrailer code payload) := rfl

theorem responseFrame_getD_payload (echo code : Byte) {payload : List Byte} {j : Nat} (hj : j < payload.length) :
    (responseFrame echo code payload).getD (4 + j) 0 = payload[j] := by
  rw [responseFrame_eq_cons, getD_after_header, List.getD_append _ _ _ _ hj, List.getD_eq_getElem _ _ hj]

theorem responseFrame_getD_trailer (echo code : Byte) (payload : List Byte) (k : Nat) :
    (responseFrame echo code payload).getD (4 + payload.length + k) 0 = (responseTrailer code payload).getD k 0 := by
  rw [responseFrame_eq_cons, getD_after_payload rfl]

/-- A byte stored after the four header bytes. -/
theorem set_after_header (start echo code len v : Byte) (body : List Byte) (j : Nat) :
    (start :: echo :: code :: len :: body).set (4 + j) v = start :: echo :: code :: len :: body.set j v := by
  rw [Nat.add_comm 4 j]
  rfl

theorem responseFrame_set_payload (echo code v : Byte) {payload : List Byte} {j : Nat} (hj : j < payload.length) :
    (responseFrame echo code payload).set (4 + j) v =
      responseHeader echo code (payload.set j v) ++ payload.set j v ++ responseTrailer code payload := by
  rw [responseFrame_eq_cons, set_after_header, List.set_append_left _ _ hj, responseHeader, List.length_set]
  rfl

theorem responseFrame_set_trailer (echo code v : Byte) (payload : List Byte) (k : Nat) :
    (responseFrame echo code payload).set (4 + payload.length + k) v =
      responseHeader echo code payload ++ payload ++ (responseTrailer code payload).set k v := by
  rw [responseFrame_eq_cons, Nat.add_assoc, set_after_header, List.set_append_right _ _ (Nat.le_add_right _ _),
    Nat.add_sub_cancel_left]
  rfl

/-- The stop byte is the last of the frame. -/
theorem responseFrame_getD_stop (echo code : Byte) (payload : List Byte) :
    (responseFrame echo code payload).getD (6 + payload.length) 0 = Config.STOP := by
  have hindex : 6 + payload.length = 4 + payload.length + 2 := by omega
  rw [hindex, responseFrame_getD_trailer]
  rfl

/-- A trailer whose high or low checksum byte is another one does not hold the checksum. -/
theorem checkTrailer_result_of_checksumBytes_ne {code hi lo : Byte} {payload : List Byte} (hlen : payload.length ≤ 30)
    (h : hi ≠ hi8 (neg16 (checksumSum code payload.length payload)) ∨
      lo ≠ lo8 (neg16 (checksumSum code payload.length payload))) (echo stop : Byte) :
    (checkTrailer echo code payload hi lo stop).result = .protocol .protoChecksum := by
  apply checkTrailer_result_of_checksum_ne
  rw [checksum_some code (Nat.lt_succ_of_le hlen), ne_eq, Option.some_inj]
  intro heq
  rw [heq, hi8_be16, lo8_be16] at h
  exact h.elim (· rfl) (· rfl)

/-! The rows of R150's table. -/

section Rows

variable {echo v : Byte} {payload : List Byte}

/-- R150's first row. -/
theorem parseResponse_of_changed_start (hv : v ≠ Config.START) :
    (parseResponse ((responseFrame echo 0x00 payload).set 0 v)).result = .protocol .protoBadStart :=
  congrArg Parse.result (parseResponse_of_start_ne hv _)

/-- R150's second row: the echo is in no check (R147). -/
theorem parseResponse_of_changed_echo (hlen : payload.length ≤ 30) :
    (parseResponse ((responseFrame echo 0x00 payload).set 1 v)).result = .ok v 0x00 payload :=
  congrArg Parse.result (parseResponse_responseFrame_ok hlen v)

/-- R150's third row: the return code is a summand of the checksum. -/
theorem parseResponse_of_changed_code (hlen : payload.length ≤ 30) (hv : v ≠ 0x00) :
    (parseResponse ((responseFrame echo 0x00 payload).set 2 v)).result = .protocol .protoChecksum := by
  have hframe : (responseFrame echo 0x00 payload).set 2 v =
      responseHeader echo v payload ++ payload ++ responseTrailer 0x00 payload := rfl
  rw [hframe, responseTrailer, parseResponse_framed hlen]
  apply checkTrailer_result_of_checksum_ne
  rw [be16_hi8_lo8, ← checksum_some 0x00 (Nat.lt_succ_of_le hlen)]
  obtain ⟨-, hseed, -⟩ := checksumDetectsOneChangedByte
  exact hseed v 0x00 payload hlen hv

/-- R150's fourth row: the bytes a larger length asks for are not there. -/
theorem parseResponse_of_larger_length (hv : payload.length < v.toNat) :
    (parseResponse ((responseFrame echo 0x00 payload).set 3 v)).result =
      if 64 < v.toNat then .protocol .protoOversize else .protocol .protoShortRead := by
  have hframe : (responseFrame echo 0x00 payload).set 3 v =
      Config.START :: echo :: 0x00 :: v :: (payload ++ responseTrailer 0x00 payload) := rfl
  have htrailer : (responseTrailer 0x00 payload).length = 3 := rfl
  rw [hframe, parseResponse_header]
  by_cases hover : 64 < v.toNat
  · rw [checkBody_of_oversize hover, if_pos hover]
  · rw [checkBody_of_short (by omega) (by rw [List.length_append]; omega), if_neg hover]

/-- R150's row of a payload byte: each is a summand of the checksum. -/
theorem parseResponse_of_changed_payload (hlen : payload.length ≤ 30) {j : Nat} (hj : j < payload.length)
    (hv : v ≠ payload[j]) :
    (parseResponse ((responseFrame echo 0x00 payload).set (4 + j) v)).result = .protocol .protoChecksum := by
  have hlen' : (payload.set j v).length = payload.length := List.length_set
  rw [responseFrame_set_payload echo 0x00 v hj, responseTrailer, parseResponse_framed (hlen'.trans_le hlen)]
  apply checkTrailer_result_of_checksum_ne
  rw [be16_hi8_lo8, ← checksum_some 0x00 (Nat.lt_succ_of_le hlen)]
  have hsplit : payload = payload.take j ++ payload[j] :: payload.drop (j + 1) := by simp
  have hset : payload.set j v = payload.take j ++ v :: payload.drop (j + 1) := by
    rw [List.set_eq_take_append_cons_drop, if_pos hj]
  obtain ⟨hdata, -, -⟩ := checksumDetectsOneChangedByte
  have hne := hdata 0x00 v payload[j] (payload.take j) (payload.drop (j + 1))
    (by rw [List.length_take, List.length_drop]; omega) hv
  rwa [← hset, ← hsplit] at hne

/-- R150's row of the checksum bytes. -/
theorem parseResponse_of_changed_checksum (hlen : payload.length ≤ 30) {j : Nat} (hj : j < 2)
    (hv : v ≠ (responseTrailer 0x00 payload).getD j 0) :
    (parseResponse ((responseFrame echo 0x00 payload).set (4 + payload.length + j) v)).result =
      .protocol .protoChecksum := by
  rw [responseFrame_set_trailer]
  match j, hj with
  | 0, _ =>
    exact (congrArg Parse.result (parseResponse_framed hlen _ _ _ _ _)).trans
      (checkTrailer_result_of_checksumBytes_ne hlen (.inl hv) _ _)
  | 1, _ =>
    exact (congrArg Parse.result (parseResponse_framed hlen _ _ _ _ _)).trans
      (checkTrailer_result_of_checksumBytes_ne hlen (.inr hv) _ _)

/-- R150's last row. -/
theorem parseResponse_of_changed_stop (hlen : payload.length ≤ 30) (hv : v ≠ Config.STOP) :
    (parseResponse ((responseFrame echo 0x00 payload).set (6 + payload.length) v)).result =
      .protocol .protoBadStop := by
  have hindex : 6 + payload.length = 4 + payload.length + 2 := by omega
  rw [hindex, responseFrame_set_trailer]
  refine (congrArg Parse.result (parseResponse_framed hlen _ _ _ _ _)).trans ?_
  rw [checkTrailer_of_matching hlen, if_pos hv]

end Rows

/-- A flipped bit changes its byte. -/
theorem flip_ne (b : Byte) {k : Nat} (hk : k < 8) : b ^^^ ((1 : Byte) <<< k) ≠ b := by
  intro h
  have hbit := congrArg (·.getLsbD k) h
  simp [hk] at hbit

/-- Settles O17: a flipped bit changes its byte, and the byte's row says what that does. -/
theorem oneFlippedBitIsReported : Obligations.OneFlippedBitIsReported := by
  intro echo payload i k hlen hi hk frame flipped result
  have hflip : flipped ≠ frame.getD i 0 := flip_ne _ hk
  refine ⟨?_, ?_, ?_, ?_, fun h4 h6 => ?_, ?_⟩
  · rintro rfl
    exact parseResponse_of_changed_start hflip
  · rintro rfl
    exact parseResponse_of_changed_echo hlen
  · rintro rfl
    exact parseResponse_of_changed_code hlen hflip
  · rintro rfl
    exact parseResponse_of_larger_length
  · by_cases hpayload : i < 4 + payload.length
    · obtain ⟨j, rfl⟩ := Nat.exists_eq_add_of_le h4
      have hj : j < payload.length := by omega
      exact parseResponse_of_changed_payload hlen hj (responseFrame_getD_payload echo 0x00 hj ▸ hflip)
    · obtain ⟨j, rfl⟩ := Nat.exists_eq_add_of_le (Nat.not_lt.1 hpayload)
      exact parseResponse_of_changed_checksum hlen (by omega)
        (responseFrame_getD_trailer echo 0x00 payload j ▸ hflip)
  · rintro rfl
    exact parseResponse_of_changed_stop hlen (responseFrame_getD_stop echo 0x00 payload ▸ hflip)

end Sys2Proof.Machine

/-! ## OPEN and operands outside their types (43_transport.md R160, R162; O20, O23) -/

namespace Sys2Proof.Machine

open Sys2Proof.Safety

/-- Settles O20: with a direction line or without one, the drive is what the DIR event says. -/
theorem openLatchesTheConfiguration : Obligations.OpenLatchesTheConfiguration := by
  intro s dirPresent delayMs
  refine ⟨fun hidle => ?_, fun hbusy => whenIdle_of_busy hbusy _⟩
  refine (whenIdle_of_idle hidle _).trans ?_
  cases dirPresent with
  | true => rfl
  | false => simp [State.dirDrive, State.answer, returning]

/-- A direction code outside its type is the first operand that EXECUTE and ENCODE_REQUEST look at. -/
theorem exec_of_illegal_direction {s : State} (hs : Ready s) {dir : Byte} (hdir : ¬ legalDirection dir)
    (cmd cap : Byte) (payload : List Byte) :
    exec (.execute dir cmd payload cap) s = .refused .directionCode ∧
      exec (.encodeRequest dir cmd payload) s = .refused .directionCode :=
  ⟨(whenReady_of_ready hs _).trans (if_pos hdir), (whenReady_of_ready hs _).trans (if_pos hdir)⟩

/-- A payload outside its type is the second. -/
theorem exec_of_illegal_payload {s : State} (hs : Ready s) {dir : Byte} (hdir : legalDirection dir)
    {payload : List Byte} (hlen : ¬ legalPayload payload) (cmd cap : Byte) :
    exec (.execute dir cmd payload cap) s = .refused .payloadLength ∧
      exec (.encodeRequest dir cmd payload) s = .refused .payloadLength :=
  ⟨(whenReady_of_ready hs _).trans ((if_neg (not_not.2 hdir)).trans (if_pos hlen)),
    (whenReady_of_ready hs _).trans ((if_neg (not_not.2 hdir)).trans (if_pos hlen))⟩

/-- EXECUTE looks at the capacity last. -/
theorem exec_of_illegal_capacity {s : State} (hs : Ready s) {dir : Byte} (hdir : legalDirection dir)
    {payload : List Byte} (hlen : legalPayload payload) {cap : Byte}
    (hcap : ¬ (legalCapacity cap ∧ cap.toNat ≤ s.params.rxbufSize)) (cmd : Byte) :
    exec (.execute dir cmd payload cap) s = .refused .capacity :=
  (whenReady_of_ready hs _).trans
    ((if_neg (not_not.2 hdir)).trans ((if_neg (not_not.2 hlen)).trans (if_pos hcap)))

/-- Settles O23: the three checks in their order. -/
theorem operandsOutsideTheirTypeAreRefused : Obligations.OperandsOutsideTheirTypeAreRefused := by
  intro s dir cmd cap payload hs
  refine ⟨fun hdir => exec_of_illegal_direction hs hdir cmd cap payload,
    fun hdir hlong => exec_of_illegal_payload hs hdir (Nat.not_le.2 hlong) cmd cap,
    fun hdir hlen hcap => exec_of_illegal_capacity hs hdir hlen ?_ cmd⟩
  rintro ⟨hmax, hbuf⟩
  have : cap.toNat ≤ 64 := hmax
  omega

end Sys2Proof.Machine

/-! ## Spacing, holds and the time stamp (43_transport.md R164, R174, R175, R179; O26, O28, O44) -/

namespace Sys2Proof.Machine

open Sys2Proof.Safety

/-- Two advances of the clock add up: without a wrap, what was missing after the first is made up by the second. -/
theorem sub32_le_of_remaining {delay last t0 now : Millis} (hbefore : sub32 t0 last < delay)
    (hafter : delay - sub32 t0 last ≤ sub32 now t0)
    (hwrap : (sub32 t0 last).toNat + (sub32 now t0).toNat < 4294967296) : delay ≤ sub32 now last := by
  unfold sub32 at *
  bv_omega

/-- WAIT goes to TX_ENABLE, and nothing but the environment has moved. -/
theorem phaseWait_moved_frame {s t : State} (h : phaseWait s = .moved t) :
    t.phase = .txEnable ∧ t.lastDone = s.lastDone ∧ t.history = s.history := by
  obtain ⟨used, rest, -, ⟨-, -, -, rfl⟩ | ⟨t0, -, -, rfl⟩⟩ := phaseWait_moved h <;> exact ⟨rfl, rfl, rfl⟩

/-- The t0 that WAIT is left with: either the spacing had elapsed from LAST_DONE to t0, and t0 is now, or it had not,
and the clock has advanced from t0 by what was missing (R164). -/
theorem phaseWait_moved_spacing {s t : State} (hs : Sane s) (h : phaseWait s = .moved t) :
    ∃ t0, spacingMet s t t0 ∧
      ((s.cfg.cmdDelayMs ≤ sub32 t0 s.lastDone ∧ t.line.clock = t0) ∨
        (sub32 t0 s.lastDone < s.cfg.cmdDelayMs ∧
          s.cfg.cmdDelayMs - sub32 t0 s.lastDone ≤ sub32 t.line.clock t0)) := by
  obtain ⟨used, rest, -, ⟨hnone, rfl, helapsed, rfl⟩ | ⟨t0, hstart, hrest, rfl⟩⟩ := phaseWait_moved h
  · have hnow : s.now.line = s.line.after (s.script.take 1) := by rw [s.now_eq]
    refine ⟨s.now.line.clock, ⟨.inr ⟨hnone, rfl⟩, fun hlt => ?_⟩, .inl ?_⟩
    · rw [hnow] at hlt
      exact absurd hlt (BitVec.not_lt.2 helapsed)
    · rw [hnow]
      exact ⟨helapsed, rfl⟩
  · have hlt : sub32 t0 s.lastDone < s.cfg.cmdDelayMs := by
      obtain hsome | ⟨-, -, hlt⟩ := hstart
      · exact (hs.waiting t0 hsome).2
      · exact hlt
    refine ⟨t0, ⟨?_, fun _ => hrest⟩, .inr ⟨hlt, hrest⟩⟩
    obtain hsome | ⟨hnone, hclock, -⟩ := hstart
    · exact .inl hsome
    · exact .inr ⟨hnone, hclock⟩

/-- Settles O26: the whole spacing has passed at t0, or it is made up after t0. -/
theorem waitEnforcesTheSpacing : Obligations.WaitEnforcesTheSpacing := by
  intro s t hs hp h
  simp only [advance, hp] at h
  obtain ⟨hphase, hlast, hhist⟩ := phaseWait_moved_frame h
  obtain ⟨t0, hmet, hcases⟩ := phaseWait_moved_spacing hs h
  refine ⟨hphase, hlast, hhist, t0, hmet, fun hwrap => ?_⟩
  obtain ⟨helapsed, hclock⟩ | ⟨hbefore, hafter⟩ := hcases
  · rw [hclock]
    exact helapsed
  · exact sub32_le_of_remaining hbefore hafter hwrap

/-- A step that ends outside IDLE ends in a state that is its own hold. -/
theorem step_ends_held {s t : State} (h : step s = .next t) (hbusy : t.phase ≠ .idle) : advance t = .held t := by
  obtain hidle | ⟨u, -, hheld⟩ := step_ends h
  · exact absurd hidle hbusy
  · exact advance_of_held hheld

/-- A hold has used up the environment's moves (R179). -/
theorem advance_held_script {s t : State} (h : advance s = .held t) (hbusy : s.phase ≠ .idle) : t.script = [] := by
  obtain ⟨hidle, -⟩ | ⟨-, t0, rfl⟩ | ⟨-, -, -, rfl⟩ := advance_held h
  · exact absurd hidle hbusy
  · rfl
  · rfl

/-- Settles O28: the state a step leaves a command in is held by its own phase, and that phase's lemma says what it
waits for. -/
theorem holdsAreOnlyWhereAllowed : Obligations.HoldsAreOnlyWhereAllowed := by
  intro s t h hbusy
  have hheld := step_ends_held h hbusy
  have hscript := advance_held_script hheld hbusy
  refine ⟨hscript, ?_⟩
  have hrest := everyStepEndsAtRest s t h
  cases hp : t.phase <;> simp only [advance, hp] at hheld ⊢ <;> rw [hp] at hrest
  case idle => exact hbusy hp
  case wait =>
    obtain ⟨t0, -, hlt, ht⟩ := phaseWait_held hheld
    rw [hscript, Line.after_nil] at hlt
    exact ⟨t0, congrArg (·.seq.waitStart) ht, hlt⟩
  case flush => exact (phaseFlush_held hheld).2
  case receivingHeader => exact (phaseReceivingHeader_held hheld).2
  case receivingPayload => exact (phaseReceivingPayload_held hheld).2
  case receivingTrailer => exact (phaseReceivingTrailer_held hheld).2
  all_goals cases hrest

/-- From `s` to `t` the block has stamped the time: the last event is STAMP with LAST_DONE, which is the clock, and the
block is in IDLE (R174). -/
def StampedSince (s t : State) : Prop :=
  ∃ es, t.history = s.history ++ es ++ [.stamp t.lastDone] ∧ t.lastDone = t.line.clock ∧ t.phase = .idle

/-- STAMP stamps the time, whatever the outcome. -/
theorem phaseStamp_moved_stamped {s t : State} (h : phaseStamp s = .moved t) : StampedSince s t := by
  obtain ⟨-, rfl⟩ | ⟨-, -, rfl⟩ := phaseStamp_moved h
  · exact ⟨[], by simp, rfl, rfl⟩
  · have hd := s.stampAndReturn.deliver_same (s.buf.rxbuf.readRange 0 s.res.len.toNat)
    exact ⟨[], by simp [hd.history, hd.lastDone], by simp [hd.lastDone, hd.line], by simp [hd.phase]⟩

/-- A transition leaves LAST_DONE alone, or it is STAMP's. -/
theorem advance_moved_lastDone {s t : State} (h : advance s = .moved t) :
    t.lastDone = s.lastDone ∨ StampedSince s t := by
  cases hp : s.phase <;> simp only [advance, hp] at h
  case idle => cases h
  case encoding => obtain ⟨-, rfl⟩ | ⟨frame, -, rfl⟩ := phaseEncoding_moved h <;> exact .inl rfl
  case wait =>
    obtain ⟨-, hlast, -⟩ := phaseWait_moved_frame h
    exact .inl hlast
  case txEnable => obtain rfl := phaseTxEnable_moved h; exact .inl (by simp)
  case transmitting => obtain ⟨frame, n, used, rest, -, -, -, rfl⟩ := phaseTransmitting_moved h; exact .inl rfl
  case flush => obtain ⟨used, rest, -, -, rfl⟩ := phaseFlush_moved h; exact .inl rfl
  case directionSwitch => obtain ⟨-, rfl⟩ | ⟨-, rfl⟩ := phaseDirectionSwitch_moved h <;> exact .inl (by simp)
  case receivingHeader =>
    obtain ⟨bs, used, rest, rxq, -, ⟨-, rfl⟩ | ⟨start, echo, code, len, -, rfl⟩⟩ := phaseReceivingHeader_moved h
    · exact .inl rfl
    · obtain ⟨-, he⟩ | ⟨-, he⟩ | ⟨-, -, he⟩ := State.afterHeader_eq
        (((s.taken used rest rxq bs).stored .rxhdr bs).latchHeader echo code len) len <;>
        rw [he] <;> exact .inl rfl
  case receivingPayload =>
    obtain ⟨bs, used, rest, rxq, -, -, ⟨-, rfl⟩ | ⟨-, rfl⟩⟩ := phaseReceivingPayload_moved h <;> exact .inl rfl
  case receivingTrailer =>
    obtain ⟨bs, used, rest, rxq, -, ⟨-, rfl⟩ | ⟨-, rfl⟩⟩ := phaseReceivingTrailer_moved h <;> exact .inl rfl
  case validating => obtain ⟨bytes, -, rfl⟩ := phaseValidating_moved h; exact .inl rfl
  case stamp => exact .inr (phaseStamp_moved_stamped h)

/-- What came before belongs to the events of the stamp. -/
theorem StampedSince.of_prefix {o s t : State} (hpre : o.history <+: s.history) (h : StampedSince s t) :
    StampedSince o t := by
  obtain ⟨before, hbefore⟩ := hpre
  obtain ⟨es, hhist, hrest⟩ := h
  exact ⟨before ++ es, by simp only [hhist, ← hbefore, List.append_assoc], hrest⟩

/-- Since `o` nothing has written LAST_DONE but a STAMP that ended the command. -/
def OnlyStamped (o t : State) : Prop := o.history <+: t.history ∧ (t.lastDone = o.lastDone ∨ StampedSince o t)

/-- A transition from a phase other than IDLE keeps it: a command that is in progress has not been stamped. -/
theorem OnlyStamped.of_moved {o s t : State} (hs : OnlyStamped o s) (hbusy : s.phase ≠ .idle)
    (h : advance s = .moved t) : OnlyStamped o t := by
  obtain ⟨hpre, hlast | ⟨es, -, -, hidle⟩⟩ := hs
  · refine ⟨hpre.trans (advance_moved_frame h).history, ?_⟩
    exact (advance_moved_lastDone h).imp (·.trans hlast) (.of_prefix hpre)
  · exact absurd hidle hbusy

/-- So does a hold, which writes no register but t0. -/
theorem OnlyStamped.of_held {o s t : State} (hs : OnlyStamped o s) (hbusy : s.phase ≠ .idle)
    (h : advance s = .held t) : OnlyStamped o t := by
  obtain ⟨hpre, hlast | ⟨es, -, -, hidle⟩⟩ := hs
  · refine ⟨hpre.trans (advance_held_frame h).history, .inl ?_⟩
    obtain ⟨-, rfl⟩ | ⟨-, t0, rfl⟩ | ⟨-, -, -, rfl⟩ := advance_held h <;> exact hlast
  · exact absurd hidle hbusy

theorem runPhases_onlyStamped {n : Nat} {s t : State} (hbusy : s.phase ≠ .idle) (h : runPhases n s = .next t) :
    OnlyStamped s t :=
  runPhases_keeps (P := OnlyStamped s) (fun _ _ hu hb ha => hu.of_moved hb ha) (fun _ _ hu hb ha => hu.of_held hb ha)
    n ⟨List.prefix_refl _, .inl rfl⟩ hbusy h

/-- OPEN does not touch LAST_DONE (R160). -/
theorem execOpen_next_lastDone {present : Bool} {delay : Millis} {s t : State}
    (h : exec (.openDriver present delay) s = .next t) : t.lastDone = s.lastDone := by
  obtain ⟨-, ht⟩ := whenIdle_next (h : execOpen present delay s = .next t)
  cases ht
  simp

/-- Settles O44: moves of the environment, pure operations and OPEN leave LAST_DONE alone; a command, begun or gone on
with, writes it in its STAMP. -/
theorem onlyStampWritesLastDone : Obligations.OnlyStampWritesLastDone := by
  intro s t h
  obtain ⟨-, rfl⟩ | ⟨i, later, -, hexec⟩ | ⟨hbusy, hrun⟩ := step_next_cases h
  · exact .inl s.envMove_lastDone
  · obtain hi | ⟨present, delay, rfl⟩ | ⟨q, hq⟩ := exec_next_cases hexec
    · obtain ⟨-, chk, draws, r, rfl⟩ := exec_pure_next hi hexec
      exact .inl rfl
    · exact .inl (execOpen_next_lastDone (s := s.withRequests later) hexec)
    · exact (runPhases_onlyStamped (by simp) (exec_command_next hq hexec).2).2
  · exact (runPhases_onlyStamped hbusy hrun).2

end Sys2Proof.Machine

/-! ## A payload too long for a frame (43_transport.md R163; O38) -/

namespace Sys2Proof.Machine

open Sys2Proof.Safety

/-- What STAMP leaves (R174). -/
theorem State.stampAndReturn_eq (s : State) :
    s.stampAndReturn =
      { s with
        phase := .idle
        lastDone := s.now.line.clock
        line := s.now.line
        script := s.script.tail
        history := s.history ++ [.stamp s.now.line.clock] } := by
  unfold State.stampAndReturn
  simp only [State.now_eq, List.drop_one]
  rfl

/-- STAMP after an error ends the run with the reason (R174, R190). -/
theorem runPhases_stamp_failed {n : Nat} {s : State} {reason : ErrorReason} (hp : s.phase = .stamp)
    (hr : s.res.err = reason) (he : reason ≠ .ok) :
    runPhases (n + 1) s = .next (s.stampAndReturn.answer (.failed reason)) := by
  subst hr
  exact runPhases_of_ended (advance_stamp_failed hp he) rfl

/-- ENCODING a payload that is too long takes the error (R163, R141). -/
theorem advance_issue_too_long {s : State} {q : Issue} (hlen : 31 ≤ q.payload.length) :
    advance (s.issue q.command q.dir q.cmd q.payload q.cap) =
      .moved ({ s.issue q.command q.dir q.cmd q.payload q.cap with chkOk := false }.raise .encPayloadTooLong) :=
  advance_encoding_too_long rfl hlen

/-- Settles O38: ENCODING goes straight to STAMP. -/
theorem tooLongPayloadFailsBeforeTheBus : Obligations.TooLongPayloadFailsBeforeTheBus := by
  intro s dir cmd request cap hready hdir hlong hlen hmax hbuf
  have hidle : s.phase = .idle := hready.1
  have hq := commandIssue_execute_of (cmd := cmd) hdir hlen hmax hbuf
  rw [exec_of_commandIssue hq hready, State.proceed, phaseCount,
    runPhases_of_moved (advance_issue_too_long hlong) (by simp), runPhases_stamp_failed rfl rfl (by simp)]
  simp only [State.stampAndReturn_eq, State.now_eq, ← hidle]
  rfl

end Sys2Proof.Machine

/-! ## A command up to the end of its write (43_transport.md R163 to R168, R176; O37)

A served command runs to DIRECTION_SWITCH whatever the stream accepts. Its states on the way are the state at issue
with the frame in TXBUF, the events so far and the environment's line, written out. -/

namespace Sys2Proof.Machine

open Sys2Proof.Safety

/-- A command at WAIT: its frame is in TXBUF (R163). -/
def State.framed (s : State) (q : Issue) : State :=
  { s.issue q.command q.dir q.cmd q.payload q.cap with
    phase := .wait
    chkOk := true
    buf := { s.buf with txbuf := s.buf.txbuf.writeRange 0 (requestFrame q.dir q.cmd q.payload) }
    seq := { s.seq with txLen := 7 + q.payload.length, waitStart := none, pending := q.command } }

/-- A command at TRANSMITTING: the line is driven to transmit (R165). -/
def State.enabled (s : State) (q : Issue) (line : Line) (script : List EnvMove) : State :=
  { s.framed q with
    phase := .transmitting
    dirLevel := if s.cfg.dirPresent then s.params.dirTxLevel else s.dirLevel
    line := line
    script := script
    history := s.history ++ dirEvents s s.params.dirTxLevel }

/-- A command at FLUSH: the stream has accepted `n` bytes (R166). -/
def State.written (s : State) (q : Issue) (n : Nat) (line : Line) (script : List EnvMove) : State :=
  { s.enabled q line script with
    phase := .flush
    seq := { txLen := 7 + q.payload.length, txCount := n, waitStart := none, pending := q.command }
    history := s.history ++ dirEvents s s.params.dirTxLevel ++ [.tx (requestFrame q.dir q.cmd q.payload) n] }

/-- A command at DIRECTION_SWITCH: they have left the transmitter (R167). -/
def State.flushed (s : State) (q : Issue) (n : Nat) (line : Line) (script : List EnvMove) : State :=
  { s.written q n line script with
    phase := .directionSwitch
    history := s.history ++ dirEvents s s.params.dirTxLevel ++ [.tx (requestFrame q.dir q.cmd q.payload) n] ++
      [.flush] }

/-- A command whose write is over, the line back at the receive level (R168). -/
def State.sent (s : State) (q : Issue) (n : Nat) (line : Line) (script : List EnvMove) : State :=
  { s.flushed q n line script with
    dirLevel := if s.cfg.dirPresent then !s.params.dirTxLevel else s.dirLevel
    history := s.history ++ sendEvents s (requestFrame q.dir q.cmd q.payload) n }

@[simp] theorem State.sent_records (s : State) (q : Issue) (n : Nat) (line : Line) (script : List EnvMove) :
    (s.sent q n line script).records = s.records := rfl
@[simp] theorem State.sent_draws (s : State) (q : Issue) (n : Nat) (line : Line) (script : List EnvMove) :
    (s.sent q n line script).draws = s.draws := rfl
@[simp] theorem State.sent_pending (s : State) (q : Issue) (n : Nat) (line : Line) (script : List EnvMove) :
    (s.sent q n line script).seq.pending = q.command := rfl

/-- What a drive of the line leaves (R55). -/
theorem State.dirDrive_eq (s : State) (level : Bool) :
    s.dirDrive level =
      { s with
        dirLevel := if s.cfg.dirPresent then level else s.dirLevel
        history := s.history ++ dirEvents s level } := by
  unfold State.dirDrive dirEvents
  split
  · rfl
  · rw [List.append_nil]

/-- The switch back to receive after the write. -/
theorem State.flushed_dirDrive (s : State) (q : Issue) (n : Nat) (line : Line) (script : List EnvMove) :
    (s.flushed q n line script).dirDrive (!s.params.dirTxLevel) = s.sent q n line script := by
  rw [State.dirDrive_eq]
  cases hd : s.cfg.dirPresent <;>
    simp [State.sent, State.flushed, State.written, State.enabled, State.framed, sendEvents, dirEvents, hd]

/-- Now() with a move to come (R35). -/
theorem State.now_of_cons {s : State} {m : EnvMove} {later : List EnvMove} (h : s.script = m :: later) :
    s.now = { s with line := s.line.move m, script := later } := by
  simp only [State.now, State.envMove, h]

/-- One move takes no byte from the wire and the queue together (R57). -/
theorem Line.move_wire_txq (l : Line) (m : EnvMove) : (l.move m).wire ++ (l.move m).txq = l.wire ++ l.txq :=
  l.after_wire_txq [m]

/-- The line when a move has answered a write that `bs` are accepted of: they join the transmit queue (R56). -/
def Line.accepting (l : Line) (m : EnvMove) (bs : List Byte) : Line :=
  { l.move m with txq := (l.move m).txq ++ bs }

/-- The accepted bytes come last, on the wire or in the queue. -/
theorem Line.accepting_wire_txq (l : Line) (m : EnvMove) (bs : List Byte) :
    (l.accepting m bs).wire ++ (l.accepting m bs).txq = l.wire ++ l.txq ++ bs := by
  rw [← l.move_wire_txq m, List.append_assoc]
  rfl

theorem Line.accepting_txq_length (l : Line) (m : EnvMove) (bs : List Byte) :
    (l.accepting m bs).txq.length ≤ l.txq.length + bs.length := by
  simp only [Line.accepting, Line.move_txq, List.length_append, List.length_drop]
  omega

theorem Line.accepting_txq_ne (l : Line) (m : EnvMove) {bs : List Byte} (h : bs ≠ []) :
    (l.accepting m bs).txq ≠ [] := List.append_ne_nil_of_right_ne_nil _ h

section

variable {s : State} {q : Issue} {m : EnvMove} {later : List EnvMove}

/-- ENCODING of a command with a frame (R163). -/
theorem advance_issue (hlen : q.payload.length ≤ 30) :
    advance (s.issue q.command q.dir q.cmd q.payload q.cap) = .moved (s.framed q) :=
  advance_encoding rfl (Nat.lt_succ_of_le hlen)

/-- A command whose spacing has elapsed runs to TRANSMITTING with one move of the environment (R163 to R165). -/
theorem State.proceed_enabled (hlen : q.payload.length ≤ 30) (hscript : s.script = m :: later)
    (hspacing : SpacingElapsed s) :
    (s.issue q.command q.dir q.cmd q.payload q.cap).proceed = runPhases 8 (s.enabled q (s.line.move m) later) := by
  have hnow : (s.framed q).now = { s.framed q with line := s.line.move m, script := later } :=
    State.now_of_cons hscript
  have helapsed : s.cfg.cmdDelayMs ≤ sub32 (s.framed q).now.line.clock s.lastDone := by
    rw [hnow, ← State.now_line_cons hscript]
    exact hspacing
  rw [State.proceed, phaseCount, runPhases_of_moved (advance_issue hlen) (by simp [State.framed]),
    runPhases_of_moved (advance_wait_elapsed rfl rfl helapsed) (by simp), hnow,
    runPhases_of_moved (advance_txEnable rfl) (by simp), State.dirDrive_eq]
  rfl

/-- The frame is read back from TXBUF (R166). -/
theorem State.enabled_memRead (hs : s.Canonical) (hlen : q.payload.length ≤ 30) (line : Line)
    (script : List EnvMove) :
    (s.enabled q line script).memRead .txbuf 0 (7 + q.payload.length) =
      some (requestFrame q.dir q.cmd q.payload) := by
  refine State.memRead_eq_some.2 ⟨?_, ?_⟩
  · simp only [Space.size, Config.TXBUF_SIZE]
    omega
  · rw [← requestFrame_length q.dir q.cmd q.payload]
    exact (Memory.readRange_writeRange (hs .txbuf) 0 _).symm

/-- The next move answers the write (R166). -/
theorem advance_enabled (hs : s.Canonical) (hlen : q.payload.length ≤ 30) {accepted n : Nat}
    (hm : m.accept = some accepted) (hn : min accepted (7 + q.payload.length) = n) (line : Line) :
    advance (s.enabled q line (m :: later)) =
      .moved (s.written q n (line.accepting m ((requestFrame q.dir q.cmd q.payload).take n)) later) := by
  have hcount : min accepted (requestFrame q.dir q.cmd q.payload).length = n := by rw [requestFrame_length, hn]
  have htx := advance_transmitting rfl (State.enabled_memRead hs hlen line (m :: later)) rfl hm
  rw [hcount] at htx
  exact htx

/-- A flush that the next move can complete makes that move, or none if the queue is empty already (R57). -/
theorem State.streamFlush_of_next (hs : s.script = m :: later) (hm : s.line.txq.length ≤ m.drain) :
    ∃ used rest, s.streamFlush = .done () (s.envAfter used rest) ∧ (s.line.after used).txq = [] ∧
      (s.line.txq ≠ [] → used = [m]) := by
  by_cases hq : s.line.txq = []
  · exact ⟨[], s.script, State.streamFlush_of_empty hq, hq, fun hne => absurd hq hne⟩
  · exact ⟨[m], later, State.streamFlush_of_drain hs hq hm, by simpa using hm, fun _ => rfl⟩

end

/-- What the environment of a served command has done by the end of the write: the `n` accepted bytes, and nothing else,
have followed the queued ones onto the wire, and unless none was accepted the response is there. -/
structure SentOver (s : State) (frame : List Byte) (n : Nat) (arrived : List Byte) (line : Line) : Prop where
  flushed : line.txq = []
  wire : line.wire = s.line.wire ++ s.line.txq ++ frame.take n
  arrived : 0 < n → arrived <+: line.rxq

/-- After the flush of the accepted bytes. -/
theorem SentOver.of_flush {s : State} {frame arrived : List Byte} {n sent accepted : Nat} {m₀ m₁ m₂ : EnvMove}
    {later used : List EnvMove} (hs : Serves s sent accepted arrived m₀ m₁ m₂ later) (hn : n ≤ frame.length)
    (hflushed : (((s.line.move m₀).accepting m₁ (frame.take n)).after used).txq = [])
    (hused : ((s.line.move m₀).accepting m₁ (frame.take n)).txq ≠ [] → used = [m₂]) :
    SentOver s frame n arrived (((s.line.move m₀).accepting m₁ (frame.take n)).after used) where
  flushed := hflushed
  wire := by
    have h := Line.after_wire_txq ((s.line.move m₀).accepting m₁ (frame.take n)) used
    rwa [hflushed, List.append_nil, Line.accepting_wire_txq, Line.move_wire_txq] at h
  arrived hpos := by
    have hframe : frame.take n ≠ [] := by
      rw [← List.length_pos_iff, List.length_take]
      omega
    rw [hused (Line.accepting_txq_ne _ _ hframe)]
    simpa [Line.accepting] using hs.arrives

/-- A served command runs to DIRECTION_SWITCH with the bytes that were accepted sent (R163 to R167). -/
theorem State.proceed_flushed {s : State} {q : Issue} {accepted n : Nat} {arrived : List Byte} {m₀ m₁ m₂ : EnvMove}
    {later : List EnvMove} (hc : s.Canonical) (hlen : q.payload.length ≤ 30)
    (hn : min accepted (7 + q.payload.length) = n) (hs : Serves s n accepted arrived m₀ m₁ m₂ later) :
    ∃ line script, SentOver s (requestFrame q.dir q.cmd q.payload) n arrived line ∧
      (s.issue q.command q.dir q.cmd q.payload q.cap).proceed = runPhases 6 (s.flushed q n line script) := by
  have hdrain :
      ((s.line.move m₀).accepting m₁ ((requestFrame q.dir q.cmd q.payload).take n)).txq.length ≤ m₂.drain := by
    have hle := (s.line.move m₀).accepting_txq_length m₁ ((requestFrame q.dir q.cmd q.payload).take n)
    have hmove : (s.line.move m₀).txq.length ≤ s.line.txq.length := by simp
    have htake := List.length_take_le n (requestFrame q.dir q.cmd q.payload)
    have hall := hs.drains
    omega
  obtain ⟨used, rest, hflush, hempty, hused⟩ := State.streamFlush_of_next
    (s := s.written q n ((s.line.move m₀).accepting m₁ ((requestFrame q.dir q.cmd q.payload).take n)) (m₂ :: later))
    rfl hdrain
  refine ⟨_, rest, SentOver.of_flush hs (by rw [requestFrame_length]; omega) hempty hused, ?_⟩
  rw [State.proceed_enabled hlen hs.script hs.spacing,
    runPhases_of_moved (advance_enabled hc hlen hs.accepts hn _) (by simp [State.written]),
    runPhases_of_moved (advance_flush rfl hflush) (by simp)]
  rfl

/-- After a short write the command goes to STAMP with nothing read (R168, R176). -/
theorem State.proceed_short {s : State} {q : Issue} {n : Nat} {line : Line} {script : List EnvMove}
    (hn : n ≠ 7 + q.payload.length) :
    runPhases 6 (s.flushed q n line script) = runPhases 5 ((s.sent q n line script).raise .ioShortWrite) := by
  rw [runPhases_of_moved (advance_directionSwitch_short rfl hn) (by simp)]
  exact congrArg (fun u => runPhases 5 (State.raise u .ioShortWrite)) (s.flushed_dirDrive q n line script)

/-- After a whole write it goes on to the response (R168). -/
theorem State.proceed_whole {s : State} {q : Issue} {n : Nat} {line : Line} {script : List EnvMove}
    (hn : n = 7 + q.payload.length) :
    runPhases 6 (s.flushed q n line script) = runPhases 5 ((s.sent q n line script).goto .receivingHeader) := by
  rw [runPhases_of_moved (advance_directionSwitch rfl hn) (by simp)]
  exact congrArg (fun u => runPhases 5 (State.goto u .receivingHeader)) (s.flushed_dirDrive q n line script)

/-- A clock reading leaves an empty transmit queue and the wire as they are. -/
theorem State.now_line_of_txq_nil {s : State} (h : s.line.txq = []) :
    s.now.line.txq = [] ∧ s.now.line.wire = s.line.wire := by
  rw [s.now_eq]
  have hq := Line.after_txq_nil h (s.script.take 1)
  have hw := s.line.after_wire_txq (s.script.take 1)
  rw [hq, h, List.append_nil, List.append_nil] at hw
  exact ⟨hq, hw⟩

/-- Settles O37: the command is stamped in the state its write left it in. -/
theorem shortWriteReadsNothing : Obligations.ShortWriteReadsNothing := by
  intro i s q accepted m₀ m₁ m₂ later hq hready hc hlen hshort hs
  obtain ⟨line, script, hsent, hrun⟩ := State.proceed_flushed hc hlen (Nat.min_eq_left hshort.le) hs
  obtain ⟨htxq, hwire⟩ :=
    State.now_line_of_txq_nil (s := (s.sent q accepted line script).raise .ioShortWrite) hsent.flushed
  rw [exec_of_commandIssue hq hready, hrun, State.proceed_short hshort.ne,
    runPhases_stamp_failed rfl rfl (by simp), State.stampAndReturn_eq]
  exact ⟨_, rfl, rfl, rfl, rfl, htxq, hwire.trans hsent.wire, rfl, rfl, rfl, rfl, rfl, rfl, rfl⟩

end Sys2Proof.Machine

/-! ## A response to a served command (43_transport.md R169 to R174; O31, O39)

`State.received` is the state in which a response that was read in full comes to VALIDATING, and `State.judged` what a
parse of it leaves after STAMP. -/

namespace Sys2Proof.Machine

open Sys2Proof.Safety

/-- A whole write leads a served command to RECEIVING_HEADER with the response in the queue (R162 to R168). -/
theorem exec_command_listens {i : Instr} {s : State} {q : Issue} {accepted : Nat} {arrived : List Byte}
    {m₀ m₁ m₂ : EnvMove} {later : List EnvMove} (hq : commandIssue s i = some q) (hready : Ready s)
    (hc : s.Canonical) (hlen : q.payload.length ≤ 30) (haccepted : 7 + q.payload.length ≤ accepted)
    (hs : Serves s (7 + q.payload.length) accepted arrived m₀ m₁ m₂ later) :
    ∃ line script more, line.rxq = arrived ++ more ∧
      exec i s = runPhases 5 ((s.sent q (7 + q.payload.length) line script).goto .receivingHeader) := by
  obtain ⟨line, script, hsent, hrun⟩ := State.proceed_flushed hc hlen (Nat.min_eq_right haccepted) hs
  obtain ⟨more, hmore⟩ := hsent.arrived (by omega)
  exact ⟨line, script, more, hmore.symm,
    (exec_of_commandIssue hq hready).trans (hrun.trans (State.proceed_whole rfl))⟩

/-- A header that declares more than the capacity takes the error (R169). -/
theorem State.afterHeader_of_oversize {s : State} {len : Byte} (h : s.op.cap < len.toNat) :
    s.afterHeader len = s.raise .ioBufferTooSmall := by
  have hne : len ≠ 0 := by
    rintro rfl
    exact absurd h (by simp)
  rw [State.afterHeader, if_neg hne, if_pos h]

/-- A command at VALIDATING: header, payload and trailer are read and stored, `more` is left in the queue (R169 to
R171). -/
def State.received (s : State) (start echo code len : Byte) (payload trailer more : List Byte) : State :=
  { s with
    phase := .validating
    res := { s.res with echo := echo, code := code, len := len }
    buf :=
      { s.buf with
        rxhdr := s.buf.rxhdr.writeRange 0 [start, echo, code, len]
        rxbuf := s.buf.rxbuf.writeRange 0 payload
        rxtrl := s.buf.rxtrl.writeRange 0 trailer }
    line := { s.line with rxq := more }
    history := s.history ++ receiveEvents [start, echo, code, len] payload trailer }

/-- A header that declares no payload leads to the trailer (R169). -/
theorem State.afterHeader_zero (s : State) : s.afterHeader 0 = s.goto .receivingTrailer := if_pos rfl

/-- A header that declares a payload within the capacity leads to it (R169). -/
theorem State.afterHeader_of_fits {s : State} {len : Byte} (hpos : 0 < len.toNat) (hfits : len.toNat ≤ s.op.cap) :
    s.afterHeader len = s.goto .receivingPayload := by
  have hne : len ≠ 0 := by
    rintro rfl
    exact absurd hpos (by simp)
  rw [State.afterHeader, if_neg hne, if_neg (Nat.not_lt.2 hfits)]

/-- A command whose header is read, stored and latched, with `more` left in the queue (R169). -/
def State.headed (s : State) (start echo code len : Byte) (more : List Byte) : State :=
  { s with
    res := { s.res with echo := echo, code := code, len := len }
    buf := { s.buf with rxhdr := s.buf.rxhdr.writeRange 0 [start, echo, code, len] }
    line := { s.line with rxq := more }
    history := s.history ++ [.rx [start, echo, code, len]] }

@[simp] theorem State.headed_records (s : State) (start echo code len : Byte) (more : List Byte) :
    (s.headed start echo code len more).records = s.records := rfl

section

variable {s : State} {start echo code len : Byte} {payload trailer more : List Byte}

theorem advance_header (hp : s.phase = .receivingHeader) (hq : s.line.rxq = [start, echo, code, len] ++ more) :
    advance s = .moved ((s.headed start echo code len more).afterHeader len) :=
  advance_receivingHeader hp hq

/-- After a header that declares more than the capacity the command is stamped with nothing more read (R169). -/
theorem runPhases_oversize {n : Nat} (hp : s.phase = .receivingHeader)
    (hq : s.line.rxq = [start, echo, code, len] ++ more) (hover : s.op.cap < len.toNat) :
    runPhases (n + 2) s = .next
      (((s.headed start echo code len more).raise .ioBufferTooSmall).stampAndReturn.answer
        (.failed .ioBufferTooSmall)) := by
  have hheader := advance_header hp hq
  rw [State.afterHeader_of_oversize (s := s.headed start echo code len more) hover] at hheader
  rw [runPhases_of_moved hheader (by simp)]
  exact runPhases_stamp_failed rfl rfl (by simp)

/-- With the whole response in the queue a command runs to VALIDATING, past RECEIVING_PAYLOAD if there is no payload,
and has the two transitions left that it takes from there. -/
theorem runPhases_received (hp : s.phase = .receivingHeader)
    (hq : s.line.rxq = [start, echo, code, len] ++ payload ++ trailer ++ more) (hlen : len.toNat = payload.length)
    (hcap : payload.length ≤ s.op.cap) (hbuf : s.op.cap ≤ s.params.rxbufSize) (htrailer : trailer.length = 3) :
    ∃ k, runPhases 5 s = runPhases (k + 2) (s.received start echo code len payload trailer more) := by
  rw [List.append_assoc, List.append_assoc] at hq
  have hheader := advance_header hp hq
  cases payload with
  | nil =>
    obtain rfl : len = 0 := BitVec.eq_of_toNat_eq hlen
    rw [State.afterHeader_zero] at hheader
    refine ⟨1, ?_⟩
    rw [runPhases_of_moved hheader (by simp),
      runPhases_of_moved (advance_receivingTrailer rfl rfl htrailer) (by simp)]
    simp [State.received, State.headed, State.stored, State.goto, receiveEvents, Buffers.get, Buffers.set,
      Memory.writeRange]
  | cons b bs =>
    rw [State.afterHeader_of_fits (by simp [hlen]) (by rw [hlen]; exact hcap)] at hheader
    refine ⟨0, ?_⟩
    rw [runPhases_of_moved hheader (by simp),
      runPhases_of_moved (advance_receivingPayload (s := (s.headed ..).goto _) rfl rfl hlen (hcap.trans hbuf))
        (by simp),
      runPhases_of_moved (advance_receivingTrailer rfl rfl htrailer) (by simp)]
    simp [State.received, State.headed, State.stored, State.goto, receiveEvents, Buffers.get, Buffers.set]

end

/-- Settles O39: what the header leaves is stamped. -/
theorem oversizeHeaderStopsReading : Obligations.OversizeHeaderStopsReading := by
  intro i s q start echo code len accepted m₀ m₁ m₂ later hq hready hc hlen hover haccepted hs
  obtain ⟨line, script, more, hrxq, hrun⟩ := exec_command_listens hq hready hc hlen haccepted hs
  rw [hrun, runPhases_oversize rfl hrxq hover, State.stampAndReturn_eq]
  exact ⟨_, rfl, rfl, rfl, List.append_assoc _ _ _, rfl, rfl, by simp, rfl⟩

/-- A command that has been stamped with the reason of a parse (R172, R174). -/
def State.concluded (s : State) (parse : Parse) : State :=
  ({ s with chkOk := parse.chk.getD s.chkOk }.raise parse.result.reason).stampAndReturn

@[simp] theorem State.concluded_phase (s : State) (parse : Parse) : (s.concluded parse).phase = .idle := rfl
@[simp] theorem State.concluded_records (s : State) (parse : Parse) : (s.concluded parse).records = s.records := by
  simp [State.concluded]
@[simp] theorem State.concluded_draws (s : State) (parse : Parse) : (s.concluded parse).draws = s.draws := by
  simp [State.concluded]
@[simp] theorem State.concluded_seq (s : State) (parse : Parse) : (s.concluded parse).seq = s.seq := by
  simp [State.concluded]

/-- The end of a command whose response a parse has judged: the payload is delivered if the reason is OK (R190). -/
def State.judged (s : State) (parse : Parse) (payload : List Byte) : State :=
  if parse.result.reason = .ok then (s.concluded parse).deliver payload
  else (s.concluded parse).answer (.failed parse.result.reason)

/-- VALIDATING and STAMP end the run as the parser judges (R172 to R174). -/
theorem runPhases_judged {k : Nat} {s : State} {bytes payload : List Byte} (hp : s.phase = .validating)
    (hbytes : s.response = some bytes) (hpayload : s.buf.rxbuf.readRange 0 s.res.len.toNat = payload) :
    runPhases (k + 2) s = .next (s.judged (parseResponse bytes) payload) := by
  obtain ⟨hlen, -⟩ := State.response_eq_some.1 hbytes
  subst hpayload
  rw [runPhases_of_moved (advance_validating hp hbytes) (by simp), State.judged]
  by_cases hok : (parseResponse bytes).result.reason = .ok
  · rw [if_pos hok]
    exact runPhases_of_ended (advance_stamp_ok rfl hok hlen) (by simp [(State.deliver_same _ _).phase])
  · rw [if_neg hok]
    exact runPhases_stamp_failed rfl rfl hok

theorem State.Canonical.sent {s : State} (hs : s.Canonical) (q : Issue) (n : Nat) (line : Line)
    (script : List EnvMove) : (s.sent q n line script).Canonical :=
  hs.stored .txbuf (requestFrame q.dir q.cmd q.payload)

section

variable {s : State} {start echo code len : Byte} {payload trailer more : List Byte}

@[simp] theorem State.received_records (s : State) :
    (s.received start echo code len payload trailer more).records = s.records := rfl
@[simp] theorem State.received_draws (s : State) :
    (s.received start echo code len payload trailer more).draws = s.draws := rfl
@[simp] theorem State.received_seq (s : State) :
    (s.received start echo code len payload trailer more).seq = s.seq := rfl

theorem State.goto_received (s : State) (p : Phase) :
    (s.goto p).received start echo code len payload trailer more =
      s.received start echo code len payload trailer more := rfl

/-- The stored header is read back. -/
theorem State.received_rxhdr (hs : s.Canonical) :
    (s.received start echo code len payload trailer more).buf.rxhdr.readRange 0 4 = [start, echo, code, len] :=
  Memory.readRange_writeRange (hs .rxhdr) 0 [start, echo, code, len]

/-- So is the payload. -/
theorem State.received_rxbuf (hs : s.Canonical) :
    (s.received start echo code len payload trailer more).buf.rxbuf.readRange 0 payload.length = payload :=
  Memory.readRange_writeRange (hs .rxbuf) 0 payload

/-- So is the trailer. -/
theorem State.received_rxtrl (hs : s.Canonical) (htrailer : trailer.length = 3) :
    (s.received start echo code len payload trailer more).buf.rxtrl.readRange 0 3 = trailer := by
  rw [← htrailer]
  exact Memory.readRange_writeRange (hs .rxtrl) 0 trailer

/-- A response that was read in full is judged as it came (R172 to R174). -/
theorem runPhases_received_judged {k : Nat} (hs : s.Canonical) (hlen : len.toNat = payload.length)
    (hbuf : payload.length ≤ s.params.rxbufSize) (htrailer : trailer.length = 3) :
    runPhases (k + 2) (s.received start echo code len payload trailer more) =
      .next ((s.received start echo code len payload trailer more).judged
        (parseResponse ([start, echo, code, len] ++ payload ++ trailer)) payload) := by
  have hread : (s.received start echo code len payload trailer more).res.len.toNat = payload.length := hlen
  refine runPhases_judged rfl (State.response_eq_some.2 ⟨hlen.trans_le hbuf, ?_⟩) ?_
  · rw [hread, State.received_rxhdr hs, State.received_rxbuf hs, State.received_rxtrl hs htrailer]
  · rw [hread, State.received_rxbuf hs]

end

/-- A served command whose response is read in full ends as the parser judges it (R162 to R174, R190). -/
theorem exec_command_judged {i : Instr} {s : State} {q : Issue} {start echo code len : Byte}
    {payload trailer : List Byte} {accepted : Nat} {m₀ m₁ m₂ : EnvMove} {later : List EnvMove}
    (hq : commandIssue s i = some q) (hready : Ready s) (hc : s.Canonical) (hcap : q.cap ≤ s.params.rxbufSize)
    (hreq : q.payload.length ≤ 30) (hlen : len.toNat = payload.length) (hpay : payload.length ≤ q.cap)
    (htrailer : trailer.length = 3) (haccepted : 7 + q.payload.length ≤ accepted)
    (hs : Serves s (7 + q.payload.length) accepted ([start, echo, code, len] ++ payload ++ trailer) m₀ m₁ m₂ later) :
    ∃ line script more, exec i s = .next
      (((s.sent q (7 + q.payload.length) line script).received start echo code len payload trailer more).judged
        (parseResponse ([start, echo, code, len] ++ payload ++ trailer)) payload) := by
  obtain ⟨line, script, more, hrxq, hrun⟩ := exec_command_listens hq hready hc hreq haccepted hs
  obtain ⟨k, hk⟩ := runPhases_received (s := (s.sent q (7 + q.payload.length) line script).goto .receivingHeader)
    rfl hrxq hlen hpay hcap htrailer
  refine ⟨line, script, more, ?_⟩
  rw [hrun, hk, State.goto_received]
  exact runPhases_received_judged (hc.sent q _ line script) hlen (hpay.trans hcap) htrailer

/-- Returning a value changes no register that a delivery leaves alone. -/
theorem State.answer_same (s : State) (r : OpResult) : SameButRecords s (s.answer r) :=
  ⟨rfl, rfl, rfl, rfl, rfl, rfl, rfl, rfl, rfl, rfl, rfl, rfl, rfl, rfl⟩

/-- What `Answered` says holds of any state that differs in the records and the value returned only. -/
theorem answered_of_same {s t u : State} {dir cmd : Byte} {request : List Byte} {cap : Nat} {echo code : Byte}
    {payload : List Byte} {reason : ErrorReason} (h : Answered s t dir cmd request cap echo code payload reason)
    (hu : SameButRecords t u) : Answered s u dir cmd request cap echo code payload reason where
  phase := hu.phase.trans h.phase
  results := hu.res.trans h.results
  chkOk := hu.chkOk.trans h.chkOk
  operands := hu.op.trans h.operands
  txLen := by rw [hu.seq, h.txLen]
  txCount := by rw [hu.seq, h.txCount]
  params := hu.params.trans h.params
  cfg := hu.cfg.trans h.cfg
  stamped := by rw [hu.lastDone, hu.line, h.stamped]
  dirLevel := hu.dirLevel.trans h.dirLevel
  history := by rw [hu.history, hu.lastDone, h.history]
  txbuf := by simpa only [State.memRead, hu.buf, hu.params] using h.txbuf
  txbufRest a ha := by rw [hu.buf, h.txbufRest a ha]
  rxhdr := by simpa only [State.memRead, hu.buf, hu.params] using h.rxhdr
  rxbuf := by simpa only [State.memRead, hu.buf, hu.params] using h.rxbuf
  rxbufRest a ha := by rw [hu.buf, h.rxbufRest a ha]
  rxtrl := by simpa only [State.memRead, hu.buf, hu.params] using h.rxtrl
  requests := hu.requests.trans h.requests

/-- A command whose framed response was read in full, stamped with the reason of a parse that reached its checksum, is
answered with that reason. -/
theorem State.sent_received_concluded {s : State} (hc : s.Canonical) {q : Issue} (hreq : q.payload.length ≤ 30)
    {payload : List Byte} (hbuf : payload.length ≤ s.params.rxbufSize) (echo code : Byte) (line : Line)
    (script : List EnvMove) (more : List Byte) {parse : Parse} (hchk : parse.chk = some true) :
    Answered s
      (((s.sent q (7 + q.payload.length) line script).received Config.START echo code
        (BitVec.ofNat 8 payload.length) payload (responseTrailer code payload) more).concluded parse)
      q.dir q.cmd q.payload q.cap echo code payload parse.result.reason := by
  have hsent := hc.sent q (7 + q.payload.length) line script
  rw [State.concluded, State.stampAndReturn_eq]
  exact
    { phase := rfl
      results := rfl
      chkOk := by rw [hchk]; rfl
      operands := rfl
      txLen := rfl
      txCount := rfl
      params := rfl
      cfg := rfl
      stamped := rfl
      dirLevel := rfl
      history := rfl
      txbuf := State.enabled_memRead hc hreq line script
      txbufRest := fun a ha =>
        Memory.read_writeRange_of_outside (hc .txbuf) (.inr (by rw [requestFrame_length]; omega))
      rxhdr := State.memRead_eq_some.2 ⟨le_rfl, (State.received_rxhdr (more := more) hsent).symm⟩
      rxbuf := State.memRead_eq_some.2
        ⟨(Nat.zero_add _).trans_le hbuf, (State.received_rxbuf (more := more) hsent).symm⟩
      rxbufRest := fun a ha => Memory.read_writeRange_of_outside (hc .rxbuf) (.inr (by omega))
      rxtrl := State.memRead_eq_some.2 ⟨le_rfl, (State.received_rxtrl (more := more) hsent rfl).symm⟩
      requests := rfl }

/-- The reason for a framed response: its return code decides (R148). -/
theorem parseResponse_responseFrame_reason {payload : List Byte} (h : payload.length ≤ 30) (echo code : Byte) :
    (parseResponse (responseFrame echo code payload)).result.reason = if code = 0 then .ok else .deviceError := by
  by_cases hcode : code = 0
  · rw [if_pos hcode, hcode, parseResponse_responseFrame_ok h]
    rfl
  · rw [if_neg hcode, parseResponse_responseFrame_device h echo hcode]
    rfl

/-- A framed response reaches its checksum, and it matches. -/
theorem parseResponse_responseFrame_chk {payload : List Byte} (h : payload.length ≤ 30) (echo code : Byte) :
    (parseResponse (responseFrame echo code payload)).chk = some true :=
  congrArg Parse.chk (parseResponse_responseFrame h echo code)

/-- A served command with a valid response completes: stamped as `Answered` says and with nothing delivered yet, it
delivers the payload for return code 0 and fails for any other (R162 to R174, R190). -/
theorem exec_command_completes {i : Instr} {s : State} {q : Issue} {echo code : Byte} {payload : List Byte}
    {accepted : Nat} {m₀ m₁ m₂ : EnvMove} {later : List EnvMove} (hq : commandIssue s i = some q) (hready : Ready s)
    (hc : s.Canonical) (hcap : q.cap ≤ s.params.rxbufSize) (hreq : q.payload.length ≤ 30)
    (hpay : payload.length ≤ q.cap) (hlen : payload.length ≤ 30) (haccepted : 7 + q.payload.length ≤ accepted)
    (hs : Serves s (7 + q.payload.length) accepted (responseFrame echo code payload) m₀ m₁ m₂ later) :
    ∃ u, exec i s = .next (if code = 0 then u.deliver payload else u.answer (.failed .deviceError)) ∧
      Answered s u q.dir q.cmd q.payload q.cap echo code payload (if code = 0 then .ok else .deviceError) ∧
      u.records = s.records ∧ u.draws = s.draws ∧ u.seq.pending = q.command := by
  obtain ⟨line, script, more, hrun⟩ := exec_command_judged hq hready hc hcap hreq
    (length_ofNat_toNat (payload := payload) (by omega)) hpay rfl haccepted hs
  have hreason := parseResponse_responseFrame_reason hlen echo code
  have hanswered := State.sent_received_concluded hc hreq (hpay.trans hcap) echo code line script more
    (parseResponse_responseFrame_chk hlen echo code)
  rw [hreason] at hanswered
  refine ⟨_, hrun.trans ?_, hanswered, by simp, by simp, by simp⟩
  have hframe : [Config.START, echo, code, BitVec.ofNat 8 payload.length] ++ payload ++ responseTrailer code payload =
      responseFrame echo code payload := rfl
  rw [hframe, State.judged, hreason]
  by_cases hcode : code = 0
  · simp only [if_pos hcode, if_true]
  · simp only [if_neg hcode, reduceCtorEq, if_false]

/-- Settles O31: EXECUTE delivers the code and the payload. -/
theorem executeCompletes : Obligations.ExecuteCompletes := by
  intro s dir cmd request cap echo code payload accepted m₀ m₁ m₂ later hready hc hdir hreq hmax hbuf hpay hlen
    haccepted hs
  have hq := commandIssue_execute_of (cmd := cmd) hdir (show request.length ≤ 255 by omega) hmax hbuf
  obtain ⟨u, hrun, hanswered, hrecords, hdraws, hpending⟩ :=
    exec_command_completes hq hready hc hbuf hreq hpay hlen haccepted hs
  have hdeliver : u.deliver payload = u.answer (.executed code payload) := by
    rw [State.deliver, hpending, hanswered.results]
  rw [hdeliver] at hrun
  by_cases hcode : code = 0
  · simp only [if_pos hcode] at hrun hanswered ⊢
    exact ⟨_, hrun, answered_of_same hanswered (u.answer_same _), hrecords, hdraws, rfl⟩
  · simp only [if_neg hcode] at hrun hanswered ⊢
    exact ⟨_, hrun, answered_of_same hanswered (u.answer_same _), hrecords, hdraws, rfl⟩

end Sys2Proof.Machine

/-! ## The phase table (43_transport.md R161; O25)

One lemma per phase: its transition is one of the table's rows. -/

namespace Sys2Proof.Machine

open Sys2Proof.Safety

/-- What a store left in a buffer is read back by MemRead (R9). -/
theorem State.Canonical.memRead_stored {s : State} (hs : s.Canonical) {sp : Space} {bs : List Byte}
    (hb : bs.length ≤ sp.size s.params) : (s.stored sp bs).memRead sp 0 bs.length = some bs :=
  State.memRead_eq_some.2 ⟨(Nat.zero_add _).trans_le hb, (hs.readRange_stored sp bs).symm⟩

section

variable {s t : State}

theorem phaseEncoding_tableRow (hs : Sane s) (hp : s.phase = .encoding) (h : phaseEncoding s = .moved t) :
    tableRow s t := by
  obtain ⟨hnone, rfl⟩ | ⟨frame, hframe, rfl⟩ := phaseEncoding_moved h
  · simp only [tableRow, hp, State.raise_phase]
    exact ⟨hnone, rfl, rfl⟩
  · simp only [tableRow, hp, State.goto_phase]
    have hcanon : State.Canonical { s with chkOk := true } := hs.canonical
    have hsize : frame.length ≤ Space.size s.params .txbuf := by
      obtain ⟨hlen, hpay⟩ := encodeFrame_length hframe
      simp only [Space.size, Config.TXBUF_SIZE]
      omega
    exact ⟨frame, hframe, hcanon.memRead_stored hsize, rfl, rfl⟩

theorem phaseWait_tableRow (hs : Sane s) (hp : s.phase = .wait) (h : phaseWait s = .moved t) : tableRow s t := by
  obtain ⟨hphase, -, hhist⟩ := phaseWait_moved_frame h
  obtain ⟨t0, hmet, -⟩ := phaseWait_moved_spacing hs h
  simp only [tableRow, hp, hphase]
  exact ⟨⟨t0, hmet⟩, hhist⟩

theorem phaseTxEnable_tableRow (hp : s.phase = .txEnable) (h : phaseTxEnable s = .moved t) : tableRow s t := by
  obtain rfl := phaseTxEnable_moved h
  simp only [tableRow, hp, State.goto_phase]
  exact s.dirDrive_history _

theorem phaseTransmitting_tableRow (hp : s.phase = .transmitting) (h : phaseTransmitting s = .moved t) :
    tableRow s t := by
  obtain ⟨frame, n, used, rest, hread, hn, -, rfl⟩ := phaseTransmitting_moved h
  simp only [tableRow, hp, State.goto_phase]
  exact ⟨frame, hread, hn, rfl⟩

theorem phaseFlush_tableRow (hp : s.phase = .flush) (h : phaseFlush s = .moved t) : tableRow s t := by
  obtain ⟨used, rest, -, hempty, rfl⟩ := phaseFlush_moved h
  simp only [tableRow, hp, State.goto_phase]
  exact ⟨hempty, rfl⟩

theorem phaseDirectionSwitch_tableRow (hp : s.phase = .directionSwitch) (h : phaseDirectionSwitch s = .moved t) :
    tableRow s t := by
  obtain ⟨hshort, rfl⟩ | ⟨hwhole, rfl⟩ := phaseDirectionSwitch_moved h
  · simp only [tableRow, hp, State.raise_phase]
    exact ⟨hshort, by simp, s.dirDrive_history _⟩
  · simp only [tableRow, hp, State.goto_phase]
    exact ⟨hwhole, s.dirDrive_history _⟩

theorem phaseReceivingHeader_tableRow (hp : s.phase = .receivingHeader) (h : phaseReceivingHeader s = .moved t) :
    tableRow s t := by
  obtain ⟨bs, used, rest, rxq, -, ⟨hshort, rfl⟩ | ⟨start, echo, code, len, rfl, rfl⟩⟩ := phaseReceivingHeader_moved h
  · simp only [tableRow, hp, State.raise_phase]
    exact .inl ⟨rfl, bs, hshort, rfl⟩
  · obtain ⟨hzero, he⟩ | ⟨hover, he⟩ | ⟨hpos, hfits, he⟩ := State.afterHeader_eq
      (((s.taken used rest rxq [start, echo, code, len]).stored .rxhdr [start, echo, code, len]).latchHeader
        echo code len) len <;> rw [he]
    · simp only [tableRow, hp, State.goto_phase]
      exact ⟨start, hzero, rfl⟩
    · simp only [tableRow, hp, State.raise_phase]
      exact .inr ⟨rfl, hover, start, rfl⟩
    · simp only [tableRow, hp, State.goto_phase]
      exact ⟨start, hpos, hfits, rfl⟩

theorem phaseReceivingPayload_tableRow (hs : Sane s) (hp : s.phase = .receivingPayload)
    (h : phaseReceivingPayload s = .moved t) : tableRow s t := by
  obtain ⟨bs, used, rest, rxq, -, hsize, ⟨hshort, rfl⟩ | ⟨hlen, rfl⟩⟩ := phaseReceivingPayload_moved h
  · simp only [tableRow, hp, State.raise_phase]
    exact ⟨rfl, bs, hshort, rfl⟩
  · simp only [tableRow, hp, State.goto_phase]
    have hcanon : (s.taken used rest rxq bs).Canonical := hs.canonical
    exact ⟨bs, hlen, rfl, hcanon.memRead_stored (sp := .rxbuf) hsize⟩

theorem phaseReceivingTrailer_tableRow (hs : Sane s) (hp : s.phase = .receivingTrailer)
    (h : phaseReceivingTrailer s = .moved t) : tableRow s t := by
  obtain ⟨bs, used, rest, rxq, -, ⟨hshort, rfl⟩ | ⟨hlen, rfl⟩⟩ := phaseReceivingTrailer_moved h
  · simp only [tableRow, hp, State.raise_phase]
    exact ⟨rfl, bs, hshort, rfl⟩
  · simp only [tableRow, hp, State.goto_phase]
    have hcanon : (s.taken used rest rxq bs).Canonical := hs.canonical
    have hread := hcanon.memRead_stored (sp := .rxtrl) (bs := bs) hlen.le
    rw [hlen] at hread
    exact ⟨bs, hlen, rfl, hread⟩

theorem phaseValidating_tableRow (hp : s.phase = .validating) (h : phaseValidating s = .moved t) : tableRow s t := by
  obtain ⟨bytes, hbytes, rfl⟩ := phaseValidating_moved h
  simp only [tableRow, hp, State.raise_phase]
  exact ⟨rfl, bytes, hbytes, rfl⟩

/-- HWID[0..HWID_LEN) of a decode is the payload, if it fits (R200). -/
theorem decodeHardware_take {p : Config.Params} {payload : List Byte} (h : payload.length ≤ p.capHardware)
    (draws : Nat) : (decodeHardware p payload draws).take payload.length = payload := by
  apply List.ext_getElem
  · simpa [decodeHardware] using h
  · intro i hi hi'
    simp [decodeHardware, hi']

/-- What a delivery returns and writes (R190): for GET_HARDWARE when the payload fits CAP_HARDWARE. -/
theorem State.deliver_outcome {s : State} {payload : List Byte}
    (h : s.seq.pending = .getHardware → payload.length ≤ s.params.capHardware) :
    (s.deliver payload).host.result = doneResult s s.seq.pending s.res.code payload ∧
      (s.deliver payload).records = recordsAfter s s.seq.pending payload := by
  unfold State.deliver
  cases hc : s.seq.pending with
  | getHardware =>
    refine ⟨?_, rfl⟩
    have htake := decodeHardware_take (h hc) s.draws
    simp only [State.deliverHardware, State.answer_host, doneResult, htake]
  | execute | getStatus | getCells | setMosfet => exact ⟨rfl, rfl⟩

theorem doneResult_stampAndReturn (s : State) (c : Command) (code : Byte) (payload : List Byte) :
    doneResult s.stampAndReturn c code payload = doneResult s c code payload := by
  cases c <;> simp only [doneResult, State.stampAndReturn_params, State.stampAndReturn_draws]

theorem recordsAfter_stampAndReturn (s : State) (c : Command) (payload : List Byte) :
    recordsAfter s.stampAndReturn c payload = recordsAfter s c payload := by
  cases c <;> simp only [recordsAfter, State.stampAndReturn_params, State.stampAndReturn_draws,
    State.stampAndReturn_records]

/-- A payload of GET_HARDWARE that comes to STAMP with OK fits CAP_HARDWARE (R169, R199). -/
theorem hardwareFits_of_sane (hs : Sane s) (hp : s.phase = .stamp) (he : s.res.err = .ok)
    (hc : s.seq.pending = .getHardware) : s.res.len.toNat ≤ s.params.capHardware := by
  rw [← hs.hardwareCap (by simp [hp]) hc]
  exact hs.lengthFits (.inr (.inr ⟨hp, he⟩))

theorem phaseStamp_tableRow (hs : Sane s) (hp : s.phase = .stamp) (h : phaseStamp s = .moved t) : tableRow s t := by
  obtain ⟨herr, rfl⟩ | ⟨hok, -, rfl⟩ := phaseStamp_moved h
  · simp only [tableRow, hp, State.answer_phase, State.stampAndReturn_phase, if_neg herr]
    exact ⟨by simp, rfl, by simp, rfl, by simp⟩
  · have hd := s.stampAndReturn.deliver_same (s.buf.rxbuf.readRange 0 s.res.len.toNat)
    obtain ⟨hresult, hrecords⟩ := State.deliver_outcome (s := s.stampAndReturn)
      (payload := s.buf.rxbuf.readRange 0 s.res.len.toNat)
      fun hc => by simpa using hardwareFits_of_sane hs hp hok (by simpa using hc)
    rw [doneResult_stampAndReturn] at hresult
    rw [recordsAfter_stampAndReturn] at hrecords
    simp only [tableRow, hp, hd.phase, State.stampAndReturn_phase, if_pos hok]
    exact ⟨by simp [hd.history, hd.lastDone], by simp [hd.lastDone, hd.line], by simp [hd.res],
      by simpa using hresult, by simpa using hrecords⟩

end

/-- Settles O25: each phase's transition is a row of its own, and every transition keeps the frame. -/
theorem transitionsFollowTheTable : Obligations.TransitionsFollowTheTable := by
  intro s t hs h
  have hframe := advance_moved_frame h
  refine ⟨?_, hframe.op, hframe.cfg, hframe.params⟩
  cases hp : s.phase <;> simp only [advance, hp] at h
  case idle => cases h
  case encoding => exact phaseEncoding_tableRow hs hp h
  case wait => exact phaseWait_tableRow hs hp h
  case txEnable => exact phaseTxEnable_tableRow hp h
  case transmitting => exact phaseTransmitting_tableRow hp h
  case flush => exact phaseFlush_tableRow hp h
  case directionSwitch => exact phaseDirectionSwitch_tableRow hp h
  case receivingHeader => exact phaseReceivingHeader_tableRow hp h
  case receivingPayload => exact phaseReceivingPayload_tableRow hs hp h
  case receivingTrailer => exact phaseReceivingTrailer_tableRow hs hp h
  case validating => exact phaseValidating_tableRow hp h
  case stamp => exact phaseStamp_tableRow hs hp h

end Sys2Proof.Machine

/-! ## The fault accessors (44_commands.md R203 to R216; O59, O60) -/

namespace Sys2Proof.Machine

open Sys2Proof.Safety

/-- In a ready block an accessor returns its bit of the mask, read as a number, and changes nothing else (R203). -/
theorem testFault_of_ready {s : State} (hs : Ready s) (f : Word) (bit : Nat) :
    testFault f bit s = .next (returning s (.flag (decide (f.toNat / 2 ^ bit % 2 = 1)))) := by
  rw [testFault, whenReady_of_ready hs, BitVec.getLsbD, Nat.testBit_eq_decide_div_mod_eq]
  rfl

/-- Settles O59: each of the seven tests the bit that FAULT_BIT gives it. -/
theorem faultAccessorsReadBits0To6 : Obligations.FaultAccessorsReadBits0To6 := by
  intro s f hs
  refine ⟨?_, ?_, ?_, ?_, ?_, ?_, ?_⟩ <;> exact ⟨testFault_of_ready hs f _, rfl, rfl⟩

/-- Settles O60: so does each of the other six. -/
theorem faultAccessorsReadBits7To12 : Obligations.FaultAccessorsReadBits7To12 := by
  intro s f hs
  refine ⟨?_, ?_, ?_, ?_, ?_, ?_⟩ <;> exact ⟨testFault_of_ready hs f _, rfl, rfl⟩

end Sys2Proof.Machine

/-! ## The decoded records (44_commands.md R192 to R197; O56, O57) -/

namespace Sys2Proof.Machine

open Sys2Proof.Safety

/-- A payload from a position on that has two bytes. -/
theorem drop_eq_getD_cons_cons {payload : List Byte} {k : Nat} (h : k + 1 < payload.length) :
    payload.drop k = payload.getD k 0 :: payload.getD (k + 1) 0 :: payload.drop (k + 2) := by
  rw [List.drop_eq_getElem_cons (Nat.lt_of_succ_lt h), List.drop_eq_getElem_cons h,
    List.getD_eq_getElem _ _ (Nat.lt_of_succ_lt h), List.getD_eq_getElem _ _ h]

/-- A slot whose two bytes are in the payload is written (R197). -/
theorem decodeCells_getElem? {payload : List Byte} {i : Nat} (hslot : i < Config.CELLS_MAX)
    (hbytes : 2 * i + 1 < payload.length) (draws : Nat) :
    (decodeCells payload draws)[i]? = some (be16 (payload.getD (2 * i) 0) (payload.getD (2 * i + 1) 0)) := by
  simp only [decodeCells, List.getElem?_map, List.getElem?_range hslot, Option.map_some,
    drop_eq_getD_cons_cons hbytes]

/-- Settles O57: both bytes of a slot below half the payload's length are in the payload. -/
theorem cellsAreBigEndianWords : Obligations.CellsAreBigEndianWords := by
  refine fun payload draws => ⟨decodeCells_length payload draws, fun i hi => ?_⟩
  exact decodeCells_getElem? (show i < 32 by omega) (by omega) draws

/-- A temperature slot that R195 counts as valid is written (R194). -/
theorem statusTemps_getElem? {p : Config.Params} {payload : List Byte} {n i : Nat}
    (h : i < ntcValid p payload.length n) (draws : Nat) :
    (statusTemps p payload n draws)[i]? = some (tempWord p payload i (Config.freeWord (draws + i))) := by
  have hslot : i < p.ntcMax := by
    rw [ntcValid] at h
    omega
  simp only [statusTemps, List.getElem?_map, List.getElem?_range hslot, Option.map_some, if_pos h]

/-- Settles O56: with R193's layout a register is a field of two bytes or one at its offset, and a temperature slot
that is counted has both its bytes in the payload. -/
theorem statusFieldsComeFromTheirOffsets : Obligations.StatusFieldsComeFromTheirOffsets := by
  intro p payload draws hlayout
  simp only [decodeStatus, hlayout, Config.defaultStatusLayout]
  refine ⟨statusWord_two _ _ _, statusWord_two _ _ _, statusWord_two _ _ _, statusWord_two _ _ _, statusWord_two _ _ _,
    statusWord_two _ _ _, statusWord_two _ _ _, statusWord_two _ _ _, statusWord_two _ _ _, statusByte_one _ _ _,
    statusByte_one _ _ _, statusByte_one _ _ _, statusByte_one _ _ _, statusByte_one _ _ _, by simp, fun i hi => ?_⟩
  have htemps : p.statusLayout.temps = ⟨23, 2⟩ := by rw [hlayout]; rfl
  rw [statusTemps_getElem? (hi.trans_eq (by rw [ntcValid, htemps])), tempWord_two htemps _ _ _ (by omega)]
  simp only [Nat.add_right_comm 23]

end Sys2Proof.Machine

/-! ## The four commands with a valid response (44_commands.md R190 to R202; O32 to O35) -/

namespace Sys2Proof.Machine

open Sys2Proof.Safety

/-- The commands with a record decoder of their own (R191, R196, R199). -/
def Command.hasRecord : Command → Bool
  | .execute => false
  | .getStatus => true
  | .getCells => true
  | .getHardware => true
  | .setMosfet => false

/-- What a delivery writes (R190): the decode of the payload to the command's own record registers. A command without a
record draws no free value. -/
theorem State.deliver_records (s : State) (payload : List Byte) :
    (s.deliver payload).records = recordsAfter s s.seq.pending payload ∧
      (s.seq.pending.hasRecord = false → (s.deliver payload).draws = s.draws) := by
  unfold State.deliver
  cases s.seq.pending with
  | execute | setMosfet => exact ⟨rfl, fun _ => rfl⟩
  | getStatus | getCells | getHardware => exact ⟨rfl, nofun⟩

/-- What a command returns depends on the parameters and the counter of free values. -/
theorem doneResult_of_same {s u : State} (hp : u.params = s.params) (hd : u.draws = s.draws) (c : Command)
    (code : Byte) (payload : List Byte) : doneResult u c code payload = doneResult s c code payload := by
  cases c <;> simp only [doneResult, hp, hd]

/-- What it writes depends on the record registers too. -/
theorem recordsAfter_of_same {s u : State} (hp : u.params = s.params) (hr : u.records = s.records)
    (hd : u.draws = s.draws) (c : Command) (payload : List Byte) :
    recordsAfter u c payload = recordsAfter s c payload := by
  cases c <;> simp only [recordsAfter, hp, hr, hd]

/-- A served command with a valid response completes with its own record and value: on return code 0 both are decoded
from the payload, on any other nothing is decoded (R190). -/
theorem exec_command_delivers {i : Instr} {s : State} {q : Issue} {echo code : Byte} {payload : List Byte}
    {accepted : Nat} {m₀ m₁ m₂ : EnvMove} {later : List EnvMove} (hq : commandIssue s i = some q) (hready : Ready s)
    (hc : s.Canonical) (hparams : s.params.wf) (hreq : q.payload.length ≤ 30) (hpay : payload.length ≤ q.cap)
    (hlen : payload.length ≤ 30) (haccepted : 7 + q.payload.length ≤ accepted)
    (hs : Serves s (7 + q.payload.length) accepted (responseFrame echo code payload) m₀ m₁ m₂ later) :
    ∃ t, exec i s = .next t ∧
      Answered s t q.dir q.cmd q.payload q.cap echo code payload (if code = 0 then .ok else .deviceError) ∧
      t.records = (if code = 0 then recordsAfter s q.command payload else s.records) ∧
      (q.command.hasRecord = false → t.draws = s.draws) ∧
      t.host.result = if code = 0 then doneResult s q.command code payload else .failed .deviceError := by
  obtain ⟨-, hhardware, hbounds⟩ := commandIssue_bounds hq
  obtain ⟨u, hrun, hanswered, hrecords, hdraws, hpending⟩ :=
    exec_command_completes hq hready hc (hbounds hparams).2 hreq hpay hlen haccepted hs
  by_cases hcode : code = 0
  · simp only [if_pos hcode] at hrun hanswered ⊢
    obtain ⟨hwritten, hdrawn⟩ := u.deliver_records payload
    have hfits : u.seq.pending = .getHardware → payload.length ≤ u.params.capHardware := by
      intro hcommand
      rw [hanswered.params, ← hhardware (hpending ▸ hcommand)]
      exact hpay
    have hresult := (State.deliver_outcome hfits).1
    rw [hpending, recordsAfter_of_same hanswered.params hrecords hdraws] at hwritten
    rw [hpending, hanswered.results, doneResult_of_same hanswered.params hdraws] at hresult
    rw [hpending] at hdrawn
    exact ⟨_, hrun, answered_of_same hanswered (u.deliver_same payload), hwritten,
      fun hnone => (hdrawn hnone).trans hdraws, hresult⟩
  · simp only [if_neg hcode] at hrun hanswered ⊢
    exact ⟨_, hrun, answered_of_same hanswered (u.answer_same _), hrecords, fun _ => hdraws, rfl⟩

/-- Settles O32: GET_STATUS's record is the Status registers. -/
theorem getStatusCompletes : Obligations.GetStatusCompletes := by
  intro s echo code payload accepted m₀ m₁ m₂ later hready hc hparams hpay hlen haccepted hs
  obtain ⟨t, hrun, hanswered, hrecords, -, hresult⟩ :=
    exec_command_delivers (i := .getStatus) rfl hready hc hparams (Nat.zero_le _) hpay hlen haccepted hs
  exact ⟨t, hrun, hanswered, hrecords, hresult⟩

/-- Settles O33: GET_CELLS's record is the cell registers. -/
theorem getCellsCompletes : Obligations.GetCellsCompletes := by
  intro s echo code payload accepted m₀ m₁ m₂ later hready hc hparams hpay hlen haccepted hs
  obtain ⟨t, hrun, hanswered, hrecords, -, hresult⟩ :=
    exec_command_delivers (i := .getCells) rfl hready hc hparams (Nat.zero_le _) hpay hlen haccepted hs
  exact ⟨t, hrun, hanswered, hrecords, hresult⟩

/-- Settles O34: GET_HARDWARE's record is the id, which begins with the payload since that fits CAP_HARDWARE. -/
theorem getHardwareCompletes : Obligations.GetHardwareCompletes := by
  intro s echo code payload accepted m₀ m₁ m₂ later hready hc hparams hpay hlen haccepted hs
  obtain ⟨t, hrun, hanswered, hrecords, -, hresult⟩ :=
    exec_command_delivers (i := .getHardware) rfl hready hc hparams (Nat.zero_le _) hpay hlen haccepted hs
  refine ⟨t, hrun, hanswered, ?_⟩
  by_cases hcode : code = 0
  · rw [if_pos hcode] at hrecords
    rw [hrecords]
    exact ⟨rfl, rfl, fun hne => absurd hcode hne,
      fun _ => ⟨rfl, decodeHardware_take hpay s.draws, decodeHardware_length s.params payload s.draws⟩, hresult⟩
  · rw [if_neg hcode] at hrecords
    rw [hrecords]
    exact ⟨rfl, rfl, fun _ => rfl, fun he => absurd he hcode, hresult⟩

/-- Settles O35: SET_MOSFET has no record, and its capacity is 0, which an empty payload fits. -/
theorem setMosfetCompletes : Obligations.SetMosfetCompletes := by
  intro s mask echo code accepted m₀ m₁ m₂ later hready hc hparams haccepted hs
  obtain ⟨t, hrun, hanswered, hrecords, hdraws, hresult⟩ :=
    exec_command_delivers (i := .setMosfet mask) rfl hready hc hparams (by simp) (Nat.zero_le _) (Nat.zero_le _)
      haccepted hs
  obtain ⟨-, -, -, -, hcap, -⟩ := hparams
  rw [hcap] at hanswered
  have hkept : (if code = 0 then recordsAfter s .setMosfet [] else s.records) = s.records := ite_self _
  exact ⟨t, hrun, hanswered, hrecords.trans hkept, hdraws rfl, hresult⟩

end Sys2Proof.Machine

/-! ## The registers a command leaves alone (44_commands.md R190; 43_transport.md R169; 60_exceptions.md R237; O51)

One lemma says what a transition writes to the line, the result registers and the record registers; what a command has
left of them when it has come to a state follows transition by transition. -/

namespace Sys2Proof.Machine

open Sys2Proof.Safety

/-- The reasons that end a command before its header is in (R163, R168, R169). -/
abbrev ErrorReason.BeforeHeader (r : ErrorReason) : Prop :=
  r = .encPayloadTooLong ∨ r = .ioShortWrite ∨ r = .ioShortReadHeader

/-- The parser has a whole header in hand: none of its reasons is one of them (R142). -/
theorem parseResponse_not_beforeHeader (bytes : List Byte) :
    ¬ (parseResponse bytes).result.reason.BeforeHeader := by
  rw [parseResponse_eq_decodeByIndex]
  simp only [decodeByIndex]
  repeat' split
  all_goals simp [DecodeResult.reason]

/-- What a transition does to the result registers (R169, R236). -/
inductive ResultStep (s t : State) : Prop
  /-- nothing, on the way and in STAMP -/
  | kept (results : t.res = s.res) (running : 2 ≤ t.phase.remaining ∨ s.phase = .stamp)
  /-- a full header is latched and the response is read on -/
  | latched (reading : s.phase = .receivingHeader) (running : 2 ≤ t.phase.remaining) (reason : t.res.err = s.res.err)
  /-- an error or the parser's verdict is taken -/
  | raised (ending : t.phase = .stamp) (results : t.res = { s.res with err := t.res.err })
      (early : t.res.err.BeforeHeader → 5 ≤ s.phase.remaining)
  /-- a full header is latched and declares more than the capacity -/
  | oversize (reading : s.phase = .receivingHeader) (ending : t.phase = .stamp) (reason : t.res.err = .ioBufferTooSmall)

/-- What a transition does to the record registers: STAMP delivers the record of a command that ended OK (R190), and
nothing else writes them. -/
inductive RecordStep (s t : State) : Prop
  | kept (records : t.records = s.records) (draws : t.draws = s.draws)
  | delivered (payload : List Byte) (ended : t.phase = .idle) (ok : t.res.err = .ok)
      (records : t.records = recordsAfter s s.seq.pending payload)
      (draws : s.seq.pending.hasRecord = false → t.draws = s.draws)

/-- Short of an outcome OK in IDLE nothing has been delivered (R237). -/
theorem RecordStep.unwritten {s t : State} (h : RecordStep s t) (ht : t.phase ≠ .idle ∨ t.res.err ≠ .ok) :
    t.records = s.records ∧ t.draws = s.draws := by
  cases h with
  | kept records draws => exact ⟨records, draws⟩
  | delivered payload ended ok => exact absurd ht (by simp [ended, ok])

/-- What a transition writes to the line, the result registers and the record registers. -/
structure RegisterStep (s t : State) : Prop where
  dirLevel : s.cfg.dirPresent = false → t.dirLevel = s.dirLevel
  results : ResultStep s t
  records : RecordStep s t

/-- The line is not driven without a direction line (R55). -/
theorem State.dirDrive_dirLevel_of_absent {s : State} (h : s.cfg.dirPresent = false) (level : Bool) :
    (s.dirDrive level).dirLevel = s.dirLevel := by
  simp [h]

/-- RECEIVING_HEADER: a short header is an error before it, a full one is latched (R169). -/
theorem phaseReceivingHeader_registerStep {s t : State} (hp : s.phase = .receivingHeader)
    (h : phaseReceivingHeader s = .moved t) : RegisterStep s t := by
  obtain ⟨bs, used, rest, rxq, -, ⟨-, rfl⟩ | ⟨start, echo, code, len, -, rfl⟩⟩ := phaseReceivingHeader_moved h
  · exact ⟨fun _ => rfl, .raised rfl rfl fun _ => by simp [hp, Phase.remaining], .kept rfl rfl⟩
  · obtain ⟨-, he⟩ | ⟨-, he⟩ | ⟨-, -, he⟩ := State.afterHeader_eq
      (((s.taken used rest rxq bs).stored .rxhdr bs).latchHeader echo code len) len <;> rw [he]
    · exact ⟨fun _ => rfl, .latched hp (by simp [Phase.remaining]) rfl, .kept rfl rfl⟩
    · exact ⟨fun _ => rfl, .oversize hp rfl rfl, .kept rfl rfl⟩
    · exact ⟨fun _ => rfl, .latched hp (by simp [Phase.remaining]) rfl, .kept rfl rfl⟩

/-- STAMP: the reason stays, and on OK the record is delivered (R174, R190). -/
theorem phaseStamp_registerStep {s t : State} (hp : s.phase = .stamp) (h : phaseStamp s = .moved t) :
    RegisterStep s t := by
  obtain ⟨-, rfl⟩ | ⟨hok, -, rfl⟩ := phaseStamp_moved h
  · exact ⟨fun _ => by simp, .kept (by simp) (.inr hp), .kept (by simp) (by simp)⟩
  · have hd := s.stampAndReturn.deliver_same (s.buf.rxbuf.readRange 0 s.res.len.toNat)
    obtain ⟨hrecords, hdraws⟩ := s.stampAndReturn.deliver_records (s.buf.rxbuf.readRange 0 s.res.len.toNat)
    rw [recordsAfter_stampAndReturn, State.stampAndReturn_seq] at hrecords
    rw [State.stampAndReturn_seq, State.stampAndReturn_draws] at hdraws
    exact ⟨fun _ => by simp [hd.dirLevel], .kept (by simp [hd.res]) (.inr hp),
      .delivered _ (by simp [hd.phase]) (by simp [hd.res, hok]) hrecords hdraws⟩

/-- Every transition is such a step. -/
theorem advance_moved_registerStep {s t : State} (h : advance s = .moved t) : RegisterStep s t := by
  cases hp : s.phase <;> simp only [advance, hp] at h
  case idle => cases h
  case encoding =>
    obtain ⟨-, rfl⟩ | ⟨frame, -, rfl⟩ := phaseEncoding_moved h
    · exact ⟨fun _ => rfl, .raised rfl rfl fun _ => by simp [hp, Phase.remaining], .kept rfl rfl⟩
    · exact ⟨fun _ => rfl, .kept rfl (.inl (by simp [Phase.remaining])), .kept rfl rfl⟩
  case wait =>
    obtain ⟨used, rest, -, ⟨-, -, -, rfl⟩ | ⟨t0, -, -, rfl⟩⟩ := phaseWait_moved h <;>
      exact ⟨fun _ => rfl, .kept rfl (.inl (by simp [Phase.remaining])), .kept rfl rfl⟩
  case txEnable =>
    obtain rfl := phaseTxEnable_moved h
    exact ⟨fun habsent => State.dirDrive_dirLevel_of_absent habsent _,
      .kept (by simp) (.inl (by simp [Phase.remaining])), .kept (by simp) (by simp)⟩
  case transmitting =>
    obtain ⟨frame, n, used, rest, -, -, -, rfl⟩ := phaseTransmitting_moved h
    exact ⟨fun _ => rfl, .kept rfl (.inl (by simp [Phase.remaining])), .kept rfl rfl⟩
  case flush =>
    obtain ⟨used, rest, -, -, rfl⟩ := phaseFlush_moved h
    exact ⟨fun _ => rfl, .kept rfl (.inl (by simp [Phase.remaining])), .kept rfl rfl⟩
  case directionSwitch =>
    obtain ⟨-, rfl⟩ | ⟨-, rfl⟩ := phaseDirectionSwitch_moved h
    · exact ⟨fun habsent => State.dirDrive_dirLevel_of_absent habsent _,
        .raised rfl (by simp) fun _ => by simp [hp, Phase.remaining], .kept (by simp) (by simp)⟩
    · exact ⟨fun habsent => State.dirDrive_dirLevel_of_absent habsent _,
        .kept (by simp) (.inl (by simp [Phase.remaining])), .kept (by simp) (by simp)⟩
  case receivingHeader => exact phaseReceivingHeader_registerStep hp h
  case receivingPayload =>
    obtain ⟨bs, used, rest, rxq, -, -, ⟨-, rfl⟩ | ⟨-, rfl⟩⟩ := phaseReceivingPayload_moved h
    · exact ⟨fun _ => rfl, .raised rfl rfl fun hearly => absurd hearly (by simp), .kept rfl rfl⟩
    · exact ⟨fun _ => rfl, .kept rfl (.inl (by simp [Phase.remaining])), .kept rfl rfl⟩
  case receivingTrailer =>
    obtain ⟨bs, used, rest, rxq, -, ⟨-, rfl⟩ | ⟨-, rfl⟩⟩ := phaseReceivingTrailer_moved h
    · exact ⟨fun _ => rfl, .raised rfl rfl fun hearly => absurd hearly (by simp), .kept rfl rfl⟩
    · exact ⟨fun _ => rfl, .kept rfl (.inl (by simp [Phase.remaining])), .kept rfl rfl⟩
  case validating =>
    obtain ⟨bytes, -, rfl⟩ := phaseValidating_moved h
    exact ⟨fun _ => rfl, .raised rfl rfl fun hearly => absurd hearly (parseResponse_not_beforeHeader bytes),
      .kept rfl rfl⟩
  case stamp => exact phaseStamp_registerStep hp h

/-- What a command issued in `o` has left of its registers when it has come to `u`: the line without a direction line,
the result registers up to the header and R_ERR up to STAMP, after an error before the header all but R_ERR, and the
record registers up to a delivery in IDLE. -/
structure RegistersKept (o u : State) : Prop where
  frame : Frame o u
  dirLevel : o.cfg.dirPresent = false → u.dirLevel = o.dirLevel
  unread : 5 ≤ u.phase.remaining → u.res = o.res
  unjudged : 2 ≤ u.phase.remaining → u.res.err = o.res.err
  early : u.phase.remaining ≤ 1 → u.res.err.BeforeHeader → u.res = { o.res with err := u.res.err }
  records : RecordStep o u

/-- The issue of a command writes none of them. -/
theorem RegistersKept.rfl' {o : State} (h : 2 ≤ o.phase.remaining) : RegistersKept o o :=
  ⟨.rfl' o, fun _ => rfl, fun _ => rfl, fun _ => rfl, fun hend => absurd hend (by omega), .kept rfl rfl⟩

section

variable {o s t : State}

/-- Up to the header no transition writes the result registers. -/
theorem RegistersKept.unread_of_moved (hs : RegistersKept o s) (h : advance s = .moved t)
    (hrem : 5 ≤ t.phase.remaining) : t.res = o.res := by
  have hlt := advance_moved_remaining h
  cases (advance_moved_registerStep h).results with
  | kept results => rw [results, hs.unread (by omega)]
  | latched reading | oversize reading =>
    rw [reading] at hlt
    exact absurd hlt (Nat.not_lt.2 hrem)
  | raised ending =>
    rw [ending] at hrem
    exact absurd hrem (by decide)

/-- Up to STAMP none writes R_ERR. -/
theorem RegistersKept.unjudged_of_moved (hs : RegistersKept o s) (h : advance s = .moved t)
    (hrem : 2 ≤ t.phase.remaining) : t.res.err = o.res.err := by
  have hlt := advance_moved_remaining h
  cases (advance_moved_registerStep h).results with
  | kept results => rw [results, hs.unjudged (by omega)]
  | latched _ _ reason => rw [reason, hs.unjudged (by omega)]
  | raised ending | oversize _ ending =>
    rw [ending] at hrem
    exact absurd hrem (by decide)

/-- An error before the header finds the result registers as they were at issue, and STAMP leaves them so. -/
theorem RegistersKept.early_of_moved (hs : RegistersKept o s) (h : advance s = .moved t)
    (hrem : t.phase.remaining ≤ 1) (hearly : t.res.err.BeforeHeader) : t.res = { o.res with err := t.res.err } := by
  cases (advance_moved_registerStep h).results with
  | kept results running =>
    obtain hrun | hp := running
    · exact absurd hrem (by omega)
    · rw [results] at hearly ⊢
      exact hs.early (by simp [hp, Phase.remaining]) hearly
  | latched _ running => exact absurd hrem (by omega)
  | raised _ results early => rw [results, hs.unread (early hearly)]
  | oversize _ _ reason =>
    rw [reason] at hearly
    exact absurd hearly (by decide)

/-- A transition from a phase other than IDLE finds the record registers as they were at issue. -/
theorem RegistersKept.records_of_moved (hs : RegistersKept o s) (hbusy : s.phase ≠ .idle)
    (h : advance s = .moved t) : RecordStep o t := by
  obtain ⟨hrecords, hdraws⟩ := hs.records.unwritten (.inl hbusy)
  cases (advance_moved_registerStep h).records with
  | kept records draws => exact .kept (records.trans hrecords) (draws.trans hdraws)
  | delivered payload ended ok records draws =>
    rw [hs.frame.pending] at records draws
    exact .delivered payload ended ok (records.trans (recordsAfter_of_same hs.frame.params hrecords hdraws _ _))
      fun hnone => (draws hnone).trans hdraws

theorem RegistersKept.of_moved (hs : RegistersKept o s) (hbusy : s.phase ≠ .idle) (h : advance s = .moved t) :
    RegistersKept o t where
  frame := hs.frame.trans (advance_moved_frame h)
  dirLevel habsent :=
    ((advance_moved_registerStep h).dirLevel (hs.frame.cfg ▸ habsent)).trans (hs.dirLevel habsent)
  unread := hs.unread_of_moved h
  unjudged := hs.unjudged_of_moved h
  early := hs.early_of_moved h
  records := hs.records_of_moved hbusy h

/-- A hold writes none of them. -/
theorem RegistersKept.of_held (hs : RegistersKept o s) (hbusy : s.phase ≠ .idle) (h : advance s = .held t) :
    RegistersKept o t := by
  have hframe := hs.frame.trans (advance_held_frame h)
  obtain ⟨hrecords, hdraws⟩ := hs.records.unwritten (.inl hbusy)
  obtain ⟨-, rfl⟩ | ⟨-, t0, rfl⟩ | ⟨-, -, -, rfl⟩ := advance_held h <;>
    exact ⟨hframe, hs.dirLevel, hs.unread, hs.unjudged, hs.early, .kept hrecords hdraws⟩

end

/-- A command leaves its registers so, whatever its outcome. -/
theorem exec_command_registersKept {i : Instr} {s t : State} {q : Issue} (hq : commandIssue s i = some q)
    (h : exec i s = .next t) : RegistersKept (s.issue q.command q.dir q.cmd q.payload q.cap) t :=
  runPhases_keeps (P := RegistersKept _) (fun _ _ hu hbusy ha => hu.of_moved hbusy ha)
    (fun _ _ hu hbusy ha => hu.of_held hbusy ha) phaseCount (.rfl' (by simp [Phase.remaining])) (by simp)
    (exec_command_next hq h).2

/-- An operation that has not ended rests before STAMP (R179). -/
theorem exec_next_remaining {i : Instr} {s t : State} (h : exec i s = .next t) (hbusy : t.phase ≠ .idle) :
    2 ≤ t.phase.remaining := by
  obtain hidle | ⟨u, -, hheld⟩ := exec_ends h
  · exact absurd hidle hbusy
  · have hrest := advance_held_resting hheld
    cases hp : t.phase with
    | idle => exact absurd hp hbusy
    | stamp => rw [hp] at hrest; cases hrest
    | _ => decide

/-- A command that is held has not been stamped (R28). -/
theorem exec_command_held_lastDone {i : Instr} {s t : State} {q : Issue} (hq : commandIssue s i = some q)
    (h : exec i s = .next t) (hbusy : t.phase ≠ .idle) : t.lastDone = s.lastDone := by
  obtain ⟨-, hlast | ⟨es, -, -, hidle⟩⟩ := runPhases_onlyStamped (by simp) (exec_command_next hq h).2
  · exact hlast
  · exact absurd hidle hbusy

/-- Settles O51: each register is one that `RegistersKept` or the frame of a command names; the record written on OK is
the command's own. -/
theorem commandRegisterFrame : Obligations.CommandRegisterFrame := by
  intro i s t q hq h
  have hkept := exec_command_registersKept hq h
  refine ⟨hkept.frame.params, hkept.frame.cfg, hkept.frame.requests, hkept.frame.op, exec_command_held_lastDone hq h,
    hkept.dirLevel, fun hidle => hkept.early (by simp [hidle, Phase.remaining]), fun hp => hkept.unread ?_,
    fun hbusy => hkept.unjudged (exec_next_remaining h hbusy), hkept.records.unwritten, ?_⟩
  · obtain hp | hp | hp | hp := hp <;> simp [hp, Phase.remaining]
  · cases hkept.records with
    | kept records draws =>
      cases q.command with
      | execute | setMosfet => exact ⟨records, draws⟩
      | getStatus | getCells | getHardware => simp only [records]; rfl
    | delivered payload _ _ records draws =>
      have hafter : t.records = recordsAfter s q.command payload := records
      have hdrawn : q.command.hasRecord = false → t.draws = s.draws := draws
      cases hc : q.command with
      | execute | setMosfet =>
        rw [hc] at hafter hdrawn
        exact ⟨hafter, hdrawn rfl⟩
      | getStatus | getCells | getHardware =>
        rw [hc] at hafter
        rw [hafter]
        rfl

end Sys2Proof.Machine

/-! ## What a whole response decides (43_transport.md R172, R173, R177; 60_exceptions.md R237; O36) -/

namespace Sys2Proof.Machine

open Sys2Proof.Safety

/-- VALIDATING writes the parser's reason and nothing else of the result registers (R172). -/
@[simp] theorem State.concluded_res (s : State) (parse : Parse) :
    (s.concluded parse).res = { s.res with err := parse.result.reason } := State.stampAndReturn_res _

@[simp] theorem State.concluded_chkOk (s : State) (parse : Parse) :
    (s.concluded parse).chkOk = parse.chk.getD s.chkOk := State.stampAndReturn_chkOk _

@[simp] theorem State.concluded_params (s : State) (parse : Parse) : (s.concluded parse).params = s.params :=
  State.stampAndReturn_params _

/-- The time stamped is the clock's (R174). -/
theorem State.concluded_lastDone (s : State) (parse : Parse) :
    (s.concluded parse).lastDone = (s.concluded parse).line.clock := rfl

/-- The stamp is the one event after the reads (R174). -/
theorem State.concluded_history (s : State) (parse : Parse) :
    (s.concluded parse).history = s.history ++ [.stamp (s.concluded parse).lastDone] :=
  State.stampAndReturn_history _

/-- The record and the value follow the parser's reason: on OK both are the command's own decode of the payload, on
any other nothing is written and the reason is returned (R173, R177, R190). -/
structure JudgedBy (s t : State) (parse : Parse) (payload : List Byte) : Prop where
  same : SameButRecords (s.concluded parse) t
  records : t.records = if parse.result.reason = .ok then recordsAfter s s.seq.pending payload else s.records
  result : t.host.result =
    if parse.result.reason = .ok then doneResult s s.seq.pending s.res.code payload else .failed parse.result.reason

/-- A judged command, for GET_HARDWARE one whose payload fits CAP_HARDWARE, is left so. -/
theorem State.judged_judgedBy {s : State} {payload : List Byte} (parse : Parse)
    (hfits : s.seq.pending = .getHardware → payload.length ≤ s.params.capHardware) :
    JudgedBy s (s.judged parse payload) parse payload := by
  unfold State.judged
  by_cases hok : parse.result.reason = .ok
  · rw [if_pos hok]
    obtain ⟨hresult, hrecords⟩ := State.deliver_outcome (s := s.concluded parse) (payload := payload)
      (by simpa using hfits)
    rw [recordsAfter_of_same (s.concluded_params parse) (s.concluded_records parse) (s.concluded_draws parse)]
      at hrecords
    rw [doneResult_of_same (s.concluded_params parse) (s.concluded_draws parse)] at hresult
    exact ⟨State.deliver_same _ payload, by simpa [hok] using hrecords, by simpa [hok] using hresult⟩
  · rw [if_neg hok]
    exact ⟨State.answer_same _ _, by simp [hok], by simp [hok]⟩

/-- Settles O36: a response read in full comes to VALIDATING as it arrived, and the parser, which agrees with R142 by
index, judges it; a payload of GET_HARDWARE within the capacity fits its registers. -/
theorem fullResponseDecidesTheReason : Obligations.FullResponseDecidesTheReason := by
  intro i s q start echo code len payload trailer accepted m₀ m₁ m₂ later hq hready hc hcap hreq hlen hpay htrailer
    haccepted hs verdict
  obtain ⟨line, script, more, hrun⟩ := exec_command_judged hq hready hc hcap hreq hlen hpay htrailer haccepted hs
  obtain ⟨-, hhardware, -⟩ := commandIssue_bounds hq
  have hjudged := State.judged_judgedBy (payload := payload)
    (s := (s.sent q (7 + q.payload.length) line script).received start echo code len payload trailer more)
    (parseResponse ([start, echo, code, len] ++ payload ++ trailer)) fun hcommand => hpay.trans_eq (hhardware hcommand)
  rw [parseResponse_eq_decodeByIndex] at hrun hjudged
  obtain ⟨hsame, hrecords, hresult⟩ := hjudged
  refine ⟨_, hrun, hsame.phase, hsame.res.trans (State.concluded_res _ _),
    hsame.chkOk.trans (State.concluded_chkOk _ _), ?_, ?_, hrecords, hresult⟩
  · rw [hsame.lastDone, hsame.line, State.concluded_lastDone]
  · rw [hsame.history, hsame.lastDone, State.concluded_history]
    rfl

end Sys2Proof.Machine

/-! ## What a pure operation leaves alone (60_exceptions.md R243; 10_state.md R20, R25; O53) -/

namespace Sys2Proof.Machine

open Sys2Proof.Safety

/-- A pure operation without a CHECKSUM inside returns its value and does nothing else. -/
theorem exec_unchecked_next {i : Instr} {s t : State} (hi : isPure i = true) (hc : usesChecksum i = false)
    (h : exec i s = .next t) : ∃ r, t = s.answer r := by
  cases i with
  | openDriver | execute | getStatus | getCells | getHardware | setMosfet => cases hi
  | checksum | encodeRequest | decodeResponse => cases hc
  | _ =>
    obtain ⟨-, ht⟩ := whenReady_next h
    cases ht
    exact ⟨_, rfl⟩

/-- Settles O53. -/
theorem pureOperationFrame : Obligations.PureOperationFrame := by
  intro i s t hi h
  constructor
  · obtain ⟨-, chk, draws, r, rfl⟩ := exec_pure_next hi h
    rfl
  · intro hc
    obtain ⟨r, rfl⟩ := exec_unchecked_next hi hc h
    exact ⟨rfl, rfl⟩

end Sys2Proof.Machine

/-! ## The block with nothing asked of it (60_exceptions.md R242; 70_reset_and_hazards.md R260; O47) -/

namespace Sys2Proof.Machine

/-- In IDLE with no request a step is one move of the environment. -/
theorem step_of_no_request {s : State} (hidle : s.phase = .idle) (hreq : s.host.requests = []) :
    step s = .next s.envMove := by
  simp only [step, if_pos hidle, hreq]

/-- With no move left the environment does nothing. -/
theorem State.envMove_of_nil {s : State} (h : s.script = []) : s.envMove = s := by
  simp only [State.envMove, h]

/-- Settles O47: the move is the queues' and the clock's (R35, R36). -/
theorem idleBlockOnlyQueues : Obligations.IdleBlockOnlyQueues := by
  intro s hidle hreq
  rw [step_of_no_request hidle hreq]
  refine ⟨fun hnil => by rw [State.envMove_of_nil hnil], fun m later hscript => ?_⟩
  exact congrArg Host.Outcome.next (State.now_of_cons hscript)

end Sys2Proof.Machine

/-! ## Every step keeps the invariant (10_state.md R22, R29, R31 to R33; 20_memory.md R50 to R52, R66;
70_reset_and_hazards.md R266, R267; O40)

A transition keeps each part of the invariant by a lemma of its own; a hold, OPEN and the issue of a command write few
enough fields to be said at once. -/

namespace Sys2Proof.Machine

open Sys2Proof.Safety

/-! The direction line, the transmit queue and t0. -/

/-- The level that a phase asks of a direction line (R29). -/
def Phase.lineLevel (params : Config.Params) (p : Phase) : Bool :=
  if transmitPhase p then params.dirTxLevel else !params.dirTxLevel

/-- A direction line is at the level that the phase asks for (R267). -/
def LineLevel (s : State) : Prop := s.cfg.dirPresent = true → s.dirLevel = s.phase.lineLevel s.params

theorem LineLevel.of_sane {s : State} (hs : Sane s) (hopened : s.cfg.opened = true) : LineLevel s := by
  intro hpresent
  unfold Phase.lineLevel
  cases hp : transmitPhase s.phase with
  | true => exact hs.lineDriven hpresent hp
  | false => exact hs.lineAtRest hopened hpresent hp

/-- The line driven to the level that the next phase asks for. -/
theorem LineLevel.of_dirDrive (s : State) (p : Phase) :
    LineLevel ((s.dirDrive (p.lineLevel s.params)).goto p) := by
  intro hpresent
  have hdriven : s.cfg.dirPresent = true := by simpa using hpresent
  simp [hdriven]

/-- The line left alone, between two phases that ask for the same level. -/
theorem LineLevel.of_same {s t : State} (hcfg : t.cfg = s.cfg) (hparams : t.params = s.params)
    (hlevel : t.dirLevel = s.dirLevel) (hphase : transmitPhase t.phase = transmitPhase s.phase) (h : LineLevel s) :
    LineLevel t := by
  unfold LineLevel Phase.lineLevel
  rw [hcfg, hparams, hlevel, hphase]
  exact h

/-- What a transition keeps: the line at the level of the phase, an empty transmitter outside FLUSH, and no t0 outside
WAIT. -/
structure LineStep (s t : State) : Prop where
  level : LineLevel s → LineLevel t
  drained : (s.phase ≠ .flush → s.line.txq = []) → t.phase ≠ .flush → t.line.txq = []
  unsampled : (s.phase ≠ .wait → s.seq.waitStart = none) → t.seq.waitStart = none

/-- A transition that drives nothing, sends nothing and samples no t0, from a phase other than WAIT and FLUSH. -/
theorem LineStep.of_same {s t : State} {used : List EnvMove} (hcfg : t.cfg = s.cfg) (hparams : t.params = s.params)
    (hlevel : t.dirLevel = s.dirLevel) (hseq : t.seq.waitStart = s.seq.waitStart)
    (htxq : t.line.txq = (s.line.after used).txq) (hphase : transmitPhase t.phase = transmitPhase s.phase)
    (hflush : s.phase ≠ .flush) (hwait : s.phase ≠ .wait) : LineStep s t where
  level := .of_same hcfg hparams hlevel hphase
  drained hq _ := htxq.trans (Line.after_txq_nil (hq hflush) used)
  unsampled hw := hseq.trans (hw hwait)

/-- A transition that only drives the line, to the level that the next phase asks for. -/
theorem LineStep.of_dirDrive {s : State} (p : Phase) (hflush : s.phase ≠ .flush) (hwait : s.phase ≠ .wait) :
    LineStep s ((s.dirDrive (p.lineLevel s.params)).goto p) :=
  ⟨fun _ => .of_dirDrive s p, fun hq _ => by simpa using hq hflush, fun hw => by simpa using hw hwait⟩

theorem advance_moved_lineStep {s t : State} (h : advance s = .moved t) : LineStep s t := by
  cases hp : s.phase <;> simp only [advance, hp] at h
  case idle => cases h
  case encoding =>
    obtain ⟨-, rfl⟩ | ⟨frame, -, rfl⟩ := phaseEncoding_moved h <;>
      exact .of_same (used := []) rfl rfl rfl rfl rfl (by rw [hp]; rfl) (by simp [hp]) (by simp [hp])
  case wait =>
    obtain ⟨used, rest, -, ⟨hnone, -, -, rfl⟩ | ⟨t0, -, -, rfl⟩⟩ := phaseWait_moved h
    · exact ⟨.of_same rfl rfl rfl (by rw [hp]; rfl), fun hq _ => Line.after_txq_nil (hq (by simp [hp])) used,
        fun _ => hnone⟩
    · exact ⟨.of_same rfl rfl rfl (by rw [hp]; rfl), fun hq _ => Line.after_txq_nil (hq (by simp [hp])) used,
        fun _ => rfl⟩
  case txEnable =>
    obtain rfl := phaseTxEnable_moved h
    exact .of_dirDrive .transmitting (by simp [hp]) (by simp [hp])
  case transmitting =>
    obtain ⟨frame, n, used, rest, -, -, -, rfl⟩ := phaseTransmitting_moved h
    exact ⟨.of_same rfl rfl rfl (by rw [hp]; rfl), fun _ hne => absurd rfl hne, fun hw => hw (by simp [hp])⟩
  case flush =>
    obtain ⟨used, rest, -, hempty, rfl⟩ := phaseFlush_moved h
    exact ⟨.of_same rfl rfl rfl (by rw [hp]; rfl), fun _ _ => hempty, fun hw => hw (by simp [hp])⟩
  case directionSwitch =>
    obtain ⟨-, rfl⟩ | ⟨-, rfl⟩ := phaseDirectionSwitch_moved h
    · obtain ⟨hlevel, hdrained, hunsampled⟩ :=
        LineStep.of_dirDrive (s := s) .stamp (by simp [hp]) (by simp [hp])
      exact ⟨hlevel, hdrained, hunsampled⟩
    · exact .of_dirDrive .receivingHeader (by simp [hp]) (by simp [hp])
  case receivingHeader =>
    obtain ⟨bs, used, rest, rxq, -, ⟨-, rfl⟩ | ⟨start, echo, code, len, -, rfl⟩⟩ := phaseReceivingHeader_moved h
    · exact .of_same (used := used) rfl rfl rfl rfl rfl (by rw [hp]; rfl) (by simp [hp]) (by simp [hp])
    · obtain ⟨-, he⟩ | ⟨-, he⟩ | ⟨-, -, he⟩ := State.afterHeader_eq
        (((s.taken used rest rxq bs).stored .rxhdr bs).latchHeader echo code len) len <;> rw [he] <;>
      exact .of_same (used := used) rfl rfl rfl rfl rfl (by rw [hp]; rfl) (by simp [hp]) (by simp [hp])
  case receivingPayload =>
    obtain ⟨bs, used, rest, rxq, -, -, ⟨-, rfl⟩ | ⟨-, rfl⟩⟩ := phaseReceivingPayload_moved h <;>
      exact .of_same (used := used) rfl rfl rfl rfl rfl (by rw [hp]; rfl) (by simp [hp]) (by simp [hp])
  case receivingTrailer =>
    obtain ⟨bs, used, rest, rxq, -, ⟨-, rfl⟩ | ⟨-, rfl⟩⟩ := phaseReceivingTrailer_moved h <;>
      exact .of_same (used := used) rfl rfl rfl rfl rfl (by rw [hp]; rfl) (by simp [hp]) (by simp [hp])
  case validating =>
    obtain ⟨bytes, -, rfl⟩ := phaseValidating_moved h
    exact .of_same (used := []) rfl rfl rfl rfl rfl (by rw [hp]; rfl) (by simp [hp]) (by simp [hp])
  case stamp =>
    have hline : s.now.line = s.line.after (s.script.take 1) := by rw [s.now_eq]
    obtain ⟨-, rfl⟩ | ⟨-, -, rfl⟩ := phaseStamp_moved h
    · exact .of_same (used := s.script.take 1) (by simp) (by simp) (by simp) (by simp) (by simp [hline])
        (by rw [hp]; rfl) (by simp [hp]) (by simp [hp])
    · have hd := s.stampAndReturn.deliver_same (s.buf.rxbuf.readRange 0 s.res.len.toNat)
      exact .of_same (used := s.script.take 1) (by simp [hd.cfg]) (by simp [hd.params]) (by simp [hd.dirLevel])
        (by simp [hd.seq]) (by simp [hd.line, hline]) (by rw [hd.phase, hp]; rfl) (by simp [hp]) (by simp [hp])

/-! The bounds of the buffers. -/

/-- Every listed address of every buffer lies inside it (R66). -/
def State.InBounds (s : State) : Prop := ∀ sp, Safety.InBounds (s.buf.get sp) (sp.size s.params)

/-- A store inside its buffer lists no address outside it. -/
theorem State.InBounds.stored {s : State} (hs : s.InBounds) {sp : Space} {bs : List Byte}
    (hb : bs.length ≤ sp.size s.params) : (s.stored sp bs).InBounds := by
  intro sp' c hc
  by_cases hsp : sp' = sp
  · subst hsp
    rw [State.stored, Buffers.get_set_self] at hc
    obtain hold | hnew := Memory.mem_writeRange hc
    · exact hs sp' c hold
    · exact (hnew.trans_eq (Nat.zero_add _)).trans_le hb
  · rw [State.stored, Buffers.get_set_of_ne _ _ hsp] at hc
    exact hs sp' c hc

/-- What a phase stores fits its buffer (R50, R51, R169). -/
theorem IndexBounded.storeBound_le_size {s : State} (hs : IndexBounded s) {sp : Space} (hp : s.phase = sp.storedIn)
    (htx : sp = .txbuf → s.op.payload.length < 31) : s.storeBound sp ≤ sp.size s.params := by
  cases sp with
  | txbuf =>
    have hpay := htx rfl
    simp only [State.storeBound, Space.size, Config.TXBUF_SIZE]
    omega
  | rxbuf => exact (hs.length (.inl hp)).trans hs.cap
  | rxhdr | rxtrl => exact le_rfl

theorem advance_moved_inBounds {s t : State} (h : advance s = .moved t) (hb : IndexBounded s) (hs : s.InBounds) :
    t.InBounds := by
  have hparams := (advance_moved_frame h).params
  obtain hbuf | ⟨sp, bs, hp, hbound, htx, hbuf⟩ := advance_moved_buf h
  · rw [State.InBounds, hbuf, hparams]
    exact hs
  · rw [State.InBounds, hbuf, hparams]
    exact hs.stored (hbound.trans (hb.storeBound_le_size hp htx))

/-! The record registers. -/

/-- The record arrays have their sizes (R31 to R33, R200). -/
structure Records.Sized (p : Config.Params) (r : Records) : Prop where
  temps : r.status.temps.length = p.ntcMax
  cells : r.cells.length = Config.CELLS_MAX
  hwid : r.hwid.length = p.capHardware
  hwidLen : r.hwidLen ≤ p.capHardware

theorem Records.Sized.of_sane {s : State} (hs : Sane s) : s.records.Sized s.params :=
  ⟨hs.temps, hs.cells, hs.hwid, hs.hwidLen⟩

/-- A decode fills whole arrays. -/
theorem Records.Sized.recordsAfter {s : State} (hs : s.records.Sized s.params) {c : Command} {payload : List Byte}
    (hfits : c = .getHardware → payload.length ≤ s.params.capHardware) :
    (Safety.recordsAfter s c payload).Sized s.params := by
  cases c with
  | execute | setMosfet => exact hs
  | getStatus => exact ⟨statusTemps_length _ _ _ _, hs.cells, hs.hwid, hs.hwidLen⟩
  | getCells => exact ⟨hs.temps, decodeCells_length _ _, hs.hwid, hs.hwidLen⟩
  | getHardware => exact ⟨hs.temps, hs.cells, decodeHardware_length _ _ _, hfits rfl⟩

/-- Only STAMP ends a command (R161). -/
theorem advance_moved_ended {s t : State} (h : advance s = .moved t) (ht : t.phase = .idle) : s.phase = .stamp := by
  cases (advance_moved_registerStep h).results with
  | kept _ running =>
    obtain hrun | hp := running
    · rw [ht] at hrun
      exact absurd hrun (by decide)
    · exact hp
  | latched _ running =>
    rw [ht] at running
    exact absurd running (by decide)
  | raised ending | oversize _ ending =>
    rw [ht] at ending
    cases ending

theorem advance_moved_sized {s t : State} (h : advance s = .moved t) (hs : Sane s) : t.records.Sized s.params := by
  have hsized := Records.Sized.of_sane hs
  cases (advance_moved_registerStep h).records with
  | kept records => rwa [records]
  | delivered _ ended ok =>
    have hp := advance_moved_ended h ended
    obtain ⟨hrow, -⟩ := transitionsFollowTheTable s t hs h
    simp only [tableRow, hp, ended] at hrow
    obtain ⟨-, -, hres, hend⟩ := hrow
    have hok : s.res.err = .ok := hres ▸ ok
    rw [if_pos hok] at hend
    obtain ⟨-, hrecords⟩ := hend
    rw [hrecords]
    refine hsized.recordsAfter fun hc => ?_
    rw [Memory.readRange_length]
    exact hardwareFits_of_sane hs hp hok hc

/-- RECEIVING_PAYLOAD is entered with a length that was declared, is not zero and fits (R169). -/
theorem tableRow_receivingPayload {s t : State} (h : tableRow s t) (ht : t.phase = .receivingPayload) :
    0 < t.res.len.toNat ∧ t.res.len.toNat ≤ s.op.cap := by
  cases hp : s.phase <;> simp only [tableRow, hp, ht] at h
  case receivingHeader =>
    obtain ⟨-, hpos, hfits, -⟩ := h
    exact ⟨hpos, hfits⟩

/-- What OPEN leaves (R160): the configuration, a direction line at the receive level, and its event. -/
theorem execOpen_next_eq {present : Bool} {delay : Millis} {s t : State}
    (h : exec (.openDriver present delay) s = .next t) :
    s.phase = .idle ∧
      t = { s with
        cfg := { opened := true, dirPresent := present, cmdDelayMs := delay }
        dirLevel := if present then !s.params.dirTxLevel else s.dirLevel
        host := { s.host with result := .opened }
        history := s.history ++ if present then [.dir (!s.params.dirTxLevel)] else [] } := by
  obtain ⟨hidle, ht⟩ := whenIdle_next (h : execOpen present delay s = .next t)
  rw [State.dirDrive_eq] at ht
  cases ht
  exact ⟨hidle, rfl⟩

end Sys2Proof.Machine

/-! The invariant. -/

namespace Sys2Proof.Safety

open Sys2Proof.Machine

theorem Sane.of_moved {s t : State} (hs : Sane s) (hbusy : s.phase ≠ .idle) (h : advance s = .moved t) : Sane t := by
  have hopened := hs.opened hbusy
  have hframe := advance_moved_frame h
  have hbounded := IndexBounded.of_sane hs
  obtain ⟨hcap, htxLen, hlength⟩ := hbounded.of_moved h
  obtain ⟨hlevel, hdrained, hunsampled⟩ := advance_moved_lineStep h
  have hline : LineLevel t := hlevel (.of_sane hs hopened)
  have hwait : t.seq.waitStart = none := hunsampled fun hne =>
    Option.eq_none_iff_forall_ne_some.2 fun t0 ht0 => hne (hs.waiting t0 ht0).1
  obtain ⟨htemps, hcells, hhwid, hhwidLen⟩ := advance_moved_sized h hs
  exact {
    params := hframe.params ▸ hs.params
    canonical := advance_moved_canonical h hs.canonical
    inBounds := advance_moved_inBounds h hbounded hs.inBounds
    opened := fun _ => hframe.cfg ▸ hopened
    lineAtRest := fun _ hpresent hrest => by simpa [Phase.lineLevel, hrest] using hline hpresent
    lineDriven := fun hpresent hdriven => by simpa [Phase.lineLevel, hdriven] using hline hpresent
    drained := hdrained hs.drained
    plen := hframe.op ▸ hs.plen
    cap := hcap
    txLen := htxLen
    payloadFits := fun ht => hframe.op ▸ tableRow_receivingPayload (transitionsFollowTheTable s t hs h).1 ht
    lengthFits := fun ht => hlength (.inr ht)
    waiting := fun t0 ht0 => by rw [hwait] at ht0; cases ht0
    hardwareCap := fun _ => by
      rw [hframe.op, hframe.params, hframe.pending]
      exact hs.hardwareCap hbusy
    temps := by rw [hframe.params, htemps]
    cells := hcells
    hwid := by rw [hframe.params, hhwid]
    hwidLen := by rwa [hframe.params] }

/-- Moves of the environment alone keep it: an empty transmit queue stays empty. -/
theorem Sane.envAfter {s : State} (hs : Sane s) (used rest : List EnvMove) : Sane (s.envAfter used rest) :=
  { hs with drained := fun hne => Line.after_txq_nil (hs.drained hne) used }

/-- A held WAIT remembers a t0 at which the spacing had not elapsed (R164). -/
theorem Sane.withWaitStart {s : State} (hs : Sane s) (hp : s.phase = .wait) {t0 : Millis}
    (h0 : sub32 t0 s.lastDone < s.cfg.cmdDelayMs) : Sane { s with seq := { s.seq with waitStart := some t0 } } :=
  { hs with
    waiting := fun t0' h => by
      cases h
      exact ⟨hp, h0⟩ }

theorem Sane.of_held {s t : State} (hs : Sane s) (h : advance s = .held t) : Sane t := by
  obtain ⟨-, rfl⟩ | ⟨hp, -⟩ | ⟨-, -, -, rfl⟩ := advance_held h
  · exact hs
  · simp only [advance, hp] at h
    obtain ⟨t0, hstart, -, rfl⟩ := phaseWait_held h
    have h0 : sub32 t0 s.lastDone < s.cfg.cmdDelayMs := by
      obtain hsome | ⟨-, -, hlt⟩ := hstart
      · exact (hs.waiting t0 hsome).2
      · exact hlt
    exact (hs.envAfter s.script []).withWaitStart hp h0
  · exact hs.envAfter s.script []

theorem Sane.of_runPhases {n : Nat} {s t : State} (hs : Sane s) (hbusy : s.phase ≠ .idle)
    (h : runPhases n s = .next t) : Sane t :=
  runPhases_keeps (fun _ _ hu hb ha => hu.of_moved hb ha) (fun _ _ hu _ ha => hu.of_held ha) n hs hbusy h

/-- In IDLE no t0 is remembered. -/
theorem Sane.waitStart_of_idle {s : State} (hs : Sane s) (hidle : s.phase = .idle) : s.seq.waitStart = none :=
  Option.eq_none_iff_forall_ne_some.2 fun t0 ht0 => by
    have hp := (hs.waiting t0 ht0).1
    rw [hidle] at hp
    cases hp

/-- OPEN leaves the line at the receive level of a direction line, if there is one (R160). -/
theorem Sane.of_open {present : Bool} {delay : Millis} {s t : State} (hs : Sane s)
    (h : exec (.openDriver present delay) s = .next t) : Sane t := by
  obtain ⟨hidle, rfl⟩ := execOpen_next_eq h
  have hnone := hs.waitStart_of_idle hidle
  exact { hs with
    opened := fun _ => rfl
    lineAtRest := fun _ hpresent _ => if_pos hpresent
    lineDriven := fun _ hdriven => by
      have hrest : transmitPhase s.phase = true := hdriven
      rw [hidle] at hrest
      cases hrest
    waiting := fun t0 ht0 => by
      have hsome : s.seq.waitStart = some t0 := ht0
      rw [hnone] at hsome
      cases hsome }

/-- The issue of a command latches operands inside their types (R22, R52, R199). -/
theorem Sane.issue {i : Instr} {s : State} {q : Issue} (hs : Sane s) (hready : Ready s)
    (hq : commandIssue s i = some q) : Sane (s.issue q.command q.dir q.cmd q.payload q.cap) := by
  obtain ⟨hidle, hopened⟩ := hready
  obtain ⟨hpay, hhardware, hcap⟩ := commandIssue_bounds hq
  exact { hs with
    opened := fun _ => hopened
    lineAtRest := fun ho hpresent _ => hs.lineAtRest ho hpresent (by rw [hidle]; rfl)
    lineDriven := fun _ hdriven => by cases hdriven
    drained := fun _ => hs.drained (by simp [hidle])
    plen := (Nat.mod_eq_of_lt (Nat.lt_succ_of_le hpay)).symm
    cap := (hcap hs.params).2
    payloadFits := fun hp => by cases hp
    lengthFits := fun hp => by obtain hp | hp | ⟨hp, -⟩ := hp <;> cases hp
    waiting := fun _ ht0 => by cases ht0
    hardwareCap := fun _ => hhardware }

theorem Sane.of_exec {i : Instr} {s t : State} (hs : Sane s) (h : exec i s = .next t) : Sane t := by
  obtain hi | ⟨present, delay, rfl⟩ | ⟨q, hq⟩ := exec_next_cases h
  · obtain ⟨-, chk, draws, r, rfl⟩ := exec_pure_next hi h
    exact { hs with }
  · exact hs.of_open h
  · obtain ⟨hready, hrun⟩ := exec_command_next hq h
    exact (hs.issue hready hq).of_runPhases (by simp) hrun

end Sys2Proof.Safety

namespace Sys2Proof.Machine

open Sys2Proof.Safety

/-- Settles O40: a step is a move of the environment, an operation, or the command in progress going on. -/
theorem everyStepKeepsSane : Obligations.EveryStepKeepsSane := by
  intro s t hs h
  obtain ⟨-, rfl⟩ | ⟨i, later, -, hexec⟩ | ⟨hbusy, hrun⟩ := step_next_cases h
  · rw [show s.envMove = _ from s.now_eq]
    exact hs.envAfter _ _
  · have htaken : Sane (s.withRequests later) := { hs with }
    exact htaken.of_exec hexec
  · exact hs.of_runPhases hbusy hrun

end Sys2Proof.Machine

/-! ## The events of a command (10_state.md R37; 43_transport.md R161, R174, R176; 70_reset_and_hazards.md R277; O48)

A transition makes the events of its phase (`EventStep`). What the events of a command are when it has come to a state
follows transition by transition (`CommandEvents`). -/

namespace Sys2Proof.Machine

open Sys2Proof.Safety

/-! The events of one transition. -/

/-- The events that a transition from `s` to `t` may make (R161, column "events"). -/
inductive EventStep (s t : State) : List Event → Prop
  /-- ENCODING, WAIT and VALIDATING make none -/
  | silent (before : transmitPhase s.phase = false) (reason : t.phase = .stamp → t.res.err ≠ .ioShortWrite) :
      EventStep s t []
  | driven (before : s.phase = .txEnable) (after : t.phase = .transmitting) :
      EventStep s t (dirEvents s s.params.dirTxLevel)
  | offered (frame : List Byte) (n : Nat) (before : s.phase = .transmitting) (after : t.phase = .flush)
      (content : s.memRead .txbuf 0 s.seq.txLen = some frame) (accepted : n ≤ frame.length) :
      EventStep s t [.tx frame n]
  | flushed (before : s.phase = .flush) (after : t.phase = .directionSwitch) : EventStep s t [.flush]
  | released (before : s.phase = .directionSwitch) : EventStep s t (dirEvents s (!s.params.dirTxLevel))
  /-- a receiving phase reads into its buffer -/
  | received (sp : Space) (bs : List Byte) (receiving : sp ≠ .txbuf) (before : s.phase = sp.storedIn)
      (bound : bs.length ≤ s.storeBound sp) (reason : t.phase = .stamp → t.res.err ≠ .ioShortWrite) :
      EventStep s t [.rx bs]
  | stamped (before : s.phase = .stamp) (after : t.phase = .idle) : EventStep s t [.stamp t.lastDone]

/-- The transition from `s` to `t` appends events of its phase to the history. -/
def EventStepOf (s t : State) : Prop := ∃ es, t.history = s.history ++ es ∧ EventStep s t es

theorem phaseReceivingHeader_event {s t : State} (hp : s.phase = .receivingHeader)
    (h : phaseReceivingHeader s = .moved t) : EventStepOf s t := by
  obtain ⟨bs, used, rest, rxq, hr, ⟨-, rfl⟩ | ⟨start, echo, code, len, -, rfl⟩⟩ := phaseReceivingHeader_moved h
  · exact ⟨_, rfl, .received .rxhdr bs nofun hp hr.bound nofun⟩
  · obtain ⟨-, he⟩ | ⟨-, he⟩ | ⟨-, -, he⟩ := State.afterHeader_eq
      (((s.taken used rest rxq bs).stored .rxhdr bs).latchHeader echo code len) len <;> rw [he]
    all_goals exact ⟨_, rfl, .received .rxhdr bs nofun hp hr.bound nofun⟩

/-- STAMP adds its event to the history and ends the command; result registers and buffers stay (R174). -/
structure StampedFrom (s t : State) : Prop where
  history : t.history = s.history ++ [.stamp t.lastDone]
  clock : t.lastDone = t.line.clock
  phase : t.phase = .idle
  res : t.res = s.res
  buf : t.buf = s.buf

theorem phaseStamp_moved_from {s t : State} (h : phaseStamp s = .moved t) : StampedFrom s t := by
  obtain ⟨-, rfl⟩ | ⟨-, -, rfl⟩ := phaseStamp_moved h
  · exact ⟨s.stampAndReturn_history, rfl, rfl, s.stampAndReturn_res, s.stampAndReturn_buf⟩
  · have hd := s.stampAndReturn.deliver_same (s.buf.rxbuf.readRange 0 s.res.len.toNat)
    exact ⟨by simp [hd.history, hd.lastDone], by simp [hd.lastDone, hd.line], by simp [hd.phase], by simp [hd.res],
      by simp [hd.buf]⟩

/-- Every transition makes the events of its phase. -/
theorem advance_moved_event {s t : State} (h : advance s = .moved t) : EventStepOf s t := by
  cases hp : s.phase <;> simp only [advance, hp] at h
  case idle => cases h
  case encoding =>
    obtain ⟨-, rfl⟩ | ⟨frame, -, rfl⟩ := phaseEncoding_moved h <;>
      exact ⟨[], (List.append_nil _).symm, .silent (by rw [hp]; rfl) nofun⟩
  case wait =>
    obtain ⟨used, rest, -, ⟨-, -, -, rfl⟩ | ⟨t0, -, -, rfl⟩⟩ := phaseWait_moved h <;>
      exact ⟨[], (List.append_nil _).symm, .silent (by rw [hp]; rfl) nofun⟩
  case txEnable =>
    obtain rfl := phaseTxEnable_moved h
    exact ⟨_, s.dirDrive_history _, .driven hp rfl⟩
  case transmitting =>
    obtain ⟨frame, n, used, rest, hread, hn, -, rfl⟩ := phaseTransmitting_moved h
    exact ⟨_, rfl, .offered frame n hp rfl hread hn⟩
  case flush =>
    obtain ⟨used, rest, -, -, rfl⟩ := phaseFlush_moved h
    exact ⟨_, rfl, .flushed hp rfl⟩
  case directionSwitch =>
    obtain ⟨-, rfl⟩ | ⟨-, rfl⟩ := phaseDirectionSwitch_moved h <;>
      exact ⟨_, s.dirDrive_history _, .released hp⟩
  case receivingHeader => exact phaseReceivingHeader_event hp h
  case receivingPayload =>
    obtain ⟨bs, used, rest, rxq, hr, -, ⟨-, rfl⟩ | ⟨-, rfl⟩⟩ := phaseReceivingPayload_moved h <;>
      exact ⟨_, rfl, .received .rxbuf bs nofun hp hr.bound nofun⟩
  case receivingTrailer =>
    obtain ⟨bs, used, rest, rxq, hr, ⟨-, rfl⟩ | ⟨-, rfl⟩⟩ := phaseReceivingTrailer_moved h <;>
      exact ⟨_, rfl, .received .rxtrl bs nofun hp hr.bound nofun⟩
  case validating =>
    obtain ⟨bytes, -, rfl⟩ := phaseValidating_moved h
    exact ⟨[], (List.append_nil _).symm, .silent (by rw [hp]; rfl) fun _ hshort =>
      parseResponse_not_beforeHeader bytes (.inr (.inl hshort))⟩
  case stamp =>
    have hfrom := phaseStamp_moved_from h
    exact ⟨_, hfrom.history, .stamped hp hfrom.phase⟩

/-! What the events of a transition are. -/

/-- The last DIR event of two runs of events. -/
theorem lastDir_append (es es' : List Event) : lastDir (es ++ es') = (lastDir es').or (lastDir es) := by
  induction es with
  | nil => simp [lastDir]
  | cons e es ih =>
    cases e with
    | dir level =>
      simp only [List.cons_append, lastDir, ih]
      cases lastDir es' <;> rfl
    | _ => simpa only [List.cons_append, lastDir] using ih

theorem lastDir_dirEvents (s : State) (level : Bool) :
    lastDir (dirEvents s level) = if s.cfg.dirPresent then some level else none := by
  unfold dirEvents
  split <;> rfl

/-- A drive of the line is neither a STAMP nor an RX, and moves no byte. -/
theorem dirEvents_quiet (s : State) (level : Bool) :
    (∀ e ∈ dirEvents s level, isStamp e = false ∧ isRx e = false) ∧ rxBytes (dirEvents s level) = [] := by
  unfold dirEvents
  split <;> simp [isStamp, isRx, rxBytes]

/-- How many bytes a command has read at most when `remaining` phases are left: header, payload within the capacity,
trailer (R169 to R171). -/
def readLimit (cap remaining : Nat) : Nat :=
  if 5 ≤ remaining then 0 else if remaining = 4 then 4 else if remaining = 3 then 4 + cap else 7 + cap

theorem readLimit_anti {cap m n : Nat} (h : m ≤ n) : readLimit cap n ≤ readLimit cap m := by
  unfold readLimit
  split_ifs <;> omega

/-- A read of what a receiving phase may read, header, payload or trailer, stays within the limit of the phase after
it. -/
theorem readLimit_add_le {cap m n k : Nat} (h : n = 5 ∧ k ≤ 4 ∨ n = 4 ∧ k ≤ cap ∨ n = 3 ∧ k ≤ 3) (hm : m < n) :
    readLimit cap n + k ≤ readLimit cap m := by
  unfold readLimit
  split_ifs <;> omega

/-- The receiving phases are the last but VALIDATING and STAMP. -/
theorem Space.storedIn_remaining {sp : Space} (h : sp ≠ .txbuf) : sp.storedIn.remaining ≤ 5 := by
  cases sp with
  | txbuf => exact absurd rfl h
  | rxhdr | rxbuf | rxtrl => simp [Space.storedIn, Phase.remaining]

namespace EventStep

variable {s t : State} {es : List Event}

/-- Short of IDLE there is no STAMP. -/
theorem unstamped (h : EventStep s t es) (hbusy : t.phase ≠ .idle) : ∀ e ∈ es, isStamp e = false := by
  cases h with
  | driven | released => exact fun e he => ((dirEvents_quiet _ _).1 e he).1
  | stamped _ after => exact absurd after hbusy
  | silent | offered | flushed | received => simp [isStamp]

/-- Where the line rests, or where there is none, the last DIR event is receive, unless the transition makes none and
the same holds before it. -/
theorem lastDir (h : EventStep s t es) (ht : transmitPhase t.phase = false ∨ s.cfg.dirPresent = false) :
    Safety.lastDir es = some (!s.params.dirTxLevel) ∨
      Safety.lastDir es = none ∧ (transmitPhase s.phase = false ∨ s.cfg.dirPresent = false) := by
  cases h with
  | silent before => exact .inr ⟨rfl, .inl before⟩
  | driven _ after =>
    have habsent := ht.resolve_left (by rw [after]; decide)
    exact .inr ⟨by simp [lastDir_dirEvents, habsent], .inr habsent⟩
  | offered _ _ _ after | flushed _ after => exact .inr ⟨rfl, .inr (ht.resolve_left (by rw [after]; decide))⟩
  | released =>
    rw [lastDir_dirEvents]
    cases hd : s.cfg.dirPresent with
    | true => exact .inl rfl
    | false => exact .inr ⟨rfl, .inr rfl⟩
  | received sp _ _ before => exact .inr ⟨rfl, .inl (by rw [before]; cases sp <;> rfl)⟩
  | stamped before => exact .inr ⟨rfl, .inl (by rw [before]; rfl)⟩

/-- Up to the header, and on the way to STAMP with a short write, there is no RX. -/
theorem unread (h : EventStep s t es) (hrem : t.phase.remaining < s.phase.remaining)
    (ht : 5 ≤ t.phase.remaining ∨ t.phase = .stamp ∧ t.res.err = .ioShortWrite) :
    5 ≤ s.phase.remaining ∧ ∀ e ∈ es, isRx e = false := by
  cases h with
  | silent _ reason =>
    have hfive := ht.resolve_right fun hshort => reason hshort.1 hshort.2
    exact ⟨by omega, by simp⟩
  | driven before | released before =>
    exact ⟨by simp [before, Phase.remaining], fun e he => ((dirEvents_quiet _ _).1 e he).2⟩
  | offered _ _ before | flushed before => exact ⟨by simp [before, Phase.remaining], by simp [isRx]⟩
  | received sp _ receiving before _ reason =>
    have hfive := ht.resolve_right fun hshort => reason hshort.1 hshort.2
    have hreceiving := Space.storedIn_remaining receiving
    rw [← before] at hreceiving
    omega
  | stamped _ after => obtain ht | ⟨ht, -⟩ := ht <;> simp [after, Phase.remaining] at ht

/-- A transition reads no more than its phase may. -/
theorem rxBytes_le (h : EventStep s t es) (hrem : t.phase.remaining < s.phase.remaining)
    (hlen : UsesLength s → s.res.len.toNat ≤ s.op.cap) :
    readLimit s.op.cap s.phase.remaining + (rxBytes es).length ≤ readLimit s.op.cap t.phase.remaining := by
  have hanti := readLimit_anti (cap := s.op.cap) hrem.le
  cases h with
  | driven | released => rwa [(dirEvents_quiet _ _).2]
  | received sp bs receiving before bound =>
    simp only [rxBytes, List.append_nil]
    cases sp with
    | txbuf => exact absurd rfl receiving
    | rxhdr => exact readLimit_add_le (.inl ⟨by rw [before]; rfl, bound⟩) hrem
    | rxbuf => exact readLimit_add_le (.inr (.inl ⟨by rw [before]; rfl, bound.trans (hlen (.inl before))⟩)) hrem
    | rxtrl => exact readLimit_add_le (.inr (.inr ⟨by rw [before]; rfl, bound⟩)) hrem
  | silent | offered | flushed | stamped => exact hanti

end EventStep

/-! The events of a command so far. -/

/-- What the events `es` of a command are when it has come to `u` and has not ended (P1, P2, P3 and P5 of R277). -/
structure CommandEvents (u : State) (es : List Event) : Prop where
  unstamped : ∀ e ∈ es, isStamp e = false
  released : transmitPhase u.phase = false ∨ u.cfg.dirPresent = false →
    lastDir es = none ∨ lastDir es = some (!u.params.dirTxLevel)
  unread : 5 ≤ u.phase.remaining ∨ u.phase = .stamp ∧ u.res.err = .ioShortWrite → ∀ e ∈ es, isRx e = false
  bytes : (rxBytes es).length ≤ readLimit u.op.cap u.phase.remaining
  length : UsesLength u → u.res.len.toNat ≤ u.op.cap

theorem CommandEvents.of_moved {s t : State} {es es' : List Event} (hs : CommandEvents s es)
    (h : advance s = .moved t) (hstep : EventStep s t es') (hbusy : t.phase ≠ .idle) :
    CommandEvents t (es ++ es') := by
  have hframe := advance_moved_frame h
  have hrem := advance_moved_remaining h
  refine ⟨fun e he => ?_, fun ht => ?_, fun ht e he => ?_, ?_, fun ht => ?_⟩
  · exact (List.mem_append.1 he).elim (hs.unstamped e) (hstep.unstamped hbusy e)
  · rw [hframe.cfg] at ht
    rw [hframe.params, lastDir_append]
    obtain hlast | ⟨hlast, hbefore⟩ := hstep.lastDir ht
    · exact .inr (by rw [hlast]; rfl)
    · rw [hlast]
      exact hs.released hbefore
  · obtain ⟨hbefore, hnone⟩ := hstep.unread hrem ht
    exact (List.mem_append.1 he).elim (hs.unread (.inl hbefore) e) (hnone e)
  · have hread := hstep.rxBytes_le hrem hs.length
    have hbytes := hs.bytes
    rw [rxBytes_append, List.length_append, hframe.op]
    omega
  · rw [hframe.op]
    exact advance_moved_length h hs.length ht

/-- The command issued in `o` has come to `u` and made such events since. -/
def Traced (o u : State) : Prop := Frame o u ∧ ∃ es, u.history = o.history ++ es ∧ CommandEvents u es

theorem Traced.of_moved {o s t : State} (hs : Traced o s) (h : advance s = .moved t) (hbusy : t.phase ≠ .idle) :
    Traced o t := by
  obtain ⟨hframe, es, hhist, hevents⟩ := hs
  obtain ⟨es', hhist', hstep⟩ := advance_moved_event h
  exact ⟨hframe.trans (advance_moved_frame h), es ++ es', by rw [hhist', hhist, List.append_assoc],
    hevents.of_moved h hstep hbusy⟩

/-- At its issue a command has made none. -/
theorem Traced.issue (s : State) (q : Issue) :
    Traced (s.issue q.command q.dir q.cmd q.payload q.cap) (s.issue q.command q.dir q.cmd q.payload q.cap) :=
  ⟨.rfl' _, [], (List.append_nil _).symm, nofun, fun _ => .inl rfl, fun _ => nofun, Nat.zero_le _,
    fun hu => by simp [UsesLength] at hu⟩

/-- A run that ends in IDLE ends with the transition of STAMP, and what every transition short of it keeps holds
before it. -/
theorem runPhases_ended {P : State → Prop}
    (moved : ∀ s t, P s → s.phase ≠ .idle → advance s = .moved t → t.phase ≠ .idle → P t) :
    ∀ (n : Nat) {s t : State}, P s → s.phase ≠ .idle → runPhases n s = .next t → t.phase = .idle →
      ∃ u, P u ∧ u.phase = .stamp ∧ phaseStamp u = .moved t
  | 0, s, t, _, hbusy, h, hidle => by
    cases h
    exact absurd hidle hbusy
  | n + 1, s, t, hP, hbusy, h, hidle => by
    unfold runPhases at h
    split at h
    · cases h
    · rename_i s' hheld
      cases h
      obtain ⟨hp, -⟩ | ⟨hp, t0, rfl⟩ | ⟨-, hp, -, rfl⟩ := advance_held hheld <;> exact absurd ‹_› hbusy
    · rename_i s' hmoved
      split at h
      · rename_i hend
        cases h
        have hp := advance_moved_ended hmoved hend
        simp only [advance, hp] at hmoved
        exact ⟨s, hP, hp, hmoved⟩
      · rename_i hgoes
        exact runPhases_ended moved n (moved s s' hP hbusy hmoved hgoes) hgoes h hidle

/-- Settles O48: the events of the command up to STAMP, and STAMP's own. -/
theorem commandEndsWithOneStamp : Obligations.CommandEndsWithOneStamp := by
  intro i s t q hparams hq h hidle
  obtain ⟨-, hrun⟩ := exec_command_next hq h
  obtain ⟨-, -, hbounds⟩ := commandIssue_bounds hq
  obtain ⟨u, ⟨hframe, es, hhist, hevents⟩, hp, hstamp⟩ :=
    runPhases_ended (fun _ _ hu _ => hu.of_moved) phaseCount (Traced.issue s q) (by simp) hrun hidle
  have hfrom := phaseStamp_moved_from hstamp
  refine ⟨es, by rw [hfrom.history, hhist]; rfl, hevents.unstamped, hfrom.clock, ?_, ?_, ?_⟩
  · have hreleased := hevents.released (.inl (by rw [hp]; rfl))
    rwa [hframe.params] at hreleased
  · rw [hfrom.res]
    exact fun herr => hevents.unread (.inr ⟨hp, herr⟩)
  · have hbytes := hevents.bytes
    rw [hp, hframe.op] at hbytes
    have hlimit : readLimit q.cap Phase.stamp.remaining = 7 + q.cap := rfl
    have hcap := (hbounds hparams).1
    exact hbytes.trans (hlimit.trans_le (by omega))

end Sys2Proof.Machine

/-! ## The frame that an OK certifies (42_framecodec.md R142; 70_reset_and_hazards.md R277; O49) -/

namespace Sys2Proof.Machine

open Sys2Proof.Safety

/-- A parse that ends with OK has passed every check (R142, R148). -/
theorem parseResponse_of_ok {start echo code len hi lo stop : Byte} {payload : List Byte}
    (hlen : payload.length = len.toNat)
    (h : (parseResponse (start :: echo :: code :: len :: (payload ++ [hi, lo, stop]))).result.reason = .ok) :
    start = Config.START ∧ code = Config.RC_OK ∧ stop = Config.STOP ∧
      checksum code payload.length (some payload) = some (be16 hi lo) := by
  by_cases hstart : start = Config.START
  · subst hstart
    rw [parseResponse_header] at h
    by_cases hmax : len.toNat ≤ 64
    · rw [checkBody_of_complete hmax hlen] at h
      cases hc : checksum code payload.length (some payload) with
      | none =>
        rw [checkTrailer_of_none hc] at h
        cases h
      | some c =>
        rw [checkTrailer_of_some hc] at h
        dsimp only at h
        split_ifs at h with hsum hstop hcode
        · cases h
        · cases h
        · cases h
        · exact ⟨rfl, not_not.1 hcode, not_not.1 hstop, by rw [not_not.1 hsum]⟩
    · rw [checkBody_of_oversize (Nat.not_le.1 hmax)] at h
      cases h
  · rw [parseResponse_of_start_ne hstart] at h
    cases h

/-- P6 of R277: the frame in the buffers satisfies every check. -/
structure FrameCertified (s : State) : Prop where
  start : s.buf.rxhdr.read 0 = 0xDD
  code : s.res.code = 0
  len : s.res.len.toNat ≤ 30
  stop : s.buf.rxtrl.read 2 = 0x77
  sum : (s.res.code.toNat + s.res.len.toNat + byteSum (s.buf.rxbuf.readRange 0 s.res.len.toNat) +
      (be16 (s.buf.rxtrl.read 0) (s.buf.rxtrl.read 1)).toNat) % 65536 = 0

/-- It is about the buffers and the header's registers alone. -/
theorem FrameCertified.of_same {s t : State} (hs : FrameCertified s) (hbuf : t.buf = s.buf)
    (hcode : t.res.code = s.res.code) (hlen : t.res.len = s.res.len) : FrameCertified t := by
  obtain ⟨hstart, hzero, hshort, hstop, hsum⟩ := hs
  exact ⟨by rw [hbuf, hstart], by rw [hcode, hzero], by rwa [hlen], by rw [hbuf, hstop],
    by rwa [hbuf, hcode, hlen]⟩

/-- RXHDR holds the code and the length that the header's registers hold (R169). -/
def HeaderStored (s : State) : Prop := s.buf.rxhdr.read 2 = s.res.code ∧ s.buf.rxhdr.read 3 = s.res.len

/-- What the parser accepts in VALIDATING satisfies every check. -/
theorem FrameCertified.of_parse {s : State} {bytes : List Byte} (hs : HeaderStored s)
    (hbytes : s.response = some bytes) (hok : (parseResponse bytes).result.reason = .ok) : FrameCertified s := by
  obtain ⟨hcode, hlen⟩ := hs
  obtain ⟨-, rfl⟩ := State.response_eq_some.1 hbytes
  have hheader : s.buf.rxhdr.readRange 0 4 =
      [s.buf.rxhdr.read 0, s.buf.rxhdr.read 1, s.res.code, s.res.len] := by
    rw [← hcode, ← hlen]
    rfl
  rw [hheader, List.append_assoc] at hok
  have hlength := Memory.readRange_length s.buf.rxbuf 0 s.res.len.toNat
  obtain ⟨hstart, hzero, hstop, hsum⟩ := parseResponse_of_ok hlength hok
  obtain ⟨-, hcancel, -⟩ := checksumCancelsTheSum _ _ _ hsum
  obtain ⟨hshort, -⟩ := checksum_payload_eq_some.1 hsum
  rw [hlength] at hcancel hshort
  exact ⟨hstart, hzero, Nat.le_of_lt_succ hshort, hstop, hcancel⟩

/-- The phases between a full header and the verdict. -/
def AfterHeader (s : State) : Prop :=
  s.phase = .receivingPayload ∨ s.phase = .receivingTrailer ∨ s.phase = .validating

/-- They follow each other, and RECEIVING_HEADER comes before them (R161). -/
theorem tableRow_afterHeader {s t : State} (h : tableRow s t) (ht : AfterHeader t) :
    s.phase = .receivingHeader ∨ AfterHeader s := by
  obtain ht | ht | ht := ht <;> cases hp : s.phase <;> simp only [tableRow, hp, ht] at h
  all_goals simp [AfterHeader, hp]

/-- The only verdict OK is VALIDATING's: the other rows that lead to STAMP name an error (R161). -/
theorem tableRow_stamp_ok {s t : State} (h : tableRow s t) (ht : t.phase = .stamp) (hok : t.res.err = .ok) :
    s.phase = .validating := by
  cases hp : s.phase <;> simp only [tableRow, hp, ht] at h
  case validating => rfl
  all_goals simp_all

/-- RECEIVING_HEADER leaves the header that it latches in RXHDR. -/
theorem phaseReceivingHeader_headerStored {s t : State} (hs : s.Canonical) (h : phaseReceivingHeader s = .moved t)
    (ht : t.phase ≠ .stamp) : HeaderStored t := by
  obtain ⟨bs, used, rest, rxq, -, ⟨-, rfl⟩ | ⟨start, echo, code, len, rfl, rfl⟩⟩ := phaseReceivingHeader_moved h
  · exact absurd rfl ht
  · have htaken : (s.taken used rest rxq [start, echo, code, len]).Canonical := hs
    have hread := htaken.readRange_stored .rxhdr [start, echo, code, len]
    simp only [List.length_cons, List.length_nil, Memory.readRange, List.cons.injEq] at hread
    obtain ⟨-, -, hcode, hlen, -⟩ := hread
    obtain ⟨-, he⟩ | ⟨-, he⟩ | ⟨-, -, he⟩ := State.afterHeader_eq
      (((s.taken used rest rxq [start, echo, code, len]).stored .rxhdr [start, echo, code, len]).latchHeader
        echo code len) len <;> rw [he] <;> exact ⟨hcode, hlen⟩

/-- Only RECEIVING_HEADER stores into RXHDR (R169). -/
theorem advance_moved_rxhdr {s t : State} (h : advance s = .moved t) (hne : s.phase ≠ .receivingHeader) :
    t.buf.rxhdr = s.buf.rxhdr := by
  obtain hbuf | ⟨sp, bs, hp, -, -, hbuf⟩ := advance_moved_buf h
  · rw [hbuf]
  · rw [hbuf]
    cases sp with
    | rxhdr => exact absurd hp hne
    | txbuf | rxbuf | rxtrl => rfl

/-- Short of STAMP only RECEIVING_HEADER writes the result registers (R169). -/
theorem advance_moved_res {s t : State} (h : advance s = .moved t) (hne : s.phase ≠ .receivingHeader)
    (ht : 2 ≤ t.phase.remaining) : t.res = s.res := by
  cases (advance_moved_registerStep h).results with
  | kept results => exact results
  | latched reading | oversize reading => exact absurd reading hne
  | raised ending =>
    rw [ending] at ht
    exact absurd ht (by decide)

/-- The command issued in `o` has come to `u`: its header is held where the parser will read it, and an OK at STAMP
certifies the frame. -/
structure Certifying (o u : State) : Prop where
  frame : Frame o u
  sane : Sane u
  header : AfterHeader u → HeaderStored u
  verdict : u.phase = .stamp → u.res.err = .ok → FrameCertified u

section

variable {o s t : State}

theorem Certifying.header_of_moved (hs : Certifying o s) (h : advance s = .moved t) (ht : AfterHeader t) :
    HeaderStored t := by
  have hrem : 2 ≤ t.phase.remaining := by obtain ht | ht | ht := ht <;> simp [ht, Phase.remaining]
  by_cases hp : s.phase = .receivingHeader
  · simp only [advance, hp] at h
    refine phaseReceivingHeader_headerStored hs.sane.canonical h fun hstamp => ?_
    rw [hstamp] at hrem
    exact absurd hrem (by decide)
  · have hbefore := (tableRow_afterHeader (transitionsFollowTheTable s t hs.sane h).1 ht).resolve_left hp
    rw [HeaderStored, advance_moved_rxhdr h hp, advance_moved_res h hp hrem]
    exact hs.header hbefore

theorem Certifying.verdict_of_moved (hs : Certifying o s) (h : advance s = .moved t) (ht : t.phase = .stamp)
    (hok : t.res.err = .ok) : FrameCertified t := by
  have hp := tableRow_stamp_ok (transitionsFollowTheTable s t hs.sane h).1 ht hok
  simp only [advance, hp] at h
  obtain ⟨bytes, hbytes, rfl⟩ := phaseValidating_moved h
  exact (FrameCertified.of_parse (hs.header (.inr (.inr hp))) hbytes hok).of_same rfl rfl rfl

theorem Certifying.of_moved (hs : Certifying o s) (hbusy : s.phase ≠ .idle) (h : advance s = .moved t) :
    Certifying o t :=
  ⟨hs.frame.trans (advance_moved_frame h), hs.sane.of_moved hbusy h, hs.header_of_moved h, hs.verdict_of_moved h⟩

end

/-- At its issue a command has no header and no verdict. -/
theorem Certifying.issue {i : Instr} {s : State} {q : Issue} (hs : Sane s) (hready : Ready s)
    (hq : commandIssue s i = some q) :
    Certifying (s.issue q.command q.dir q.cmd q.payload q.cap)
      (s.issue q.command q.dir q.cmd q.payload q.cap) where
  frame := .rfl' _
  sane := hs.issue hready hq
  header h := by simp [AfterHeader] at h
  verdict h := by cases h

/-- Settles O49: the OK that STAMP returns is the verdict it came with. -/
theorem okCertifiesTheFrame : Obligations.OkCertifiesTheFrame := by
  intro i s t q hsane hq h hidle hok
  obtain ⟨hready, hrun⟩ := exec_command_next hq h
  obtain ⟨u, hu, hp, hstamp⟩ := runPhases_ended (fun _ _ hu hbusy ha _ => hu.of_moved hbusy ha) phaseCount
    (Certifying.issue hsane hready hq) (by simp) hrun hidle
  have hfrom := phaseStamp_moved_from hstamp
  have herr : u.res.err = .ok := hfrom.res ▸ hok
  obtain ⟨hstart, hcode, hlen, hstop, hsum⟩ :=
    (hu.verdict hp herr).of_same hfrom.buf (by rw [hfrom.res]) (by rw [hfrom.res])
  have hfits := hu.sane.lengthFits (.inr (.inr ⟨hp, herr⟩))
  rw [hu.frame.op, ← hfrom.res] at hfits
  exact ⟨hstart, hcode, hlen, hfits, hstop, hsum⟩

end Sys2Proof.Machine

/-! ## The frames a command offers (42_framecodec.md R140; 43_transport.md R163, R166; 70_reset_and_hazards.md R277;
O50) -/

namespace Sys2Proof.Machine

open Sys2Proof.Safety

/-- The request frame of a command whose payload is not too long for one (R163). -/
def IsOwnFrame (op : OperandRegs) (frame : List Byte) : Prop :=
  op.payload.length ≤ 30 ∧ frame = requestFrame op.dir op.cmd op.payload

/-- TXBUF[0..TXLEN) is the command's own frame. -/
def FrameLoaded (s : State) : Prop := ∃ frame, s.memRead .txbuf 0 s.seq.txLen = some frame ∧ IsOwnFrame s.op frame

/-- It depends on the operands, TXBUF, TXLEN and the parameters alone. -/
theorem FrameLoaded.of_same {s t : State} (hs : FrameLoaded s) (hparams : t.params = s.params) (hop : t.op = s.op)
    (hbuf : t.buf = s.buf) (htxLen : t.seq.txLen = s.seq.txLen) : FrameLoaded t := by
  unfold FrameLoaded State.memRead
  rw [hparams, hop, hbuf, htxLen]
  exact hs

/-- The phases from ENCODING to the write, in which the frame is loaded and waits. -/
def BeforeWrite (s : State) : Prop := s.phase = .wait ∨ s.phase = .txEnable ∨ s.phase = .transmitting

/-- ENCODING loads the frame (R163). -/
theorem phaseEncoding_frameLoaded {s t : State} (hs : s.Canonical) (h : phaseEncoding s = .moved t)
    (ht : BeforeWrite t) : FrameLoaded t := by
  obtain ⟨-, rfl⟩ | ⟨frame, hf, rfl⟩ := phaseEncoding_moved h
  · simp [BeforeWrite] at ht
  · obtain ⟨hlen, hshort⟩ := encodeFrame_length hf
    rw [encodeFrame_eq, if_pos hshort] at hf
    have hcanon : State.Canonical { s with chkOk := true } := hs
    have hsize : frame.length ≤ Space.size s.params .txbuf := by
      simp only [Space.size, Config.TXBUF_SIZE]
      omega
    exact ⟨frame, hcanon.memRead_stored hsize, Nat.le_of_lt_succ hshort, (Option.some.inj hf).symm⟩

/-- The loaded frame stays until it is written. -/
theorem FrameLoaded.of_moved {s t : State} (hs : s.Canonical) (h : advance s = .moved t)
    (hload : BeforeWrite s → FrameLoaded s) (ht : BeforeWrite t) : FrameLoaded t := by
  have hrem : 8 ≤ t.phase.remaining := by obtain ht | ht | ht := ht <;> simp [ht, Phase.remaining]
  have hlt := hrem.trans_lt (advance_moved_remaining h)
  cases hp : s.phase <;> simp only [advance, hp] at h <;> rw [hp] at hlt
  case encoding => exact phaseEncoding_frameLoaded hs h ht
  case wait =>
    have hloaded := hload (.inl hp)
    obtain ⟨used, rest, -, ⟨-, -, -, rfl⟩ | ⟨t0, -, -, rfl⟩⟩ := phaseWait_moved h <;>
      exact hloaded.of_same rfl rfl rfl rfl
  case txEnable =>
    obtain rfl := phaseTxEnable_moved h
    exact (hload (.inr (.inl hp))).of_same (by simp) (by simp) (by simp) (by simp)
  all_goals exact absurd hlt (by decide)

/-- A TX event is TRANSMITTING's: it carries what MemRead finds, and no more of it is accepted (R166). -/
theorem EventStep.tx {s t : State} {es : List Event} (h : EventStep s t es) {frame : List Byte} {n : Nat}
    (htx : .tx frame n ∈ es) :
    s.phase = .transmitting ∧ s.memRead .txbuf 0 s.seq.txLen = some frame ∧ n ≤ frame.length := by
  cases h with
  | offered frame' n' before after content accepted =>
    cases List.mem_singleton.1 htx
    exact ⟨before, content, accepted⟩
  | driven | released => simp [dirEvents] at htx
  | silent | flushed | received | stamped => simp at htx

/-- The command issued in `o` has come to `u`: its frame is loaded until the write, and what it has offered is that
frame. -/
structure Offering (o u : State) : Prop where
  frame : Frame o u
  canonical : u.Canonical
  loaded : BeforeWrite u → FrameLoaded u
  offered : ∃ es, u.history = o.history ++ es ∧ ∀ frame n, .tx frame n ∈ es → IsOwnFrame o.op frame ∧ n ≤ frame.length

theorem Offering.of_moved {o s t : State} (hs : Offering o s) (h : advance s = .moved t) : Offering o t := by
  obtain ⟨es, hhist, hoffered⟩ := hs.offered
  obtain ⟨es', hhist', hstep⟩ := advance_moved_event h
  refine ⟨hs.frame.trans (advance_moved_frame h), advance_moved_canonical h hs.canonical,
    .of_moved hs.canonical h hs.loaded, es ++ es', by rw [hhist', hhist, List.append_assoc], fun frame n htx => ?_⟩
  obtain hold | hnew := List.mem_append.1 htx
  · exact hoffered frame n hold
  · obtain ⟨hp, hread, hn⟩ := hstep.tx hnew
    obtain ⟨frame', hread', hown⟩ := hs.loaded (.inr (.inr hp))
    obtain rfl : frame = frame' := Option.some.inj (hread.symm.trans hread')
    rw [hs.frame.op] at hown
    exact ⟨hown, hn⟩

/-- A hold offers nothing and loads nothing. -/
theorem Offering.of_held {o s t : State} (hs : Offering o s) (h : advance s = .held t) : Offering o t := by
  have hframe := hs.frame.trans (advance_held_frame h)
  obtain ⟨-, hcanon, hloaded, hoffered⟩ := hs
  obtain ⟨-, rfl⟩ | ⟨-, t0, rfl⟩ | ⟨-, -, -, rfl⟩ := advance_held h <;>
    exact ⟨hframe, hcanon, fun hb => (hloaded hb).of_same rfl rfl rfl rfl, hoffered⟩

/-- At its issue a command has neither loaded nor offered a frame. -/
theorem Offering.issue {s : State} (hs : s.Canonical) (q : Issue) :
    Offering (s.issue q.command q.dir q.cmd q.payload q.cap) (s.issue q.command q.dir q.cmd q.payload q.cap) where
  frame := .rfl' _
  canonical := hs
  loaded hb := by simp [BeforeWrite] at hb
  offered := ⟨[], (List.append_nil _).symm, nofun⟩

/-- A request frame is well formed (R80, R112): it goes from 0xDD to 0x77, fits TXBUF, and command, length, payload and
the checksum in its place cancel. -/
theorem requestFrame_wellFormed {payload : List Byte} (h : payload.length ≤ 30) (dir cmd : Byte) :
    (requestFrame dir cmd payload).length ≤ 37 ∧ (requestFrame dir cmd payload).head? = some 0xDD ∧
      (requestFrame dir cmd payload).getLast? = some 0x77 ∧
      (cmd.toNat + payload.length + byteSum payload +
        (be16 ((requestFrame dir cmd payload).getD (4 + payload.length) 0)
          ((requestFrame dir cmd payload).getD (5 + payload.length) 0)).toNat) % 65536 = 0 := by
  have hlength := requestFrame_length dir cmd payload
  have hhi : (requestFrame dir cmd payload).getD (4 + payload.length) 0 =
      hi8 (neg16 (checksumSum cmd payload.length payload)) := getD_after_payload (k := 0) rfl ..
  have hlo : (requestFrame dir cmd payload).getD (5 + payload.length) 0 =
      lo8 (neg16 (checksumSum cmd payload.length payload)) :=
    getD_after_payload (payload := payload) (k := 1) (by omega) ..
  obtain ⟨-, hcancel, -⟩ := checksumCancelsTheSum cmd payload _ (checksum_some cmd (Nat.lt_succ_of_le h))
  refine ⟨by omega, rfl, ?_, ?_⟩
  · rw [requestFrame, List.getLast?_append]
    rfl
  · rwa [hhi, hlo, be16_hi8_lo8]

/-- Settles O50: what the command offered is its own request frame, whatever its outcome. -/
theorem offeredFramesAreWellFormed : Obligations.OfferedFramesAreWellFormed := by
  intro i s t q hsane hq h
  have hissued := Offering.issue hsane.canonical q
  obtain ⟨es, hhist, hoffered⟩ := (runPhases_keeps (P := Offering _) (fun _ _ hu _ ha => hu.of_moved ha)
    (fun _ _ hu _ ha => hu.of_held ha) phaseCount hissued (by simp) (exec_command_next hq h).2).offered
  refine ⟨es, hhist, fun frame n htx => ?_⟩
  obtain ⟨⟨hshort, rfl⟩, hn⟩ := hoffered frame n htx
  exact ⟨rfl, hn, requestFrame_wellFormed hshort q.dir q.cmd⟩

end Sys2Proof.Machine

/-! ## Commands complete in a helpful environment (20_memory.md R56 to R58; 43_transport.md R164;
70_reset_and_hazards.md R278; O55)

No phase is held as long as there are moves, and each takes a bounded number of them: WAIT one for its clock reading and
one for each millisecond missing, a phase that waits for the stream one. -/

namespace Sys2Proof.Machine

open Sys2Proof.Safety

/-! A hold that some of the coming moves lift. -/

/-- A hold that `used` would lift is lifted by then, so that at least the moves after them are left. -/
theorem awaitLine_within {ready : EnvMove → Line → Bool} (used rest : List EnvMove) {m : EnvMove} {l : Line}
    (h : ready (used.getLast?.getD m) (l.after used) = true) :
    ∃ m' l' left, awaitLine ready m l (used ++ rest) = .lifted m' l' left ∧ rest.length ≤ left.length := by
  induction used generalizing m l with
  | nil => exact ⟨m, l, rest, awaitLine_of_ready h rest, le_rfl⟩
  | cons m₁ ms ih =>
    cases hready : ready m l with
    | true => exact ⟨m, l, m₁ :: ms ++ rest, awaitLine_of_ready hready _, by simp; omega⟩
    | false =>
      rw [List.cons_append, awaitLine_of_not_ready hready]
      exact ih (by simpa [List.getLast?_cons] using h)

/-- So a primitive is done with at most these moves. -/
theorem State.hold_within {α : Type} {s : State} {ready : EnvMove → Line → Bool} {finish : EnvMove → Line → α × Line}
    {used rest : List EnvMove} (hs : s.script = used ++ rest)
    (h : ready (used.getLast?.getD .quiet) (s.line.after used) = true) :
    ∃ a t, s.hold ready finish = .done a t ∧ s.script.length ≤ t.script.length + used.length := by
  obtain ⟨m, l, left, hlifted, hleft⟩ := awaitLine_within used rest h
  unfold State.hold
  rw [hs, hlifted]
  refine ⟨_, _, rfl, ?_⟩
  simp only [List.length_append]
  omega

/-- Moves that each take a millisecond advance the clock by their number. -/
theorem Line.after_clock_of_helpful {ms : List EnvMove} (h : ∀ m ∈ ms, Helpful m) (l : Line) :
    (l.after ms).clock = l.clock + BitVec.ofNat 32 ms.length := by
  induction ms generalizing l with
  | nil => simp
  | cons m ms ih =>
    obtain ⟨hm, hms⟩ := List.forall_mem_cons.1 h
    rw [Line.after_cons, ih hms, Line.move_clock, hm.1, List.length_cons]
    bv_omega

/-- When the clock has advanced by what it lacked, it has advanced enough. -/
theorem le_sub32_add (remaining clock t0 : Millis) :
    remaining ≤ sub32 (clock + BitVec.ofNat 32 (remaining.toNat - (sub32 clock t0).toNat)) t0 := by
  unfold sub32
  bv_omega

section

variable {s : State}

/-- The wait for the clock takes at most a move for each millisecond (R164). -/
theorem State.waitClock_within (hm : ∀ m ∈ s.script, Helpful m) {t0 remaining : Millis}
    (hn : remaining.toNat ≤ s.script.length) :
    ∃ u t, s.waitClock t0 remaining = .done u t ∧ s.script.length ≤ t.script.length + remaining.toNat := by
  generalize hk : remaining.toNat - (sub32 s.line.clock t0).toNat = k
  have hlength : (s.script.take k).length = k := List.length_take_of_le (by omega)
  have hclock : remaining ≤ sub32 (s.line.after (s.script.take k)).clock t0 := by
    rw [Line.after_clock_of_helpful (fun m h => hm m (List.mem_of_mem_take h)), hlength, ← hk]
    exact le_sub32_add remaining s.line.clock t0
  obtain ⟨u, t, hdone, hleft⟩ := State.hold_within (ready := fun _ l => decide (remaining ≤ sub32 l.clock t0))
    (finish := fun _ l => ((), l)) (List.take_append_drop k s.script).symm (decide_eq_true hclock)
  exact ⟨u, t, hdone, by omega⟩

variable {m : EnvMove} {later : List EnvMove}

/-- A write takes at most one move that answers it (R56). -/
theorem State.streamWrite_within (hs : s.script = m :: later) (hm : Helpful m) (frame : List Byte) :
    ∃ n t, s.streamWrite frame = .done n t ∧ s.script.length ≤ t.script.length + 1 :=
  let ⟨_, haccept, _⟩ := hm
  State.hold_within (used := [m]) hs haccept

/-- A flush takes at most one move that empties the queue (R57). -/
theorem State.streamFlush_within (hs : s.script = m :: later) (hm : Helpful m)
    (hq : s.line.txq.length ≤ Config.TXBUF_SIZE) :
    ∃ u t, s.streamFlush = .done u t ∧ s.script.length ≤ t.script.length + 1 :=
  let ⟨_, _, hdrain, _⟩ := hm
  State.hold_within (used := [m]) hs (by simpa using hq.trans hdrain)

/-- A read takes at most one move that expires its timeout (R58). -/
theorem State.streamRead_within (hs : s.script = m :: later) (hm : Helpful m) (ht : s.params.streamTimeout = true)
    (n : Nat) : ∃ bs t, s.streamRead n = .done bs t ∧ s.script.length ≤ t.script.length + 1 :=
  let ⟨_, _, _, htimeout⟩ := hm
  State.hold_within (used := [m]) hs (by simp [ht, htimeout])

/-! How many moves a transition takes. -/

/-- A transition from `s` that is not held and takes at most `k` moves of the script. -/
def Progress.Within (k : Nat) (s : State) : Progress → Prop
  | .moved t => s.script.length ≤ t.script.length + k
  | .held _ => False
  | .stopped _ => True

/-- A transition that leaves the script alone takes no move. -/
theorem Progress.Within.of_kept {k : Nat} {p : Progress} (hheld : ∀ t, p ≠ .held t)
    (hmoved : ∀ t, p = .moved t → t.script = s.script) : p.Within k s := by
  cases p with
  | moved t =>
    have hlength : t.script.length = s.script.length := congrArg List.length (hmoved t rfl)
    exact hlength.symm.trans_le (Nat.le_add_right _ k)
  | held t => exact absurd rfl (hheld t)
  | stopped f => trivial

/-- Moves made before the transition add to its own. -/
theorem Progress.Within.add {j k : Nat} {u : State} {p : Progress} (h : p.Within k u)
    (hu : s.script.length ≤ u.script.length + j) : p.Within (k + j) s := by
  cases p with
  | moved t =>
    have hk : u.script.length ≤ t.script.length + k := h
    show s.script.length ≤ t.script.length + (k + j)
    omega
  | held t => exact h
  | stopped f => trivial

/-- A store takes none. -/
theorem State.storing_within {u : State} {j : Nat} (hu : s.script.length ≤ u.script.length + j) (sp : Space)
    (bs : List Byte) {k : State → State} (hk : ∀ v, (k v).script = v.script) : (u.storing sp bs k).Within j s := by
  have hstore : (u.storing sp bs k).Within 0 u := .of_kept (fun _ => State.storing_not_held) fun t h => by
    obtain ⟨-, rfl⟩ := State.storing_moved h
    exact hk _
  simpa using hstore.add hu

theorem State.afterHeader_script (s : State) (len : Byte) : (s.afterHeader len).script = s.script := by
  obtain ⟨-, h⟩ | ⟨-, h⟩ | ⟨-, -, h⟩ := s.afterHeader_eq len <;> rw [h] <;> rfl

theorem waitRemaining_within (hm : ∀ m ∈ s.script, Helpful m) {t0 : Millis}
    (h0 : sub32 t0 s.lastDone < s.cfg.cmdDelayMs) (hn : s.cfg.cmdDelayMs.toNat ≤ s.script.length) :
    (waitRemaining s t0).Within s.cfg.cmdDelayMs.toNat s := by
  have hle : (s.cfg.cmdDelayMs - sub32 t0 s.lastDone).toNat ≤ s.cfg.cmdDelayMs.toNat := by bv_omega
  obtain ⟨u, t, hdone, hleft⟩ := State.waitClock_within (t0 := t0) hm (hle.trans hn)
  unfold waitRemaining
  rw [hdone]
  exact hleft.trans (Nat.add_le_add_left hle _)

/-- WAIT takes one move for its clock reading and then at most one for each millisecond of the spacing (R164). -/
theorem phaseWait_within (hs : Sane s) (hm : ∀ m ∈ s.script, Helpful m)
    (hn : s.cfg.cmdDelayMs.toNat + 1 ≤ s.script.length) :
    (phaseWait s).Within (s.cfg.cmdDelayMs.toNat + 1) s := by
  have hnow : s.now.script.length = s.script.length - 1 := by rw [State.now_script, List.length_tail]
  unfold phaseWait
  split
  · rename_i t0 h0
    exact (waitRemaining_within hm (hs.waiting t0 h0).2 (by omega)).add (Nat.le_add_right _ 1)
  · split
    · rename_i hlt
      have hwait := waitRemaining_within (s := s.now) (t0 := s.now.line.clock)
        (fun m h => hm m (s.now_script_suffix.mem h)) (by simpa using hlt) (by rw [State.now_cfg]; omega)
      rw [State.now_cfg] at hwait
      exact hwait.add (by omega)
    · show s.script.length ≤ s.now.script.length + _
      omega

theorem phaseTransmitting_within (hs : s.script = m :: later) (hm : Helpful m) : (phaseTransmitting s).Within 1 s := by
  unfold phaseTransmitting
  cases s.memRead .txbuf 0 s.seq.txLen with
  | none => trivial
  | some frame =>
    obtain ⟨n, t, hdone, hleft⟩ := State.streamWrite_within hs hm frame
    simp only [hdone]
    exact hleft

theorem phaseFlush_within (hs : s.script = m :: later) (hm : Helpful m)
    (hq : s.line.txq.length ≤ Config.TXBUF_SIZE) : (phaseFlush s).Within 1 s := by
  obtain ⟨u, t, hdone, hleft⟩ := State.streamFlush_within hs hm hq
  unfold phaseFlush
  rw [hdone]
  exact hleft

theorem phaseReceivingHeader_within (hs : s.script = m :: later) (hm : Helpful m)
    (ht : s.params.streamTimeout = true) : (phaseReceivingHeader s).Within 1 s := by
  obtain ⟨bs, t, hdone, hleft⟩ := State.streamRead_within hs hm ht Config.RSP_HDR
  unfold phaseReceivingHeader
  rw [hdone]
  refine State.storing_within (u := t.emit (.rx bs)) hleft .rxhdr bs fun v => ?_
  split
  · exact State.afterHeader_script _ _
  · rfl

theorem phaseReceivingPayload_within (hs : s.script = m :: later) (hm : Helpful m)
    (ht : s.params.streamTimeout = true) : (phaseReceivingPayload s).Within 1 s := by
  obtain ⟨bs, t, hdone, hleft⟩ := State.streamRead_within hs hm ht s.res.len.toNat
  unfold phaseReceivingPayload
  rw [hdone]
  refine State.storing_within (u := t.emit (.rx bs)) hleft .rxbuf bs fun v => ?_
  split <;> rfl

theorem phaseReceivingTrailer_within (hs : s.script = m :: later) (hm : Helpful m)
    (ht : s.params.streamTimeout = true) : (phaseReceivingTrailer s).Within 1 s := by
  obtain ⟨bs, t, hdone, hleft⟩ := State.streamRead_within hs hm ht Config.RSP_TRL
  unfold phaseReceivingTrailer
  rw [hdone]
  refine State.storing_within (u := t.emit (.rx bs)) hleft .rxtrl bs fun v => ?_
  split <;> rfl

end

/-! A command in a helpful environment. -/

/-- How many moves a command needs at most with `remaining` phases left: the reading and the spacing of WAIT, and one
for each phase from TX_ENABLE to RECEIVING_TRAILER. -/
def movesNeeded (delay remaining : Nat) : Nat := if 10 ≤ remaining then delay + 8 else remaining - 2

/-- How many of them its phase takes at most; STAMP needs none. -/
def movesTaken (delay remaining : Nat) : Nat :=
  if remaining = 10 then delay + 1 else if 3 ≤ remaining ∧ remaining ≤ 9 then 1 else 0

theorem movesNeeded_add_le {delay m n : Nat} (h : m < n) :
    movesNeeded delay m + movesTaken delay n ≤ movesNeeded delay n := by
  unfold movesNeeded movesTaken
  split_ifs <;> omega

/-- A command whose environment has the moves left that it needs. -/
structure Helped (s : State) : Prop where
  sane : Sane s
  timesOut : s.params.streamTimeout = true
  helpful : ∀ m ∈ s.script, Helpful m
  queued : s.line.txq.length ≤ Config.TXBUF_SIZE
  enough : movesNeeded s.cfg.cmdDelayMs.toNat s.phase.remaining ≤ s.script.length

/-- FLUSH is entered with no more in the transmit queue than the frame (R166). -/
theorem advance_moved_queued {s t : State} (hs : Sane s) (h : advance s = .moved t) (ht : Sane t) :
    t.line.txq.length ≤ Config.TXBUF_SIZE := by
  by_cases hflush : t.phase = .flush
  · have hp : s.phase = .transmitting := by
      have hrow := (transitionsFollowTheTable s t hs h).1
      cases hp : s.phase <;> simp only [tableRow, hp, hflush] at hrow
      rfl
    have hempty := hs.drained (by simp [hp])
    simp only [advance, hp] at h
    obtain ⟨frame, n, used, rest, hread, hn, -, rfl⟩ := phaseTransmitting_moved h
    have hlength := State.memRead_length hread
    have htxLen := hs.txLen
    simp only [State.goto_line, State.emit_line, Line.after_txq_nil hempty, List.nil_append, List.length_take]
    omega
  · rw [ht.drained hflush]
    exact Nat.zero_le _

/-- Only a resting phase is held (R179). -/
theorem advance_not_held {s : State} (hp : restingPhase s.phase = false) (t : State) : advance s ≠ .held t := by
  intro h
  obtain ⟨hidle, -⟩ | ⟨hwait, -⟩ | ⟨hrest, -⟩ := advance_held h
  · rw [hidle] at hp
    cases hp
  · rw [hwait] at hp
    cases hp
  · rw [hp] at hrest
    cases hrest

/-- The phases before STAMP that wait for nothing leave the script alone. -/
theorem advance_moved_script {s t : State} (hp : restingPhase s.phase = false) (hne : s.phase ≠ .stamp)
    (h : advance s = .moved t) : t.script = s.script := by
  cases hphase : s.phase <;> simp only [advance, hphase] at h <;> rw [hphase] at hp hne
  case encoding => obtain ⟨-, rfl⟩ | ⟨frame, -, rfl⟩ := phaseEncoding_moved h <;> rfl
  case txEnable =>
    obtain rfl := phaseTxEnable_moved h
    simp
  case directionSwitch => obtain ⟨-, rfl⟩ | ⟨-, rfl⟩ := phaseDirectionSwitch_moved h <;> simp
  case validating =>
    obtain ⟨bytes, -, rfl⟩ := phaseValidating_moved h
    rfl
  case stamp => exact absurd rfl hne
  all_goals cases hp

/-- As long as a command needs moves there is one. -/
theorem Helped.next {s : State} (hs : Helped s) (hrem : 3 ≤ s.phase.remaining) :
    ∃ m later, s.script = m :: later ∧ Helpful m := by
  have hpos : 0 < s.script.length := by
    have henough := hs.enough
    unfold movesNeeded at henough
    split_ifs at henough <;> omega
  obtain ⟨m, later, hscript⟩ := List.exists_cons_of_length_pos hpos
  exact ⟨m, later, hscript, hs.helpful m (by rw [hscript]; exact List.mem_cons_self)⟩

/-- The transition of a phase before STAMP is not held and takes no more moves than are allotted to it. -/
theorem Helped.advance_within {s : State} (hs : Helped s) (hrem : 2 ≤ s.phase.remaining) :
    (advance s).Within (movesTaken s.cfg.cmdDelayMs.toNat s.phase.remaining) s := by
  by_cases hrest : restingPhase s.phase = false
  · refine .of_kept (advance_not_held hrest) fun t => advance_moved_script hrest fun hp => ?_
    rw [hp] at hrem
    exact absurd hrem (by decide)
  · have hmoves := hs.next
    have henough := hs.enough
    cases hp : s.phase <;> rw [hp] at hrem hrest hmoves henough <;> simp only [advance, hp]
    case idle => exact absurd hrem (by decide)
    case wait =>
      have hwait : s.cfg.cmdDelayMs.toNat + 8 ≤ s.script.length := henough
      exact phaseWait_within hs.sane hs.helpful (by omega)
    case transmitting =>
      obtain ⟨m, later, hscript, hm⟩ := hmoves (by decide)
      exact phaseTransmitting_within hscript hm
    case flush =>
      obtain ⟨m, later, hscript, hm⟩ := hmoves (by decide)
      exact phaseFlush_within hscript hm hs.queued
    case receivingHeader =>
      obtain ⟨m, later, hscript, hm⟩ := hmoves (by decide)
      exact phaseReceivingHeader_within hscript hm hs.timesOut
    case receivingPayload =>
      obtain ⟨m, later, hscript, hm⟩ := hmoves (by decide)
      exact phaseReceivingPayload_within hscript hm hs.timesOut
    case receivingTrailer =>
      obtain ⟨m, later, hscript, hm⟩ := hmoves (by decide)
      exact phaseReceivingTrailer_within hscript hm hs.timesOut
    all_goals exact absurd rfl hrest

/-- A transition within its allotment leaves the moves that are needed after it. -/
theorem Helped.of_moved {s t : State} (hs : Helped s) (hbusy : s.phase ≠ .idle) (h : advance s = .moved t)
    (hwithin : s.script.length ≤ t.script.length + movesTaken s.cfg.cmdDelayMs.toNat s.phase.remaining) :
    Helped t := by
  have hframe := advance_moved_frame h
  have hsane := hs.sane.of_moved hbusy h
  have hadd := movesNeeded_add_le (delay := s.cfg.cmdDelayMs.toNat) (advance_moved_remaining h)
  have henough := hs.enough
  refine ⟨hsane, hframe.params ▸ hs.timesOut, fun m hm => hs.helpful m (hframe.script.mem hm),
    advance_moved_queued hs.sane h hsane, ?_⟩
  rw [hframe.cfg]
  omega

/-- A helped command in progress goes on, to its end or helped again. -/
theorem Helped.goes_on {s : State} (hs : Helped s) (hbusy : s.phase ≠ .idle) :
    ∃ t, advance s = .moved t ∧ (t.phase = .idle ∨ Helped t) := by
  have hstops := (IndexBounded.of_sane hs.sane).not_stopped
  by_cases hp : s.phase = .stamp
  · cases h : advance s with
    | stopped f => exact absurd h (hstops f)
    | held t => exact absurd h (advance_not_held (by rw [hp]; rfl) t)
    | moved t =>
      refine ⟨t, rfl, .inl ?_⟩
      simp only [advance, hp] at h
      exact (phaseStamp_moved_from h).phase
  · have hrem : 2 ≤ s.phase.remaining := by cases hphase : s.phase <;> simp_all [Phase.remaining]
    have hwithin := hs.advance_within hrem
    cases h : advance s with
    | stopped f => exact absurd h (hstops f)
    | held t =>
      rw [h] at hwithin
      exact hwithin.elim
    | moved t =>
      rw [h] at hwithin
      exact ⟨t, rfl, .inr (hs.of_moved hbusy h hwithin)⟩

/-- A run whose transitions are all made, with enough fuel, ends in IDLE. -/
theorem runPhases_completes {P : State → Prop}
    (goes : ∀ s, P s → s.phase ≠ .idle → ∃ t, advance s = .moved t ∧ (t.phase = .idle ∨ P t)) :
    ∀ (n : Nat) {s : State}, P s → s.phase ≠ .idle → s.phase.remaining ≤ n →
      ∃ t, runPhases n s = .next t ∧ t.phase = .idle
  | 0, s, _, hbusy, hn => absurd hn (by cases hp : s.phase <;> simp_all [Phase.remaining])
  | n + 1, s, hP, hbusy, hn => by
    obtain ⟨t, hmoved, ht⟩ := goes s hP hbusy
    by_cases hidle : t.phase = .idle
    · exact ⟨t, runPhases_of_ended hmoved hidle, hidle⟩
    · have hrem := advance_moved_remaining hmoved
      rw [runPhases_of_moved hmoved hidle]
      exact runPhases_completes goes n (ht.resolve_left hidle) hidle (by omega)

/-- At its issue a command is helped (R278). -/
theorem Helped.issue {i : Instr} {s : State} {q : Issue} (hs : Sane s) (hready : Ready s)
    (hq : commandIssue s i = some q) (htimes : s.params.streamTimeout = true) (hhelp : ∀ m ∈ s.script, Helpful m)
    (hn : s.cfg.cmdDelayMs.toNat + 8 ≤ s.script.length) :
    Helped (s.issue q.command q.dir q.cmd q.payload q.cap) where
  sane := hs.issue hready hq
  timesOut := htimes
  helpful := hhelp
  queued := by simp [hs.drained (by simp [hready.1])]
  enough := hn

/-- Settles O55: a helped command goes on to its end. -/
theorem helpfulEnvironmentCompletes : Obligations.HelpfulEnvironmentCompletes := by
  intro i s q hsane hready hq htimes hhelp hn
  rw [exec_of_commandIssue hq hready]
  exact runPhases_completes (fun _ => Helped.goes_on) phaseCount (.issue hsane hready hq htimes hhelp hn) (by simp)
    (Phase.remaining_le _)

end Sys2Proof.Machine
